-- ==== Sys2Proof/Word.lean ====
section
/-! DEFINITION. The widths of the DBBE (00_scope.md R8): what the spec treats as bits is a bit vector here. -/

namespace Sys2Proof

/-- A byte: short-packet operands, micro-op operand fields, lane counts (R8, R104). -/
abbrev Byte := BitVec 8

/-- The data of one 16-bit bus transaction (R71, R80). -/
abbrev Half := BitVec 16

/-- A bridge register address (R71). -/
abbrev Addr := BitVec 16

/-- A host window register, a register-access-layer value, a command word or a micro-op word (R8, R31, R100). -/
abbrev Word := BitVec 32

/-- `absdiff(a, b)` of R12. -/
def absdiff (a b : Nat) : Nat := if b ≤ a then a - b else b - a

end Sys2Proof
end

