-- ==== Sys2Proof/Config.lean ====
section
/-! DEFINITION. What is fixed when a DBBE is built: BRG's constants (00_scope.md R7) and the parameters of R9
(`PROFILE`, `HAS_RESET_LINE`, `CLK_HZ`) with the schedule ROMs expanded from the profile. -/

namespace Sys2Proof

/-- `FRS_LIMIT[0..4]` of R7, in Hz. -/
def frsLimit : Nat → Nat
  | 0 => 1000000000
  | 1 => 500000000
  | 2 => 250000000
  | 3 => 125000000
  | _ => 62500000

/-- `FRS_COUNT` of R7: the range selector takes 0..3 (90_conflicts.md C1). -/
def frsCount : Nat := 4

/-- `PRD_COUNT` of R7. -/
def prdCount : Nat := 16

/-- `FBD_COUNT` of R7. -/
def fbdCount : Nat := 512

/-- `SEARCH_BOUND` of R7, R165. -/
def searchBound : Nat := 8192

/-- `W16_LOW_LIMIT` of R7. -/
def w16LowLimit : Nat := 0x100

/-- `W16_HIGH_BASE` of R7. -/
def w16HighBase : Nat := 0x600

/-- `PLL_SETTLE_MIN_US` of R7. -/
def pllSettleMinUs : Nat := 1000

/-- `PLL_SETTLE_HINT_US` of R7: a scheduling hint, which binds nothing (R191). -/
def pllSettleHintUs : Nat := 2000

/-- `FRAME_WAIT_MIN_US` of R7. -/
def frameWaitMinUs : Nat := 50000

/-- The profile of R200: the device-specific constants, fixed when the block is built. Register roles are
`REGMAP` indices, literal roles `LIT` indices. -/
structure Profile where
  regmap : List Addr
  lit : List Word
  sysctl : Byte
  plldivReg : Byte
  pllctlReg : Byte
  hsyncReg : Byte
  vsyncReg : Byte
  hactReg : Byte
  vactReg : Byte
  modectlReg : Byte
  btaReg : Byte
  startReg : Byte
  framectlReg : Byte
  ppenReg : Byte
  scHeader : Byte
  scWordcount : Byte
  scPayload : Byte
  scTrigger : Byte
  swrstAssert : BitVec 7
  swrstRelease : BitVec 7
  lp11 : BitVec 7
  hact : BitVec 7
  vact : BitVec 7
  modeSet : BitVec 7
  modeClear : BitVec 7
  bta : BitVec 7
  start : BitVec 7
  frmstopRstptr : BitVec 7
  frmstop : BitVec 7
  rstptr : BitVec 7
  ppen : BitVec 7
  phyLanes : List Byte
  timingFixed : List (Byte × BitVec 7)
  prdShift : Fin 32
  fbdShift : Fin 32
  frsShift : Fin 32
  pllctlBase : Word
  pllctlCken : Word
  scTag : Byte
  scTriggerValue : Word
  exitSleepId : Byte
  exitSleepP0 : Byte
  exitSleepP1 : Byte
deriving DecidableEq, Repr

/-- What a built DBBE is: the parameters of R9 and the two schedule ROMs (R70, R88). Nothing the machine does
changes it (R88, R250). -/
structure Build where
  profile : Profile
  hasResetLine : Bool
  clkHz : Nat
  bringup : List Word
  teardown : List Word
deriving DecidableEq, Repr

end Sys2Proof
end

