-- ==== Sys2Proof/Syntax.lean ====
section
/-! DEFINITION. The instructions of the DBBE: one constructor per row of spec/opcode_table.json, seven host
commands (30_encoding.md R102) and nine micro-ops (R105), with their operands decoded (R106). -/

namespace Sys2Proof

/-- The phases of R110; codes 11..15 are never held and have no constructor (I20). -/
inductive Phase where
  | off
  | reset
  | pllConfigured
  | phyEnabled
  | timingProgrammed
  | peripheralAwake
  | dsiStarted
  | streaming
  | frameStopRequested
  | pixelPipeDisabled
  | pointerReset
deriving DecidableEq, Repr

/-- The delays of R108. -/
inductive Delay where
  | pllSettle
  | frame
deriving DecidableEq, Repr

/-- The value sources of R107. -/
inductive Src where
  /-- Source ids 0x00..0x7F: `PROFILE.LIT[id]`. -/
  | lit (index : BitVec 7)
  /-- Source id 0x80. -/
  | zero
  /-- Source id 0x81. -/
  | plldiv
  /-- Source id 0x82. -/
  | pllctlNoclk
  /-- Source id 0x83. -/
  | pllctlClk
  /-- Source id 0x84. -/
  | hsync
  /-- Source id 0x85. -/
  | vsync
deriving DecidableEq, Repr

/-- The instruction set: host commands (R102) and micro-ops (R105). -/
inductive Instr where
  /-- ENABLE, R185. -/
  | enable
  /-- DISABLE, R188. -/
  | disable
  /-- H.SOLVE, R162. -/
  | hSolve
  /-- H.REGWR, R138. -/
  | hRegwr (addr : Addr)
  /-- H.REGRD, R139. -/
  | hRegrd (addr : Addr)
  /-- H.REGUPD, R140. -/
  | hRegupd (addr : Addr)
  /-- H.SHORT, R215. -/
  | hShort (commandId param0 param1 : Byte)
  /-- U.END, R187. -/
  | uEnd
  /-- U.PHASE, R189. -/
  | uPhase (phase : Phase)
  /-- U.WR, R136. -/
  | uWr (reg : Byte) (value : Src)
  /-- U.UPD, R137. -/
  | uUpd (reg : Byte) (mask value : Src)
  /-- U.WAIT, R191. -/
  | uWait (delay : Delay)
  /-- U.SOLVE, R161. -/
  | uSolve
  /-- U.DERIVE, R174. -/
  | uDerive
  /-- U.SHORT, R214. -/
  | uShort (commandId param0 param1 : Byte)
  /-- U.RSTLINE, R194; `true` asserts the reset. -/
  | uRstline (level : Bool)
deriving DecidableEq, Repr

/-- The command words of R102, which the host writes to CMD; the others are micro-ops, which stand in a ROM. -/
def Instr.isHost : Instr → Bool
  | .enable | .disable | .hSolve | .hRegwr _ | .hRegrd _ | .hRegupd _ | .hShort _ _ _ => true
  | .uEnd | .uPhase _ | .uWr _ _ | .uUpd _ _ _ | .uWait _ | .uSolve | .uDerive | .uShort _ _ _ | .uRstline _ =>
    false

end Sys2Proof
end

