-- ==== Sys2Proof/WellFormed.lean ====
section
/-! DEFINITION. Well-formedness of an instruction against a profile (30_encoding.md R113): the syntax already
excludes reserved codes, so what is left is that register and literal indices lie inside the profile. -/

namespace Sys2Proof

/-- A `REGMAP` index of the profile (R109). -/
def Profile.hasReg (p : Profile) (index : Byte) : Bool := decide (index.toNat < p.regmap.length)

/-- A `LIT` index of the profile (R107). -/
def Profile.hasLit (p : Profile) (index : BitVec 7) : Bool := decide (index.toNat < p.lit.length)

/-- A source id is a `LIT` index inside `PROFILE.LIT` or one of 0x80..0x85 (R113). -/
def Src.wf (p : Profile) : Src → Bool
  | .lit index => p.hasLit index
  | .zero | .plldiv | .pllctlNoclk | .pllctlClk | .hsync | .vsync => true

/-- An instruction is well formed against a profile (R113). The short-packet builder's roles are checked with the
profile (R201 item 1). -/
def Instr.wf (p : Profile) : Instr → Bool
  | .uWr reg value => p.hasReg reg && value.wf p
  | .uUpd reg mask value => p.hasReg reg && mask.wf p && value.wf p
  | .enable | .disable | .hSolve | .hRegwr _ | .hRegrd _ | .hRegupd _ | .hShort _ _ _ => true
  | .uEnd | .uPhase _ | .uWait _ | .uSolve | .uDerive | .uShort _ _ _ | .uRstline _ => true

end Sys2Proof
end

