-- ==== Sys2Proof/Decode.lean ====
section
/-! DEFINITION. The decoders of the two kinds of word (30_encoding.md R101 to R113) and the encoder (R118). -/

namespace Sys2Proof

/-- Why a word is no instruction. -/
inductive DecodeError where
  /-- The opcode is reserved (R102, R105). -/
  | reservedOpcode (op : BitVec 4)
  /-- A bit that the format marks reserved is 1 (R112). -/
  | reservedBits
  /-- A field that R105 marks 0 is not 0. -/
  | operandNotZero
  /-- A phase code above 10 (R113). -/
  | reservedPhase (code : Byte)
  /-- A delay id above 1 (R108, R113). -/
  | reservedDelay (id : Byte)
  /-- A source id above 0x85 (R107, R113). -/
  | reservedSource (id : Byte)
deriving DecidableEq, Repr

/-! ## Fields -/

/-- OP of a host command word (R101). -/
def hostOp (w : Word) : BitVec 4 := w.extractLsb' 0 4

/-- OP of a micro-op word (R104). -/
def uopOp (w : Word) : BitVec 4 := w.extractLsb' 28 4

/-- Operand A of a micro-op word (R104). -/
def uopA (w : Word) : Byte := w.extractLsb' 20 8

/-- Operand B of a micro-op word (R104). -/
def uopB (w : Word) : Byte := w.extractLsb' 12 8

/-- Operand C of a micro-op word (R104). -/
def uopC (w : Word) : Byte := w.extractLsb' 4 8

/-! ## Codes -/

/-- Phase codes (R110). -/
def phaseCode : Phase → BitVec 4
  | .off => 0
  | .reset => 1
  | .pllConfigured => 2
  | .phyEnabled => 3
  | .timingProgrammed => 4
  | .peripheralAwake => 5
  | .dsiStarted => 6
  | .streaming => 7
  | .frameStopRequested => 8
  | .pixelPipeDisabled => 9
  | .pointerReset => 10

/-- The phase of a code, for the codes 0..10 (R110). -/
def phaseOfCode (code : Byte) : Except DecodeError Phase :=
  match code.toNat with
  | 0 => .ok .off
  | 1 => .ok .reset
  | 2 => .ok .pllConfigured
  | 3 => .ok .phyEnabled
  | 4 => .ok .timingProgrammed
  | 5 => .ok .peripheralAwake
  | 6 => .ok .dsiStarted
  | 7 => .ok .streaming
  | 8 => .ok .frameStopRequested
  | 9 => .ok .pixelPipeDisabled
  | 10 => .ok .pointerReset
  | _ => .error (.reservedPhase code)

/-- Delay ids (R108). -/
def delayId : Delay → Byte
  | .pllSettle => 0
  | .frame => 1

/-- The delay of an id, for the ids 0 and 1 (R108). -/
def delayOfId (id : Byte) : Except DecodeError Delay :=
  match id.toNat with
  | 0 => .ok .pllSettle
  | 1 => .ok .frame
  | _ => .error (.reservedDelay id)

/-- Source ids (R107). -/
def srcId : Src → Byte
  | .lit index => index.setWidth 8
  | .zero => 0x80
  | .plldiv => 0x81
  | .pllctlNoclk => 0x82
  | .pllctlClk => 0x83
  | .hsync => 0x84
  | .vsync => 0x85

/-- The source of an id (R107); 0x86..0xFF are reserved. -/
def srcOfId (id : Byte) : Except DecodeError Src :=
  if id.toNat < 0x80 then .ok (.lit (id.setWidth 7))
  else match id.toNat with
    | 0x80 => .ok .zero
    | 0x81 => .ok .plldiv
    | 0x82 => .ok .pllctlNoclk
    | 0x83 => .ok .pllctlClk
    | 0x84 => .ok .hsync
    | 0x85 => .ok .vsync
    | _ => .error (.reservedSource id)

/-! ## Decoding -/

/-- Format HN: bits [31:4] must be 0 (R101, R112). -/
def formatHN (w : Word) (i : Instr) : Except DecodeError Instr :=
  if w.extractLsb' 4 28 = 0 then .ok i else .error .reservedBits

/-- Format HA: bits [15:4] must be 0 (R101, R112). -/
def formatHA (w : Word) (i : Addr → Instr) : Except DecodeError Instr :=
  if w.extractLsb' 4 12 = 0 then .ok (i (w.extractLsb' 16 16)) else .error .reservedBits

/-- Format HS: bits [7:4] must be 0; CMDID [15:8], P0 [23:16], P1 [31:24] (R101, R112). -/
def formatHS (w : Word) (i : Byte → Byte → Byte → Instr) : Except DecodeError Instr :=
  if w.extractLsb' 4 4 = 0 then .ok (i (w.extractLsb' 8 8) (w.extractLsb' 16 8) (w.extractLsb' 24 8))
  else .error .reservedBits

/-- The decoder of a word written to CMD (R101, R102, R112); `illegal(w)` of R181 is its error. -/
def decodeHost (w : Word) : Except DecodeError Instr :=
  match (hostOp w).toNat with
  | 0x1 => formatHN w .enable
  | 0x2 => formatHN w .disable
  | 0x3 => formatHN w .hSolve
  | 0x4 => formatHA w .hRegwr
  | 0x5 => formatHA w .hRegrd
  | 0x6 => formatHA w .hRegupd
  | 0x7 => formatHS w .hShort
  | _ => .error (.reservedOpcode (hostOp w))

/-- Refuses a word unless the named condition on its zero fields holds (R105). -/
def whenZero (ok : Bool) (r : Except DecodeError Instr) : Except DecodeError Instr :=
  if ok then r else .error .operandNotZero

/-- The opcode and operands of a micro-op whose reserved bits are 0 (R105, R106). -/
def decodeUopFields (w : Word) : Except DecodeError Instr :=
  match (uopOp w).toNat with
  | 0x0 => whenZero (uopA w == 0 && uopB w == 0 && uopC w == 0) (.ok .uEnd)
  | 0x1 => whenZero (uopB w == 0 && uopC w == 0) ((phaseOfCode (uopA w)).map .uPhase)
  | 0x2 => whenZero (uopC w == 0) ((srcOfId (uopB w)).map (.uWr (uopA w)))
  | 0x3 => (srcOfId (uopB w)).bind fun m => (srcOfId (uopC w)).map (.uUpd (uopA w) m)
  | 0x4 => whenZero (uopB w == 0 && uopC w == 0) ((delayOfId (uopA w)).map .uWait)
  | 0x5 => whenZero (uopA w == 0 && uopB w == 0 && uopC w == 0) (.ok .uSolve)
  | 0x6 => whenZero (uopA w == 0 && uopB w == 0 && uopC w == 0) (.ok .uDerive)
  | 0x7 => .ok (.uShort (uopA w) (uopB w) (uopC w))
  | 0x8 => whenZero ((uopA w).extractLsb' 1 7 == 0 && uopB w == 0 && uopC w == 0)
      (.ok (.uRstline ((uopA w).getLsbD 0)))
  | _ => .error (.reservedOpcode (uopOp w))

/-- The decoder of a schedule-ROM word (R104, R105, R113), as far as it does not depend on the profile. -/
def decodeUop (w : Word) : Except DecodeError Instr :=
  if w.extractLsb' 0 4 = 0 then decodeUopFields w else .error .reservedBits

/-- The instruction of a table row's word, low `nbits` bits of `w`, the rest 0. Micro-op words have bits [3:0] = 0
and host words have an opcode 1..7 there, so the word tells which of the two decoders it belongs to (R101, R104). -/
def decodeTableWord (nbits w : Nat) : Option Instr :=
  let word := BitVec.ofNat 32 (w % 2 ^ nbits)
  if hostOp word = 0 then (decodeUop word).toOption else (decodeHost word).toOption

/-! ## Encoding (R118) -/

/-- `enc_host_HN` of R118. -/
def encHostHN (op : BitVec 4) : Word := op.setWidth 32

/-- `enc_host_HA` of R118. -/
def encHostHA (op : BitVec 4) (addr : Addr) : Word := (addr.setWidth 32 <<< 16) ||| op.setWidth 32

/-- `enc_host_HS` of R118. -/
def encHostHS (op : BitVec 4) (cid p0 p1 : Byte) : Word :=
  (p1.setWidth 32 <<< 24) ||| (p0.setWidth 32 <<< 16) ||| (cid.setWidth 32 <<< 8) ||| op.setWidth 32

/-- `enc_uop` of R118. -/
def encUop (op : BitVec 4) (a b c : Byte) : Word :=
  (op.setWidth 32 <<< 28) ||| (a.setWidth 32 <<< 20) ||| (b.setWidth 32 <<< 12) ||| (c.setWidth 32 <<< 4)

/-- The word of an instruction (R102, R105, R106, R118). -/
def encode : Instr → Word
  | .enable => encHostHN 0x1
  | .disable => encHostHN 0x2
  | .hSolve => encHostHN 0x3
  | .hRegwr addr => encHostHA 0x4 addr
  | .hRegrd addr => encHostHA 0x5 addr
  | .hRegupd addr => encHostHA 0x6 addr
  | .hShort cid p0 p1 => encHostHS 0x7 cid p0 p1
  | .uEnd => encUop 0x0 0 0 0
  | .uPhase phase => encUop 0x1 ((phaseCode phase).setWidth 8) 0 0
  | .uWr reg value => encUop 0x2 reg (srcId value) 0
  | .uUpd reg mask value => encUop 0x3 reg (srcId mask) (srcId value)
  | .uWait delay => encUop 0x4 (delayId delay) 0 0
  | .uSolve => encUop 0x5 0 0 0
  | .uDerive => encUop 0x6 0 0 0
  | .uShort cid p0 p1 => encUop 0x7 cid p0 p1
  | .uRstline level => encUop 0x8 (if level then 1 else 0) 0 0

end Sys2Proof
end

