-- ==== Sys2Proof/Machine/Profile.lean ====
section
/-! DEFINITION. The schedule templates (44_sequencer.md R196, R198), the well-formedness of a profile (R201), the
building of a DBBE from one, and test profile T (R202). -/

namespace Sys2Proof.Machine

/-- The pseudo-instruction `SETB` of R116. -/
def setb (reg : Byte) (mask : BitVec 7) : Instr := .uUpd reg (.lit mask) (.lit mask)

/-- The pseudo-instruction `CLRB` of R116. -/
def clrb (reg : Byte) (mask : BitVec 7) : Instr := .uUpd reg (.lit mask) .zero

/-- The bring-up template up to `PHASE PLLConfigured` (R196). -/
def bringupPll (p : Profile) : List Instr :=
  [ .uRstline false,
    .uWr p.sysctl (.lit p.swrstAssert),
    .uWr p.sysctl (.lit p.swrstRelease),
    .uPhase .reset,
    .uSolve,
    .uWr p.plldivReg .plldiv,
    .uWr p.pllctlReg .pllctlNoclk,
    .uWait .pllSettle,
    .uWr p.pllctlReg .pllctlClk,
    .uPhase .pllConfigured ]

/-- `FOREACH PHY_LANES : WR $r, LP11` of R196. -/
def bringupPhy (p : Profile) : List Instr := p.phyLanes.map fun r => .uWr r (.lit p.lp11)

/-- `FOREACH TIMING_FIXED : WR $r, $s` of R196. -/
def bringupFixed (p : Profile) : List Instr := p.timingFixed.map fun e => .uWr e.1 (.lit e.2)

/-- The bring-up template from the derived timing writes to the END (R196). -/
def bringupTail (p : Profile) : List Instr :=
  [ .uWr p.hsyncReg .hsync,
    .uWr p.vsyncReg .vsync,
    .uWr p.hactReg (.lit p.hact),
    .uWr p.vactReg (.lit p.vact),
    .uWr p.modectlReg (.lit p.modeSet),
    .uWr p.modectlReg (.lit p.modeClear),
    .uPhase .timingProgrammed,
    .uShort p.exitSleepId p.exitSleepP0 p.exitSleepP1,
    .uPhase .peripheralAwake,
    .uWr p.btaReg (.lit p.bta),
    .uWr p.startReg (.lit p.start),
    .uPhase .dsiStarted,
    clrb p.framectlReg p.frmstopRstptr,
    setb p.ppenReg p.ppen,
    .uPhase .streaming,
    .uEnd ]

/-- The BRINGUP template (R196). -/
def bringupInstrs (p : Profile) : List Instr :=
  bringupPll p ++ bringupPhy p ++ [.uPhase .phyEnabled, .uDerive] ++ bringupFixed p ++ bringupTail p

/-- The TEARDOWN template (R198). -/
def teardownInstrs (p : Profile) : List Instr :=
  [ setb p.framectlReg p.frmstop,
    .uPhase .frameStopRequested,
    .uWait .frame,
    clrb p.ppenReg p.ppen,
    .uPhase .pixelPipeDisabled,
    setb p.framectlReg p.rstptr,
    .uPhase .pointerReset,
    .uRstline true,
    .uPhase .off,
    .uEnd ]

/-- The BRINGUP ROM: the template encoded by R118 (R196). -/
def bringupRom (p : Profile) : List Word := (bringupInstrs p).map encode

/-- The TEARDOWN ROM: the template encoded by R118 (R198). -/
def teardownRom (p : Profile) : List Word := (teardownInstrs p).map encode

/-! ## Well-formed profiles (R201) -/

/-- Which schedule ROM (R57). -/
inductive RomSel where
  | bringup
  | teardown
deriving DecidableEq, Repr

/-- Why no DBBE is built from a profile: the item of R201 that fails. -/
inductive BuildError where
  /-- R200: `REGMAP` has more than 256 entries or `LIT` more than 128. -/
  | listTooLong
  /-- R201 item 1: a role index or list entry is outside `REGMAP` or `LIT`. -/
  | roleOutside
  /-- R201 item 2: `LIT[FRMSTOP_RSTPTR]` is not `LIT[FRMSTOP] | LIT[RSTPTR]`. -/
  | frameBitsDiffer
  /-- R201 item 3: `LIT[FRMSTOP]`, `LIT[RSTPTR]` or `LIT[PPEN]` is 0. -/
  | zeroBits
  /-- R201 item 4: the bring-up ROM is longer than 256 words. -/
  | romTooLong
  /-- R201 item 5, R113: the word at this index of this ROM is not well formed, or is a misplaced U.END. -/
  | illFormedWord (rom : RomSel) (index : Nat)
  /-- R201 item 6: the word at this index of this ROM uses a result that no earlier word has produced. -/
  | usedTooEarly (rom : RomSel) (index : Nat)
  /-- R9: `CLK_HZ` is a positive natural. -/
  | clockNotPositive
deriving DecidableEq, Repr

/-- R201 item 1. -/
def rolesOk (p : Profile) : Bool :=
  [p.sysctl, p.plldivReg, p.pllctlReg, p.hsyncReg, p.vsyncReg, p.hactReg, p.vactReg, p.modectlReg, p.btaReg,
    p.startReg, p.framectlReg, p.ppenReg, p.scHeader, p.scWordcount, p.scPayload, p.scTrigger].all p.hasReg
  && [p.swrstAssert, p.swrstRelease, p.lp11, p.hact, p.vact, p.modeSet, p.modeClear, p.bta, p.start,
    p.frmstopRstptr, p.frmstop, p.rstptr, p.ppen].all p.hasLit
  && p.phyLanes.all p.hasReg
  && p.timingFixed.all fun e => p.hasReg e.1 && p.hasLit e.2

/-- `PROFILE.LIT[index]`, absent outside the list (R107). -/
def litValue (p : Profile) (index : BitVec 7) : Option Word := p.lit[index.toNat]?

/-- R201 item 2. -/
def frameBitsOk (p : Profile) : Bool :=
  match litValue p p.frmstopRstptr, litValue p p.frmstop, litValue p p.rstptr with
  | some both, some stop, some ptr => both == (stop ||| ptr)
  | _, _, _ => false

/-- R201 item 3. -/
def nonZeroBitsOk (p : Profile) : Bool :=
  [p.frmstop, p.rstptr, p.ppen].all fun index => litValue p index != some 0

/-- A ROM word is well formed: it decodes, inside the profile (R113). -/
def wordOk (p : Profile) (w : Word) : Bool :=
  match decodeUop w with
  | .ok i => i.wf p
  | .error _ => false

/-- R201 item 5 from index `k` on: the first ill-formed word or misplaced U.END. -/
def firstIllFormed (p : Profile) : Nat → List Word → Option Nat
  | k, [] => some k
  | k, [w] => if wordOk p w && w == encode .uEnd then none else some k
  | k, w :: ws => if wordOk p w && w != encode .uEnd then firstIllFormed p (k + 1) ws else some k

/-- A source that reads the PLL solution (R201 item 6). -/
def srcUsesSolution : Src → Bool
  | .plldiv | .pllctlNoclk | .pllctlClk => true
  | .lit _ | .zero | .hsync | .vsync => false

/-- A source that reads the derived timing (R201 item 6). -/
def srcUsesTiming : Src → Bool
  | .hsync | .vsync => true
  | .lit _ | .zero | .plldiv | .pllctlNoclk | .pllctlClk => false

/-- Whether an instruction may stand after words of which one was a U.SOLVE (`solved`) and one a U.DERIVE
(`derived`), by R201 item 6. -/
def useOk (solved derived : Bool) : Instr → Bool
  | .uDerive => solved
  | .uWr _ v => (solved || !srcUsesSolution v) && (derived || !srcUsesTiming v)
  | .uUpd _ m v => (solved || !(srcUsesSolution m || srcUsesSolution v))
      && (derived || !(srcUsesTiming m || srcUsesTiming v))
  | .enable | .disable | .hSolve | .hRegwr _ | .hRegrd _ | .hRegupd _ | .hShort _ _ _ => true
  | .uEnd | .uPhase _ | .uWait _ | .uSolve | .uShort _ _ _ | .uRstline _ => true

/-- R201 item 6 from index `k` on: the first word that uses a result too early. -/
def firstEarlyUse : Bool → Bool → Nat → List Word → Option Nat
  | _, _, _, [] => none
  | solved, derived, k, w :: ws =>
    match decodeUop w with
    | .error _ => some k
    | .ok i =>
      if useOk solved derived i then
        firstEarlyUse (solved || i == .uSolve) (derived || i == .uDerive) (k + 1) ws
      else some k

/-- The building of a DBBE: a profile that is not well formed is refused by name and index (R113, R201). -/
def buildOf (p : Profile) (hasResetLine : Bool) (clkHz : Nat) : Except BuildError Build :=
  if 256 < p.regmap.length ∨ 128 < p.lit.length then .error .listTooLong
  else if !rolesOk p then .error .roleOutside
  else if !frameBitsOk p then .error .frameBitsDiffer
  else if !nonZeroBitsOk p then .error .zeroBits
  else if 256 < 28 + p.phyLanes.length + p.timingFixed.length then .error .romTooLong
  else if clkHz = 0 then .error .clockNotPositive
  else match firstIllFormed p 0 (bringupRom p), firstIllFormed p 0 (teardownRom p),
      firstEarlyUse false false 0 (bringupRom p), firstEarlyUse false false 0 (teardownRom p) with
    | some k, _, _, _ => .error (.illFormedWord .bringup k)
    | none, some k, _, _ => .error (.illFormedWord .teardown k)
    | none, none, some k, _ => .error (.usedTooEarly .bringup k)
    | none, none, none, some k => .error (.usedTooEarly .teardown k)
    | none, none, none, none =>
      .ok { profile := p, hasResetLine, clkHz, bringup := bringupRom p, teardown := teardownRom p }

/-- A build that `buildOf` gives: the DBBEs that exist (R201). -/
def buildWf (b : Build) : Bool :=
  match buildOf b.profile b.hasResetLine b.clkHz with
  | .ok b' => b' == b
  | .error _ => false

/-- The words of a schedule ROM (R57). -/
def romWords (b : Build) : RomSel → List Word
  | .bringup => b.bringup
  | .teardown => b.teardown

/-! ## Test profile T (R202) -/

/-- Test profile T (R202): the spec's own choice, not a claim about any bridge (G1, G2). -/
def profileT : Profile where
  regmap := [0x0002, 0x0016, 0x0018, 0x0140, 0x0144, 0x0148, 0x014C, 0x0150, 0x0210, 0x0214, 0x0218, 0x021C,
    0x0220, 0x022C, 0x0224, 0x0620, 0x0624, 0x0628, 0x062C, 0x040C, 0x023C, 0x0204, 0x0032, 0x0004, 0x0602,
    0x0604, 0x0610, 0x0600]
  lit := [0x00000001, 0x00000000, 0x00000000, 0x00002000, 0x00000004, 0x00000705, 0x00000003, 0x00000806,
    0x00000004, 0x00004A38, 0x00000F00, 0x00000320, 0xA0000083, 0xC0000002, 0x00050003, 0x00000001, 0x0000C000,
    0x00008000, 0x00004000, 0x00000040]
  sysctl := 0
  plldivReg := 1
  pllctlReg := 2
  hsyncReg := 15
  vsyncReg := 16
  hactReg := 17
  vactReg := 18
  modectlReg := 19
  btaReg := 20
  startReg := 21
  framectlReg := 22
  ppenReg := 23
  scHeader := 24
  scWordcount := 25
  scPayload := 26
  scTrigger := 27
  swrstAssert := 0
  swrstRelease := 1
  lp11 := 2
  hact := 10
  vact := 11
  modeSet := 12
  modeClear := 13
  bta := 14
  start := 15
  frmstopRstptr := 16
  frmstop := 17
  rstptr := 18
  ppen := 19
  phyLanes := [3, 4, 5, 6, 7]
  timingFixed := [(8, 3), (9, 4), (10, 5), (11, 6), (12, 7), (13, 8), (14, 9)]
  prdShift := 12
  fbdShift := 0
  frsShift := 10
  pllctlBase := 0x00000203
  pllctlCken := 0x00000010
  scTag := 0x10
  scTriggerValue := 0x00000001
  exitSleepId := 0x05
  exitSleepP0 := 0x11
  exitSleepP1 := 0x00

/-- The DBBE of the spec's test vectors: profile T with the reset line (95_test_vectors.md); `CLK_HZ` is R263's
example. DESIGN CHOICE, log 1. -/
def buildT : Build where
  profile := profileT
  hasResetLine := true
  clkHz := 100000000
  bringup := bringupRom profileT
  teardown := teardownRom profileT

end Sys2Proof.Machine
end

