-- ==== Sys2Proof/Machine/State.lean ====
section
/-! DEFINITION. The state of the DBBE (10_state.md), the reasons a step can stop, and the state after block reset
(R63). Fields marked MODEL are not the spec's state: they hold what the spec's pseudocode keeps in locals, the
environment's free choices, and the observation of 00_scope.md R18. -/

namespace Sys2Proof.Machine

/-- The Device Configuration: the fields of CFG_PCLK, CFG_REFCLK, CFG_LANES, CFG_H and CFG_V (R32 to R36). -/
structure DevConfig where
  pclk : Word
  refclk : Word
  dpiLanes : Byte
  dsiLanes : Byte
  hsw : Half
  hbp : Half
  vsw : Half
  vbp : Half
deriving DecidableEq, Repr

/-- `S.arg`, the latched operands of a direct command (R56, R181). -/
structure Arg where
  addr : Addr
  data : Word
  mask : Word
  commandId : Byte
  param0 : Byte
  param1 : Byte
deriving DecidableEq, Repr

/-- The error kinds of STATUS.ERR (R42, R111). -/
inductive ErrKind where
  | none
  | outOfRange
  | noSolution
  | busError
  | badConfig
  | illegalCommand
deriving DecidableEq, Repr

/-- `S.op`, the kind of the running operation (R57). -/
inductive OpKind where
  | none
  | enable
  | disable
  | solve
  | regwr
  | regrd
  | regupd
  | short
deriving DecidableEq, Repr

/-- `S.search`, the solver's working state (R58): the pair looked at last, the best candidate so far, and whether
an exact match ended the search. -/
structure Search where
  prd : Nat
  fbd : Nat
  found : Bool
  bestPrd : Nat
  bestFbd : Nat
  bestPll : Nat
  bestDiff : Nat
  exact : Bool
deriving DecidableEq, Repr

/-- A bus request (R80). -/
inductive Tx where
  | read (addr : Addr)
  | write (addr : Addr) (data : Half)
deriving DecidableEq, Repr

/-- A bus response (R80): `rdata` means something for a READ only. -/
inductive Answer where
  | ok (rdata : Half)
  | err
deriving DecidableEq, Repr

/-- `S.bus` (R59). -/
inductive BusState where
  | idle
  | pending (tx : Tx)
deriving DecidableEq, Repr

/-- A host access to the window: a byte offset and a size in bytes (R31, R78). -/
inductive HostAccess where
  | read (offset : Byte) (bytes : Nat)
  | write (offset : Byte) (bytes : Nat) (value : Word)
deriving DecidableEq, Repr

/-- MODEL. The window's response to a host access (R78, log 15). -/
inductive HostReply where
  | data (value : Word)
  | done
  | error
deriving DecidableEq, Repr

/-- MODEL. What moves next (R6, log 2). -/
inductive Input where
  /-- The Engine takes a turn. -/
  | engine
  /-- The host accesses the window (R89). -/
  | host (access : HostAccess)
  /-- The bus transport answers the pending transaction, a free draw (R81, R82, log 3). -/
  | answer (a : Answer)
  /-- The timebase advances (R262). -/
  | elapse (us : Nat)
  /-- Block reset is asserted and released (R250). -/
  | blockReset
deriving DecidableEq, Repr

/-- MODEL. One event of the observation (R18), with the value of `now`. A transaction is its issue and, later, its
answer (R80). -/
inductive LogEntry where
  | issue (tx : Tx) (time : Nat)
  | answer (a : Answer) (time : Nat)
  | resetLine (level : Bool) (time : Nat)
  | blockReset (time : Nat)
deriving DecidableEq, Repr

/-- The state of the DBBE and of its environment. -/
structure State where
  /-- PROFILE, HAS_RESET_LINE, CLK_HZ and the schedule ROMs (R9, R57, R88): no step changes it. -/
  build : Build
  /-- CFG_PCLK .. CFG_V (R32 to R36). -/
  cfg : DevConfig
  /-- ARG_DATA (R38). -/
  argData : Word
  /-- ARG_MASK (R39). -/
  argMask : Word
  /-- STATUS.BUSY (R41). -/
  busy : Bool
  /-- STATUS.ERR (R42). -/
  err : ErrKind
  /-- STATUS.PHASE (R43). -/
  phase : Phase
  /-- STATUS.LASTOP (R44). -/
  lastop : BitVec 4
  /-- STATUS.STEP (R45). -/
  statStep : Byte
  /-- STATUS.REJECT (R46). -/
  reject : Bool
  /-- `S.rstline` (R61); false throughout if there is no reset line. -/
  rstline : Bool
  /-- PLL_RES.FBD (R48). -/
  fbd : BitVec 9
  /-- PLL_RES.PRD (R48). -/
  prd : BitVec 4
  /-- PLL_RES.FRS (R48). -/
  frs : BitVec 2
  /-- PLL_RES.VALID (R48). -/
  valid : Bool
  /-- PLL_FREQ (R49). -/
  pllFreq : Word
  /-- PLL_BITCLK (R50). -/
  pllBitclk : Word
  /-- MODEL. `REFCLK'` of R62 (log 13). -/
  pllRefclk : Word
  /-- TARGET (R51). -/
  target : Word
  /-- TIM_HSYNC (R52). -/
  timHsync : Word
  /-- TIM_VSYNC (R53). -/
  timVsync : Word
  /-- RD_DATA (R54). -/
  rdData : Word
  /-- `S.acfg` (R56). -/
  acfg : DevConfig
  /-- `S.arg` (R56). -/
  arg : Arg
  /-- `S.op` (R57). -/
  op : OpKind
  /-- `S.rom` (R57). -/
  rom : Option RomSel
  /-- `S.step`, the block's program counter (R57, R186). -/
  romStep : Byte
  /-- `S.search` (R58). -/
  search : Search
  /-- MODEL. Whether the running H.SOLVE has solved and has the derivation left (R162, log 7). -/
  solveDone : Bool
  /-- `S.bus` (R59): PENDING from the issue of a transaction to the arrival of its response (R80, R83). -/
  bus : BusState
  /-- MODEL. The response on the bus port (R80), from its arrival to the Engine's turn that takes it (log 3). -/
  response : Option Answer
  /-- `S.sub`: the index of the next transaction of the running access (R59, log 4). -/
  sub : Nat
  /-- MODEL. The data of the reads the running access has completed: `lo`, `hi`, `old` of R132, R133 (log 4). -/
  readData : List Half
  /-- MODEL. Whether a U.WAIT is running (R60, log 6). -/
  waiting : Bool
  /-- `S.wait_start` (R60). -/
  waitStart : Nat
  /-- The timebase, in microseconds (R6). -/
  now : Nat
  /-- MODEL. What the environment does next (log 2). -/
  inputs : List Input
  /-- MODEL. The observation so far, oldest first (R18, log 16). -/
  log : List LogEntry
  /-- MODEL. The response to the last host access (log 15). -/
  reply : Option HostReply
deriving DecidableEq, Repr

/-- Why the machine stops with a fault. -/
inductive Fault where
  /-- Raised by the Engine's turn when S.rom is none or S.step lies outside the ROM while ENABLE or DISABLE runs.
  R186 rules it out ("it never wraps, because every ROM ends with U.END"), so no run of a well-formed DBBE reaches
  it. Safe. Log 11. -/
  | fetchOutsideRom (rom : Option RomSel) (index : Byte)
deriving DecidableEq, Repr

/-- Why the machine refuses. -/
inductive Refusal where
  /-- An instruction without a meaning. Safe. No arm uses it. -/
  | notModelled (mnemonic : String)
  /-- R113: a ROM holds a word that is not a well-formed micro-op; refused by ROM and index. Raised by the Engine's
  turn (the word does not decode) and by U.WR and U.UPD (an index outside the profile). Safe. Log 10. -/
  | illFormedMicroOp (rom : Option RomSel) (index : Byte)
  /-- R175, R201 item 6: a U.DERIVE is reached with VALID = 0, so the ROM is ill formed. Safe. Log 10. -/
  | deriveWithoutSolution (rom : Option RomSel) (index : Byte)
  /-- R201 item 1: a short-packet role lies outside REGMAP. Raised by U.SHORT and H.SHORT. Safe. Log 10. -/
  | illFormedProfile
  /-- A solve or derivation with a configuration that fails R183, whose divisor would be 0 (R12: `div` "is only ever
  applied with `b > 0`"). No run reaches it, since S.acfg is latched only when the check passes. Safe. Log 9. -/
  | configNotLatched
deriving DecidableEq, Repr

/-- The outcome of a step of this machine. -/
abbrev Result := Host.Outcome State Fault Refusal

/-- A configuration of zeros (R63). -/
def DevConfig.zero : DevConfig := ⟨0, 0, 0, 0, 0, 0, 0, 0⟩

/-- Operands of zeros (R63). -/
def Arg.zero : Arg := ⟨0, 0, 0, 0, 0, 0⟩

/-- The solver's state before a solve initialises it. DESIGN CHOICE: R63 says unspecified, never read; log 5. -/
def Search.start : Search := ⟨0, 0, false, 0, 0, 0, 0, false⟩

/-- The state after block reset of a built DBBE (R63), with an environment that has done nothing. `sub`, `readData`,
`waiting`, `waitStart`, `search`, `solveDone` and `pllRefclk` are DESIGN CHOICES (log 5, 6, 7, 13), as is `now`
(log 17); no response is on the bus port, since no transaction is outstanding. -/
def State.resetOf (b : Build) : State where
  build := b
  cfg := DevConfig.zero
  argData := 0
  argMask := 0
  busy := false
  err := .none
  phase := .off
  lastop := 0
  statStep := 0
  reject := false
  rstline := b.hasResetLine
  fbd := 0
  prd := 0
  frs := 0
  valid := false
  pllFreq := 0
  pllBitclk := 0
  pllRefclk := 0
  target := 0
  timHsync := 0
  timVsync := 0
  rdData := 0
  acfg := DevConfig.zero
  arg := Arg.zero
  op := .none
  rom := none
  romStep := 0
  search := Search.start
  solveDone := false
  bus := .idle
  response := none
  sub := 0
  readData := []
  waiting := false
  waitStart := 0
  now := 0
  inputs := []
  log := []
  reply := none

/-- The machine right after block reset (R63, R250), built from profile T with the reset line (log 1). -/
def State.reset : State := State.resetOf buildT

end Sys2Proof.Machine
end

