-- ==== Sys2Proof/Machine/Operands.lean ====
section
/-! DEFINITION. Operand forms: width classes and the halves codec (20_memory.md R72, 41_register_access.md R130),
register indices, value sources and delays (30_encoding.md R107 to R109), the PLL word encoders (44_sequencer.md
R200), the packet words (45_short_command.md R211) and the configuration check (44_sequencer.md R183). -/

namespace Sys2Proof.Machine

/-- The width class of a bridge register (R72). -/
inductive WidthClass where
  | w16
  | w32
deriving DecidableEq, Repr

/-- `class(a)` of R72: of the base address alone (R73). -/
def widthClass (a : Addr) : WidthClass :=
  if a.toNat < w16LowLimit ∨ w16HighBase ≤ a.toNat then .w16 else .w32

/-- `v[15:0]` (R130). -/
def lowHalf (v : Word) : Half := v.extractLsb' 0 16

/-- `v[31:16]` (R130). -/
def highHalf (v : Word) : Half := v.extractLsb' 16 16

/-- `split32` of R130. -/
def split32 (v : Word) : Half × Half := (lowHalf v, highHalf v)

/-- `join32` of R130. -/
def join32 (lo hi : Half) : Word := lo.setWidth 32 ||| (hi.setWidth 32 <<< 16)

/-- The bytes of one 16-bit transaction on the wire, first byte first (R76). -/
def wireBytes (v : Half) : List Byte := [v.extractLsb' 8 8, v.extractLsb' 0 8]

/-- `PROFILE.REGMAP[A]`, absent outside the profile (R109). -/
def regAddr (p : Profile) (index : Byte) : Option Addr := p.regmap[index.toNat]?

/-- `enc_plldiv` of R200. -/
def encPlldiv (p : Profile) (prd : BitVec 4) (fbd : BitVec 9) : Word :=
  (prd.setWidth 32 <<< p.prdShift.val) ||| (fbd.setWidth 32 <<< p.fbdShift.val)

/-- `enc_pllctl` of R200. -/
def encPllctl (p : Profile) (frs : BitVec 2) (clockOut : Bool) : Word :=
  (frs.setWidth 32 <<< p.frsShift.val) ||| p.pllctlBase ||| (if clockOut then p.pllctlCken else 0)

/-- The value of a source, read when the micro-op executes (R107); absent for a LIT index outside the profile. -/
def srcValue (s : State) : Src → Option Word
  | .lit index => litValue s.build.profile index
  | .zero => some 0
  | .plldiv => some (encPlldiv s.build.profile s.prd s.fbd)
  | .pllctlNoclk => some (encPllctl s.build.profile s.frs false)
  | .pllctlClk => some (encPllctl s.build.profile s.frs true)
  | .hsync => some s.timHsync
  | .vsync => some s.timVsync

/-- The minimum of a delay, in microseconds (R108). -/
def delayMinUs : Delay → Nat
  | .pllSettle => pllSettleMinUs
  | .frame => frameWaitMinUs

/-- The cycles the delay counter is loaded with, `ceil(min_us * CLK_HZ / 10^6)` (R193, R263). -/
def delayCycles (clkHz minUs : Nat) : Nat := (minUs * clkHz + 999999) / 1000000

/-- The delay counter while a U.WAIT runs: the cycles left of those it was loaded with (R193, R235, log 19). -/
def delayCounter (d : Delay) (s : State) : Nat :=
  delayCycles s.build.clkHz (delayMinUs d) - (s.now - s.waitStart) * s.build.clkHz / 1000000

/-- The header word of a short packet (R211). -/
def shortHeader (p : Profile) (commandId : Byte) : Word :=
  (p.scTag.setWidth 32 <<< 8) ||| commandId.setWidth 32

/-- The payload word of a short packet (R211). -/
def shortPayload (param0 param1 : Byte) : Word := (param1.setWidth 32 <<< 8) ||| param0.setWidth 32

/-- `config_ok` of R183. -/
def configOk (c : DevConfig) : Bool := c.pclk != 0 && c.refclk != 0 && c.dpiLanes != 0 && c.dsiLanes != 0

end Sys2Proof.Machine
end

