-- ==== Sys2Proof/Machine/Ops.lean ====
section
/-! DEFINITION. The shared operations: command acceptance (44_sequencer.md R181, R182), the abort (60_exceptions.md
R224), the micro-op index (R186), the reset line (R194), the wait (R193), 16-bit transactions (20_memory.md R81 to
R83) and the register accesses made of them (41_register_access.md R131 to R133, 45_short_command.md R212), and
block reset (70_reset_and_hazards.md R250, R251). -/

namespace Sys2Proof.Machine

/-! ## Commands -/

/-- A CMD write while BUSY = 1: only REJECT changes (R182, R227). -/
def rejectCmd (s : State) : State := { s with reject := true }

/-- What every command that passes the busy check writes first (R181): LASTOP, ERR, STEP. -/
def beginCommand (opcode : BitVec 4) (s : State) : State :=
  { s with lastop := opcode, err := .none, statStep := 0 }

/-- An error decided at acceptance: ERR is set and the command does not start (R181, R225, R226). -/
def refuseCommand (e : ErrKind) (s : State) : State := { s with err := e }

/-- `BUSY <- 1; S.op <- op` (R181). -/
def startOp (kind : OpKind) (s : State) : State := { s with busy := true, op := kind }

/-- The configuration latch (R184). -/
def latchConfig (s : State) : State := { s with acfg := s.cfg }

/-- The operand latch of H.REGWR, H.REGRD and H.REGUPD (R181). -/
def latchAccess (addr : Addr) (s : State) : State :=
  { s with arg := { s.arg with addr := addr, data := s.argData, mask := s.argMask } }

/-- The operand latch of H.SHORT (R181). -/
def latchShort (commandId param0 param1 : Byte) (s : State) : State :=
  { s with arg := { s.arg with commandId := commandId, param0 := param0, param1 := param1 } }

/-- `S.rom <- r; S.step <- 0` (R181). -/
def selectRom (r : RomSel) (s : State) : State := { s with rom := some r, romStep := 0 }

/-- The end of an operation without error: BUSY is 0 and the Engine is idle (R180, R187). -/
def finish (s : State) : State := { s with busy := false, op := .none }

/-- The state an abort leaves (R224): nothing else changes, nothing is rolled back (R207). -/
def abort (e : ErrKind) (s : State) : State := { s with err := e, busy := false, op := .none, bus := .idle }

/-- `raise E`: taking an exception of this block (R224). There is no return from it (R231). -/
def raise (e : ErrKind) (s : State) : Result := .next (abort e s)

/-- One turn of a direct command: a CMD write while the Engine is idle is its acceptance; while its own operation
runs, the Engine goes on with it; while another runs, the write is rejected (R181, R182, log 27). -/
def direct (kind : OpKind) (accept : State → State) (run : State → Result) (s : State) : Result :=
  if s.busy then
    if s.op = kind then run s else .next (rejectCmd s)
  else .next (accept s)

/-! ## Micro-ops -/

/-- A micro-op that completes advances S.step by exactly 1, and STATUS.STEP with it (R186, log 14). -/
def advance (s : State) : State := { s with romStep := s.romStep + 1, statStep := s.romStep + 1 }

/-- `PHASE <- p`; entering Off discards the PLL Solution (R189, R190). -/
def enterPhase (p : Phase) (s : State) : State :=
  { s with phase := p, valid := if p = .off then false else s.valid }

/-- Drives the reset-line output, if it exists (R194); the observation sees level changes (R18). -/
def driveResetLine (level : Bool) (s : State) : State :=
  if s.build.hasResetLine && s.rstline != level then
    { s with rstline := level, log := s.log ++ [.resetLine level s.now] }
  else s

/-- The beginning of a U.WAIT: `S.wait_start <- now` (R193). -/
def startWait (s : State) : State := { s with waiting := true, waitStart := s.now }

/-- The end of a U.WAIT (R193). -/
def endWait (s : State) : State := { s with waiting := false }

/-- `Wait(min_us)` (R193): the first turn records the start; a turn before the minimum has passed does nothing; a
turn after it goes on with `k`. -/
def wait (minUs : Nat) (s : State) (k : State → Result) : Result :=
  if !s.waiting then .next (startWait s)
  else if minUs ≤ s.now - s.waitStart then k (endWait s)
  else .next s

/-! ## Transactions -/

/-- Issues a transaction (R80): it is outstanding until its response arrives (R83). -/
def issueTx (t : Tx) (s : State) : State :=
  { s with bus := .pending t, log := s.log ++ [.issue t s.now] }

/-- The response to the outstanding transaction arrives on the bus port (R80): nothing is outstanding any more, and
the Engine takes the response at its next turn (log 3). The observation sees it at its arrival (log 16). -/
def receive (a : Answer) (s : State) : State :=
  { s with bus := .idle, response := some a, log := s.log ++ [.answer a s.now] }

/-- The Engine takes the response from the bus port. -/
def takeResponse (s : State) : State := { s with response := none }

/-- An access is the list of transactions it consists of, as far as the data read so far determines it. -/
abbrev Access := List Half → List Tx

/-- The transaction at the access's position `S.sub` (R59). -/
def txAt (access : Access) (s : State) : Option Tx := (access s.readData)[s.sub]?

/-- A new access stands at its first transaction and has read nothing (R59, log 4). -/
def beginAccess (s : State) : State := { s with sub := 0, readData := [] }

/-- The data read so far, with those of an answer to this transaction: a READ's are kept (R82, R132). -/
def keepRead (t : Option Tx) (d : Half) (data : List Half) : List Half :=
  match t with
  | some (.read _) => data ++ [d]
  | some (.write _ _) | none => data

/-- After an OK answer the access is one transaction further (R82, R83). -/
def stepAccess (access : Access) (d : Half) (s : State) : State :=
  { s with response := none, sub := s.sub + 1, readData := keepRead (txAt access s) d s.readData }

/-- The access's next transaction is issued, or, with none left, what follows the access happens. -/
def issueNext (access : Access) (s : State) (k : State → Result) : Result :=
  match txAt access s with
  | some t => .next (issueTx t s)
  | none => k s

/-- One turn of the Engine in an access, with what follows when it completes: one turn for each transaction's issue,
and one after the last answer (R6). A turn begins the access, or waits while a transaction is outstanding (R83), or
takes the response: an OK answer lets the access go on, an ERR answer raises BUS_ERROR at once and nothing later runs
(R15, R135). -/
def runAccess (access : Access) (s : State) (k : State → Result) : Result :=
  match s.bus, s.response with
  | .pending _, _ => .next s
  | .idle, none => issueNext access (beginAccess s) k
  | .idle, some (.ok d) => issueNext access (stepAccess access d s) k
  | .idle, some .err => raise .busError (takeResponse s)

/-! ## Register accesses -/

/-- The transactions of `RegWrite(a, v)` (R131). -/
def regWriteTxs (a : Addr) (v : Word) : List Tx :=
  match widthClass a with
  | .w16 => [.write a (lowHalf v)]
  | .w32 => [.write a (lowHalf v), .write (a + 2) (highHalf v)]

/-- The transactions of `RegRead(a)` (R132). -/
def regReadTxs (a : Addr) : List Tx :=
  match widthClass a with
  | .w16 => [.read a]
  | .w32 => [.read a, .read (a + 2)]

/-- The value of `RegRead(a)` from the data its reads gave (R132). -/
def regReadValue (a : Addr) (data : List Half) : Word :=
  match widthClass a with
  | .w16 => (data.getD 0 0).setWidth 32
  | .w32 => join32 (data.getD 0 0) (data.getD 1 0)

/-- The mask or value operand of `RegUpdate` as R133 uses it: for a W16 address its low half. -/
def updateOperand (a : Addr) (v : Word) : Word :=
  match widthClass a with
  | .w16 => (lowHalf v).setWidth 32
  | .w32 => v

/-- `new` of R133. -/
def updatedValue (a : Addr) (m v old : Word) : Word :=
  (old &&& ~~~(updateOperand a m)) ||| (updateOperand a v &&& updateOperand a m)

/-- The transactions of `RegUpdate(a, m, v)` (R133): the reads, then the write if the value changes. -/
def regUpdateTxs (a : Addr) (m v : Word) : Access := fun data =>
  if data.length < (regReadTxs a).length then regReadTxs a
  else
    let old := regReadValue a data
    let new := updatedValue a m v old
    if new = old then regReadTxs a else regReadTxs a ++ regWriteTxs a new

/-- The four register addresses of the short-packet builder, absent if a role is outside REGMAP (R201, R212). -/
def shortAddrs (p : Profile) : Option (Addr × Addr × Addr × Addr) :=
  match regAddr p p.scHeader, regAddr p p.scWordcount, regAddr p p.scPayload, regAddr p p.scTrigger with
  | some h, some w, some d, some t => some (h, w, d, t)
  | _, _, _, _ => none

/-- The transactions of `SendShort` (R211, R212): header, word count, payload, trigger last. -/
def sendShortTxs (p : Profile) (addrs : Addr × Addr × Addr × Addr) (commandId param0 param1 : Byte) : List Tx :=
  regWriteTxs addrs.1 (shortHeader p commandId)
    ++ regWriteTxs addrs.2.1 0
    ++ regWriteTxs addrs.2.2.1 (shortPayload param0 param1)
    ++ regWriteTxs addrs.2.2.2 p.scTriggerValue

/-- `SendShort` (R212), one turn; a profile whose roles are outside REGMAP is refused (R201). -/
def sendShort (commandId param0 param1 : Byte) (s : State) (k : State → Result) : Result :=
  match shortAddrs s.build.profile with
  | some addrs => runAccess (fun _ => sendShortTxs s.build.profile addrs commandId param0 param1) s k
  | none => .refused .illFormedProfile

/-! ## Block reset -/

/-- Block reset (R250, R251): every piece of state takes its reset value; the profile and the ROMs stay; no abort
record is written; the answer to a transaction that was outstanding is not noticed. The environment (inputs, time, the
observation) goes on: log 2, 16, 17. -/
def blockReset (s : State) : State :=
  { State.resetOf s.build with
    now := s.now
    inputs := s.inputs
    log := s.log ++ .blockReset s.now
      :: (if s.build.hasResetLine && !s.rstline then [.resetLine true s.now] else []) }

end Sys2Proof.Machine
end

