-- ==== Sys2Proof/Machine/Solver.lean ====
section
/-! DEFINITION. The PLL parameter solver (42_pll_solver.md R150 to R160) and the timing derivation
(43_timing_derivation.md R170 to R175), on exact natural numbers (00_scope.md R12, R16). -/

namespace Sys2Proof.Machine

/-- `byteclk` of R151. -/
def byteClock (c : DevConfig) : Nat := (c.pclk.toNat * c.dpiLanes.toNat) / (8 * c.dsiLanes.toNat)

/-- `target` of R151. -/
def targetFreq (c : DevConfig) : Nat := byteClock c * 8

/-- `pll_to_pclk` of R152: a definition only, no register or operation uses it. -/
def pllToPclk (c : DevConfig) (pll : Nat) : Nat := ((pll / 8) * 8 * c.dsiLanes.toNat) / c.dpiLanes.toNat

/-- The bracket of a target (R154): the first range selector whose half-open interval holds it. -/
def bracket (target : Nat) : Option Nat :=
  (List.range frsCount).find? fun i => decide (target < frsLimit i ∧ frsLimit (i + 1) ≤ target)

/-- The candidate frequency (R155). -/
def candidate (refclk frs prd fbd : Nat) : Nat := (refclk * (fbd + 1)) / ((prd + 1) <<< frs)

/-- One evaluation of the search (R156): a candidate outside the bracket is discarded, one strictly closer than the
best so far is kept. -/
def evalPair (refclk frs target prd fbd : Nat) (r : Search) : Search :=
  let c := candidate refclk frs prd fbd
  let d := absdiff c target
  let seen := { r with prd := prd, fbd := fbd }
  if c < frsLimit (frs + 1) ∨ frsLimit frs ≤ c then seen
  else if r.found ∧ r.bestDiff ≤ d then seen
  else { prd, fbd, found := true, bestPrd := prd, bestFbd := fbd, bestPll := c, bestDiff := d,
         exact := decide (d = 0) }

/-- The inner loop of R156, with `left` values of `fbd` to go, in ascending order; an exact match ends it. -/
def scanFbd (refclk frs target prd : Nat) : Nat → Search → Search
  | 0, r => r
  | left + 1, r =>
    let r' := evalPair refclk frs target prd (fbdCount - (left + 1)) r
    if r'.exact then r' else scanFbd refclk frs target prd left r'

/-- The outer loop of R156, with `left` values of `prd` to go, in ascending order; an exact match ends both. -/
def scanPrd (refclk frs target : Nat) : Nat → Search → Search
  | 0, r => r
  | left + 1, r =>
    let r' := scanFbd refclk frs target (prdCount - (left + 1)) fbdCount r
    if r'.exact then r' else scanPrd refclk frs target left r'

/-- The search of R156 from its initialisation. -/
def searchPll (refclk frs target : Nat) : Search := scanPrd refclk frs target prdCount Search.start

/-- The first writes of a solve: `VALID <- 0` (R159), then TARGET, saturated (R160). -/
def beginSolve (target : Nat) (s : State) : State :=
  { s with valid := false, target := BitVec.ofNat 32 (min target 0xFFFFFFFF) }

/-- The end of the search: its working state (R58). -/
def recordSearch (r : Search) (s : State) : State := { s with search := r }

/-- The result registers of a successful solve, written together (R158, R159). -/
def commitSolution (frs : Nat) (s : State) : State :=
  { s with fbd := BitVec.ofNat 9 s.search.bestFbd, prd := BitVec.ofNat 4 s.search.bestPrd,
           frs := BitVec.ofNat 2 frs, pllFreq := BitVec.ofNat 32 s.search.bestPll,
           pllBitclk := BitVec.ofNat 32 (s.search.bestPll / 2), pllRefclk := s.acfg.refclk, valid := true }

/-- `Solve(S.acfg)` (R151 to R160), with what follows when it succeeds. The inputs are positive (R150, R183): a
configuration that is not has no solve (log 9). -/
def solve (s : State) (k : State → Result) : Result :=
  if !configOk s.acfg then .refused .configNotLatched
  else
    let target := targetFreq s.acfg
    match bracket target with
    | none => raise .outOfRange (beginSolve target s)
    | some frs =>
      let r := searchPll s.acfg.refclk.toNat frs target
      let s' := recordSearch r (beginSolve target s)
      if r.found then k (commitSolution frs s') else raise .noSolution s'

/-- `hsync` of R171. -/
def hsyncValue (c : DevConfig) (bitclk : Nat) : Nat :=
  ((c.hsw.toNat + c.hbp.toNat) * (bitclk / 4) * c.dsiLanes.toNat) / c.pclk.toNat

/-- `vsync` of R172. -/
def vsyncValue (c : DevConfig) : Nat := c.vsw.toNat + c.vbp.toNat

/-- The writes of `Derive(S.acfg)` (R174). -/
def writeTiming (s : State) : State :=
  { s with timHsync := BitVec.ofNat 32 (hsyncValue s.acfg s.pllBitclk.toNat),
           timVsync := BitVec.ofNat 32 (vsyncValue s.acfg) }

/-- `Derive(S.acfg)` (R174), with what follows. A derivation reached with VALID = 0 is refused (R175); so is one
whose configuration fails R183 (log 9). -/
def derive (s : State) (k : State → Result) : Result :=
  if !s.valid then .refused (.deriveWithoutSolution s.rom s.romStep)
  else if !configOk s.acfg then .refused .configNotLatched
  else k (writeTiming s)

end Sys2Proof.Machine
end

