-- ==== Sys2Proof/Machine/Pll.lean ====
section
/-! DEFINITION. The solver's operations (42_pll_solver.md): U.SOLVE, H.SOLVE. -/

namespace Sys2Proof.Machine

/-- U.SOLVE (R161). -/
def execUSolve (s : State) : Result := solve s fun t => .next (advance t)

/-- The acceptance of H.SOLVE (R162, R181, R183, R184). -/
def acceptHSolve (s : State) : State :=
  if configOk s.cfg then { startOp .solve (latchConfig (beginCommand 0x3 s)) with solveDone := false }
  else refuseCommand .badConfig (beginCommand 0x3 s)

/-- H.SOLVE has solved; its derivation is next (R162, log 7). -/
def markSolved (s : State) : State := { s with solveDone := true }

/-- H.SOLVE (R162): its turns are the acceptance, the solve, and the derivation, which ends it. -/
def execHSolve (s : State) : Result :=
  direct .solve acceptHSolve
    (fun s => if s.solveDone then derive s fun t => .next (finish t) else solve s fun t => .next (markSolved t)) s

end Sys2Proof.Machine
end

