-- ==== Sys2Proof/Machine/RegisterAccess.lean ====
section
/-! DEFINITION. The operations of the register access layer (41_register_access.md): U.WR, U.UPD, H.REGWR, H.REGRD,
H.REGUPD. -/

namespace Sys2Proof.Machine

/-- U.WR (R136): RegWrite(REGMAP[A], src(B)); an index outside the profile is refused (R113). -/
def execUWr (reg : Byte) (value : Src) (s : State) : Result :=
  match regAddr s.build.profile reg, srcValue s value with
  | some a, some v => runAccess (fun _ => regWriteTxs a v) s fun t => .next (advance t)
  | _, _ => .refused (.illFormedMicroOp s.rom s.romStep)

/-- U.UPD (R137): RegUpdate(REGMAP[A], src(B), src(C)); an index outside the profile is refused (R113). -/
def execUUpd (reg : Byte) (mask value : Src) (s : State) : Result :=
  match regAddr s.build.profile reg, srcValue s mask, srcValue s value with
  | some a, some m, some v => runAccess (regUpdateTxs a m v) s fun t => .next (advance t)
  | _, _, _ => .refused (.illFormedMicroOp s.rom s.romStep)

/-- H.REGWR (R138, R181). -/
def execHRegwr (addr : Addr) (s : State) : Result :=
  direct .regwr (fun s => startOp .regwr (latchAccess addr (beginCommand 0x4 s)))
    (fun s => runAccess (fun _ => regWriteTxs s.arg.addr s.arg.data) s fun t => .next (finish t)) s

/-- RD_DATA <- v (R54, R139). -/
def writeRdData (v : Word) (s : State) : State := { s with rdData := v }

/-- H.REGRD (R139, R181). -/
def execHRegrd (addr : Addr) (s : State) : Result :=
  direct .regrd (fun s => startOp .regrd (latchAccess addr (beginCommand 0x5 s)))
    (fun s => runAccess (fun _ => regReadTxs s.arg.addr) s fun t =>
      .next (finish (writeRdData (regReadValue t.arg.addr t.readData) t))) s

/-- H.REGUPD (R140, R181). -/
def execHRegupd (addr : Addr) (s : State) : Result :=
  direct .regupd (fun s => startOp .regupd (latchAccess addr (beginCommand 0x6 s)))
    (fun s => runAccess (regUpdateTxs s.arg.addr s.arg.mask s.arg.data) s fun t => .next (finish t)) s

end Sys2Proof.Machine
end

