-- ==== Sys2Proof/Machine/Sequencer.lean ====
section
/-! DEFINITION. The power-sequencing commands and micro-ops (44_sequencer.md): ENABLE, DISABLE, U.END, U.PHASE,
U.WAIT, U.RSTLINE. -/

namespace Sys2Proof.Machine

/-- ENABLE (R181, R183 to R185): acceptance; the BRINGUP ROM then runs, one micro-op a turn (R186). -/
def execEnable (s : State) : Result :=
  if s.busy then .next (rejectCmd s)
  else if !configOk s.cfg then .next (refuseCommand .badConfig (beginCommand 0x1 s))
  else .next (selectRom .bringup (startOp .enable (latchConfig (beginCommand 0x1 s))))

/-- DISABLE (R181, R188): acceptance in any phase, no configuration; the TEARDOWN ROM then runs. -/
def execDisable (s : State) : Result :=
  if s.busy then .next (rejectCmd s)
  else .next (selectRom .teardown (startOp .disable (beginCommand 0x2 s)))

/-- U.END (R187): BUSY <- 0, S.op <- NONE; STEP keeps the index of this word. -/
def execUEnd (s : State) : Result := .next (finish s)

/-- U.PHASE (R189, R190). -/
def execUPhase (p : Phase) (s : State) : Result := .next (advance (enterPhase p s))

/-- U.WAIT (R191, R193). -/
def execUWait (d : Delay) (s : State) : Result := wait (delayMinUs d) s fun t => .next (advance t)

/-- U.RSTLINE (R194, R228). -/
def execURstline (level : Bool) (s : State) : Result := .next (advance (driveResetLine level s))

end Sys2Proof.Machine
end

