-- ==== Sys2Proof/Machine/ShortCommand.lean ====
section
/-! DEFINITION. The short-packet operations (45_short_command.md): U.SHORT, H.SHORT. -/

namespace Sys2Proof.Machine

/-- U.SHORT (R214). -/
def execUShort (commandId param0 param1 : Byte) (s : State) : Result :=
  sendShort commandId param0 param1 s fun t => .next (advance t)

/-- H.SHORT (R215, R181). -/
def execHShort (commandId param0 param1 : Byte) (s : State) : Result :=
  direct .short (fun s => startOp .short (latchShort commandId param0 param1 (beginCommand 0x7 s)))
    (fun s => sendShort s.arg.commandId s.arg.param0 s.arg.param1 s fun t => .next (finish t)) s

end Sys2Proof.Machine
end

