-- ==== Sys2Proof/Machine/Timing.lean ====
section
/-! DEFINITION. The timing-counter derivation (43_timing_derivation.md): U.DERIVE. -/

namespace Sys2Proof.Machine

/-- U.DERIVE (R174). -/
def execUDerive (s : State) : Result := derive s fun t => .next (advance t)

end Sys2Proof.Machine
end

