-- ==== Sys2Proof/Machine/Dispatch.lean ====
section
/-! DEFINITION. One turn of the machine at an instruction: one arm per row of spec/opcode_table.json. -/

namespace Sys2Proof.Machine

def exec (i : Instr) (s : State) : Host.Outcome State Fault Refusal :=
  match i with
  | .enable => Sys2Proof.Machine.execEnable s
  | .disable => Sys2Proof.Machine.execDisable s
  | .hSolve => Sys2Proof.Machine.execHSolve s
  | .hRegwr addr => Sys2Proof.Machine.execHRegwr addr s
  | .hRegrd addr => Sys2Proof.Machine.execHRegrd addr s
  | .hRegupd addr => Sys2Proof.Machine.execHRegupd addr s
  | .hShort commandId param0 param1 => Sys2Proof.Machine.execHShort commandId param0 param1 s
  | .uEnd => Sys2Proof.Machine.execUEnd s
  | .uPhase phase => Sys2Proof.Machine.execUPhase phase s
  | .uWr reg value => Sys2Proof.Machine.execUWr reg value s
  | .uUpd reg mask value => Sys2Proof.Machine.execUUpd reg mask value s
  | .uWait delay => Sys2Proof.Machine.execUWait delay s
  | .uSolve => Sys2Proof.Machine.execUSolve s
  | .uDerive => Sys2Proof.Machine.execUDerive s
  | .uShort commandId param0 param1 => Sys2Proof.Machine.execUShort commandId param0 param1 s
  | .uRstline level => Sys2Proof.Machine.execURstline level s

end Sys2Proof.Machine
end

