-- ==== Sys2Proof/Machine/Flags.lean ====
section
/-! DEFINITION. The codes and fields the host reads: STATUS (10_state.md R40), PLL_RES (R48), the CFG registers
(R32 to R36) and the window as a whole (R31). -/

namespace Sys2Proof.Machine

/-- Error codes (R111). -/
def errCode : ErrKind → BitVec 4
  | .none => 0
  | .outOfRange => 1
  | .noSolution => 2
  | .busError => 3
  | .badConfig => 4
  | .illegalCommand => 5

/-- STATUS.RSTLINE: the reset-line level, 0 always without a reset line (R47). -/
def rstlineBit (s : State) : Bool := s.build.hasResetLine && s.rstline

/-- STATUS (R40), from bit 31 down: reserved, RSTLINE, REJECT, STEP, LASTOP, PHASE, ERR, reserved, BUSY. -/
def statusWord (s : State) : Word :=
  0#6 ++ BitVec.ofBool (rstlineBit s) ++ BitVec.ofBool s.reject ++ s.statStep ++ s.lastop ++ phaseCode s.phase
    ++ errCode s.err ++ 0#3 ++ BitVec.ofBool s.busy

/-- PLL_RES (R48), from bit 31 down: VALID, reserved, FRS, PRD, reserved, FBD. -/
def pllResWord (s : State) : Word :=
  BitVec.ofBool s.valid ++ 0#13 ++ s.frs ++ s.prd ++ 0#3 ++ s.fbd

/-- CFG_LANES (R34): reserved, DSI_LANES, DPI_LANES. -/
def cfgLanesWord (c : DevConfig) : Word := 0#16 ++ c.dsiLanes ++ c.dpiLanes

/-- CFG_H (R35): HBP, HSW. -/
def cfgHWord (c : DevConfig) : Word := c.hbp ++ c.hsw

/-- CFG_V (R36): VBP, VSW. -/
def cfgVWord (c : DevConfig) : Word := c.vbp ++ c.vsw

/-- The value a host read of a window register gives, by word offset (R31); CMD reads 0 (R37), reserved offsets read
0 (R55). -/
def windowRead (s : State) (offset : Byte) : Word :=
  match offset.toNat with
  | 0x00 => s.cfg.pclk
  | 0x04 => s.cfg.refclk
  | 0x08 => cfgLanesWord s.cfg
  | 0x0C => cfgHWord s.cfg
  | 0x10 => cfgVWord s.cfg
  | 0x18 => s.argData
  | 0x1C => s.argMask
  | 0x20 => statusWord s
  | 0x24 => pllResWord s
  | 0x28 => s.pllFreq
  | 0x2C => s.pllBitclk
  | 0x30 => s.target
  | 0x34 => s.timHsync
  | 0x38 => s.timVsync
  | 0x3C => s.rdData
  | _ => 0

end Sys2Proof.Machine
end

