-- ==== Sys2Proof/Machine/Environment.lean ====
section
/-! DEFINITION. The agents' moves: the host's window accesses (10_state.md R31, R37, R40, R55; 20_memory.md R78, R89;
44_sequencer.md R181), the Engine's turn (R186), and the other inputs (00_scope.md R6). -/

namespace Sys2Proof.Machine

/-! ## The host window -/

/-- A host write of a word to CMD (R181, R182, R226, R230). -/
def onCmdWrite (w : Word) (s : State) : Result :=
  if s.busy then .next (rejectCmd s)
  else match decodeHost w with
    | .error _ => .next (refuseCommand .illegalCommand (beginCommand (hostOp w) s))
    | .ok i => exec i s

/-- A host write to STATUS: bit 24 = 1 clears REJECT, every other bit is ignored (R40, R46). -/
def writeStatus (w : Word) (s : State) : State := { s with reject := s.reject && !w.getLsbD 24 }

/-- A host write of a whole word at a word offset (R31 to R40); RO registers and reserved offsets ignore it (R55). -/
def windowWrite (offset : Byte) (w : Word) (s : State) : Result :=
  match offset.toNat with
  | 0x00 => .next { s with cfg := { s.cfg with pclk := w } }
  | 0x04 => .next { s with cfg := { s.cfg with refclk := w } }
  | 0x08 => .next { s with cfg := { s.cfg with dpiLanes := w.extractLsb' 0 8, dsiLanes := w.extractLsb' 8 8 } }
  | 0x0C => .next { s with cfg := { s.cfg with hsw := w.extractLsb' 0 16, hbp := w.extractLsb' 16 16 } }
  | 0x10 => .next { s with cfg := { s.cfg with vsw := w.extractLsb' 0 16, vbp := w.extractLsb' 16 16 } }
  | 0x14 => onCmdWrite w s
  | 0x18 => .next { s with argData := w }
  | 0x1C => .next { s with argMask := w }
  | 0x20 => .next (writeStatus w s)
  | _ => .next s

/-- Only 32-bit accesses at a multiple of 4 are admitted (R78). -/
def accessOk (offset : Byte) (bytes : Nat) : Bool := bytes == 4 && offset.toNat % 4 == 0

/-- The window's response to the host (R78, log 15). -/
def respond (r : HostReply) (s : State) : State := { s with reply := some r }

/-- A host access to the window (R78, R89): a refused one is answered with an error and changes nothing else. -/
def hostAccess : HostAccess → State → Result
  | .read offset bytes, s =>
    if accessOk offset bytes then .next (respond (.data (windowRead s offset)) s) else .next (respond .error s)
  | .write offset bytes w, s =>
    if accessOk offset bytes then windowWrite offset w (respond .done s) else .next (respond .error s)

/-! ## The Engine -/

/-- The word at S.step of S.rom: a micro-op fetch (R70, R186). -/
def fetchWord (s : State) : Option Word :=
  match s.rom with
  | none => none
  | some r => (romWords s.build r)[s.romStep.toNat]?

/-- STATUS.STEP mirrors S.step at the fetch (R186). -/
def mirrorStep (s : State) : State := { s with statStep := s.romStep }

/-- One turn of the ROM interpreter (R186); a word that is no micro-op is refused by ROM and index (R113). -/
def romTurn (s : State) : Result :=
  match fetchWord s with
  | none => .fault (.fetchOutsideRom s.rom s.romStep)
  | some w =>
    match decodeUop w with
    | .error _ => .refused (.illFormedMicroOp s.rom s.romStep)
    | .ok i => exec i (mirrorStep s)

/-- One turn of the Engine: idle it does nothing (R180, R239); else it goes on with the running operation. -/
def engineTurn (s : State) : Result :=
  if !s.busy then .next s
  else match s.op with
    | .none => .next s
    | .enable | .disable => romTurn s
    | .solve => exec .hSolve s
    | .regwr => exec (.hRegwr s.arg.addr) s
    | .regrd => exec (.hRegrd s.arg.addr) s
    | .regupd => exec (.hRegupd s.arg.addr) s
    | .short => exec (.hShort s.arg.commandId s.arg.param0 s.arg.param1) s

/-! ## The other agents -/

/-- The transport answers the outstanding transaction, once (R80 to R83), which is when the observation sees it (log 16);
no other answer is noticed (R251, log 3). -/
def deliverAnswer (a : Answer) (s : State) : State :=
  match s.bus with
  | .pending _ => receive a s
  | .idle => s

/-- The timebase advances (R6, R262). -/
def elapse (us : Nat) (s : State) : State := { s with now := s.now + us }

/-- One move of the agent that an input names (R6). -/
def applyInput : Input → State → Result
  | .engine, s => engineTurn s
  | .host a, s => hostAccess a s
  | .answer a, s => .next (deliverAnswer a s)
  | .elapse us, s => .next (elapse us s)
  | .blockReset, s => .next (blockReset s)

/-- The next input is taken from the list. -/
def dropInput (s : State) : State := { s with inputs := s.inputs.tail }

/-! ## Placing an instruction -/

/-- A host write of a word to CMD is the next thing that happens, the Engine idle (R253). -/
def placeCommand (w : Word) (s : State) : State :=
  { s with busy := false, op := .none, bus := .idle, response := none, inputs := .host (.write 0x14 4 w) :: s.inputs }

/-- ENABLE is running at index 0 of a BRINGUP ROM whose first word is `w`, and the Engine moves next (R253). -/
def placeMicroOp (w : Word) (s : State) : State :=
  { s with build := { s.build with bringup := w :: s.build.bringup.tail }, busy := true, op := .enable,
           rom := some .bringup, romStep := 0, bus := .idle, response := none, waiting := false,
           inputs := .engine :: s.inputs }

/-- A profile whose REGMAP and LIT have room for every index of the micro-op (R109, R107, R113); profile T keeps its
own for the indices it has. -/
def roomFor (i : Instr) (p : Profile) : Profile :=
  if i.wf p then p
  else { p with regmap := p.regmap ++ List.replicate (256 - p.regmap.length) 0,
                lit := p.lit ++ List.replicate (128 - p.lit.length) 0 }

/-- The DBBE built with that profile. -/
def placeProfile (i : Instr) (s : State) : State :=
  { s with build := { s.build with profile := roomFor i s.build.profile } }

/-- Configuration C0 of 95_test_vectors.md. -/
def configC0 : DevConfig := ⟨154900000, 38725000, 24, 4, 20, 40, 5, 15⟩

/-- An ENABLE or H.SOLVE starts only with a configuration in CFG_* that passes the check of R183 (R254). -/
def placeCfg (s : State) : State := { s with cfg := configC0 }

/-- A U.SOLVE needs a latched configuration that passed the check of R183. -/
def placeConfig (s : State) : State := { s with acfg := configC0 }

/-- A U.DERIVE also needs the solution of that configuration (R170, R175): W1 of 95_test_vectors.md. -/
def placeSolution (s : State) : State :=
  { s with fbd := 23, prd := 0, frs := 0, pllFreq := 929400000, pllBitclk := 464700000, pllRefclk := 38725000,
           valid := true }

/-- The word of a table row placed where the next step takes it, with what its instruction needs to run (log 12). -/
def placeWord (w : Word) (s : State) : State :=
  if hostOp w = 0 then
    match decodeUop w with
    | .ok .uSolve => placeConfig (placeMicroOp w s)
    | .ok .uDerive => placeSolution (placeConfig (placeMicroOp w s))
    | .ok i => placeMicroOp w (placeProfile i s)
    | .error _ => placeMicroOp w s
  else
    match decodeHost w with
    | .ok .enable => placeCfg (placeCommand w s)
    | .ok .hSolve => placeCfg (placeCommand w s)
    | _ => placeCommand w s

end Sys2Proof.Machine
end

