-- ==== Sys2Proof/Machine/Step.lean ====
section
/-! DEFINITION. One step of the machine and its environment (00_scope.md R6): the next input decides which agent
moves, and with no input left it is the Engine's turn (log 2). -/

namespace Sys2Proof.Machine

/-- One step. -/
def step (s : State) : Host.Outcome State Fault Refusal :=
  match s.inputs with
  | [] => engineTurn s
  | i :: _ => applyInput i (dropInput s)

/-- `s` with the instruction of a table row, low `nbits` bits of `w`, where the next step takes it (log 12). -/
def State.withFetchWord (s : State) (nbits w : Nat) : State := placeWord (BitVec.ofNat 32 (w % 2 ^ nbits)) s

end Sys2Proof.Machine
end

