-- ==== Sys2Proof/Safety.lean ====
section
/-! DEFINITION. What a well-behaved DBBE is, in the terms the claims use: the invariants that every step keeps, and
the readings of the observation (00_scope.md R18). -/

namespace Sys2Proof.Machine

/-! ## The running instruction -/

/-- A schedule ROM is running (R186). -/
def romRunning (s : State) : Prop := s.op = .enable ∨ s.op = .disable

/-- The instruction that the Engine's next turn goes on with. -/
def currentInstr (s : State) : Option Instr :=
  match s.op with
  | .none => none
  | .enable | .disable => (fetchWord s).bind fun w => (decodeUop w).toOption
  | .solve => some .hSolve
  | .regwr => some (.hRegwr s.arg.addr)
  | .regrd => some (.hRegrd s.arg.addr)
  | .regupd => some (.hRegupd s.arg.addr)
  | .short => some (.hShort s.arg.commandId s.arg.param0 s.arg.param1)

/-- The register access an instruction makes in a state, if it makes one (R131 to R140, R212). -/
def accessOf (s : State) : Instr → Option Access
  | .hRegwr _ => some fun _ => regWriteTxs s.arg.addr s.arg.data
  | .hRegrd _ => some fun _ => regReadTxs s.arg.addr
  | .hRegupd _ => some (regUpdateTxs s.arg.addr s.arg.mask s.arg.data)
  | .hShort _ _ _ => (shortAddrs s.build.profile).map fun a _ =>
      sendShortTxs s.build.profile a s.arg.commandId s.arg.param0 s.arg.param1
  | .uShort cid p0 p1 => (shortAddrs s.build.profile).map fun a _ => sendShortTxs s.build.profile a cid p0 p1
  | .uWr reg value =>
    match regAddr s.build.profile reg, srcValue s value with
    | some a, some v => some fun _ => regWriteTxs a v
    | _, _ => none
  | .uUpd reg mask value =>
    match regAddr s.build.profile reg, srcValue s mask, srcValue s value with
    | some a, some m, some v => some (regUpdateTxs a m v)
    | _, _, _ => none
  | .enable | .disable | .hSolve => none
  | .uEnd | .uPhase _ | .uWait _ | .uSolve | .uDerive | .uRstline _ => none

/-- Whether a source id is admitted by a profile (R107, R113). -/
def sourceInside (p : Profile) (id : Byte) : Prop :=
  (id.toNat < 0x80 ∧ id.toNat < p.lit.length) ∨ (0x80 ≤ id.toNat ∧ id.toNat ≤ 0x85)

/-! ## Invariants -/

/-- The control state is consistent: BUSY says whether an operation runs (R41, R180), the ROM is that of the
operation (R181), STATUS.STEP mirrors S.step while a ROM runs (R57), the latched configuration passed the check
(R183, R184), the reset line exists if it is asserted (R61), and H.SOLVE derives only after its solve (R162). -/
structure ControlInv (s : State) : Prop where
  busy_iff : s.busy = true ↔ s.op ≠ .none
  enable_rom : s.op = .enable → s.rom = some .bringup
  disable_rom : s.op = .disable → s.rom = some .teardown
  step_mirror : romRunning s → s.statStep = s.romStep
  config_ok : s.op = .enable ∨ s.op = .solve → configOk s.acfg = true
  line_exists : s.rstline = true → s.build.hasResetLine = true
  solved : s.op = .solve → s.solveDone = true → s.valid = true

/-- The transaction at S.sub of the running instruction's access is `t` (R59). -/
def currentTx (s : State) (t : Tx) : Prop :=
  ∃ i access, currentInstr s = some i ∧ accessOf s i = some access ∧ txAt access s = some t

/-- The outstanding transaction is the one at S.sub of the running instruction's access (R59, R83); a response waits on
the bus port only for such a transaction and only while none is outstanding (R80, R83); and a running wait is that of
the U.WAIT at S.step (R60). -/
structure AccessInv (s : State) : Prop where
  pending : ∀ t, s.bus = .pending t → s.response = none ∧ currentTx s t
  answered : ∀ a, s.response = some a → ∃ t, currentTx s t
  waiting : s.waiting = true → ∃ d, currentInstr s = some (.uWait d)

/-- The invariant of the PLL Solution (R62). -/
def PllInv (s : State) : Prop :=
  s.valid = true →
    s.fbd.toNat ≤ 511 ∧ s.prd.toNat ≤ 15 ∧ s.frs.toNat ≤ 3 ∧
    s.pllFreq.toNat = (s.pllRefclk.toNat * (s.fbd.toNat + 1)) / ((s.prd.toNat + 1) <<< s.frs.toNat) ∧
    frsLimit (s.frs.toNat + 1) ≤ s.pllFreq.toNat ∧ s.pllFreq.toNat < frsLimit s.frs.toNat ∧
    s.pllBitclk.toNat = s.pllFreq.toNat / 2

/-- In a DBBE built from a well-formed profile, S.step stays inside the running ROM (R186), and past the bring-up's
U.SOLVE (index 4 of R196) the solution is valid (R201 item 6). -/
structure RomInv (s : State) : Prop where
  build_wf : buildWf s.build = true
  in_rom : ∀ r, romRunning s → s.rom = some r → s.romStep.toNat < (romWords s.build r).length
  solved : s.op = .enable → 4 < s.romStep.toNat → s.valid = true

/-! ## The observation -/

/-- The time of an event of the observation. -/
def entryTime : LogEntry → Nat
  | .issue _ time | .answer _ time | .resetLine _ time | .blockReset time => time

/-- The bus port as the observation shows it after one more event; `none` once an event could not follow the ones
before it: an issue while a transaction is outstanding, or an answer to none (R83). -/
def busAfter (b : Option BusState) (e : LogEntry) : Option BusState :=
  match b, e with
  | some .idle, .issue t _ => some (.pending t)
  | some (.pending _), .answer _ _ => some .idle
  | some _, .blockReset _ => some .idle
  | b, .resetLine _ _ => b
  | _, _ => none

/-- The bus port as the whole observation shows it. -/
def busOfLog (log : List LogEntry) : Option BusState := log.foldl busAfter (some .idle)

/-- The observation is legal (at most one transaction outstanding, every answer answers one: R83), ends in the bus
port's state, and lies in the past. -/
structure LogInv (s : State) : Prop where
  bus : busOfLog s.log = some s.bus
  past : ∀ e ∈ s.log, entryTime e ≤ s.now

/-- Every bus answer observed so far came no later than `time`. -/
def answeredBy (log : List LogEntry) (time : Nat) : Prop := ∀ a t, LogEntry.answer a t ∈ log → t ≤ time

/-- Where the micro-op before S.step is a U.WAIT and its successor has issued nothing yet (no transaction is
outstanding and no response waits), its minimum has passed since the last bus answer; while a U.WAIT runs, no answer
is later than its start (R191, R193). -/
structure WaitInv (s : State) : Prop where
  started : s.waiting = true → s.bus = .idle ∧ s.waitStart ≤ s.now ∧ answeredBy s.log s.waitStart
  settled : ∀ r d k, romRunning s → s.rom = some r → s.bus = .idle → s.response = none →
    s.romStep.toNat = k + 1 → (romWords s.build r)[k]? = some (encode (.uWait d)) → delayMinUs d ≤ s.now ∧
    answeredBy s.log (s.now - delayMinUs d)

/-- The events of transactions answered OK one after the other at one time, reads with the given data, a write's
answer with whatever the transport put there. -/
def okEvents (time : Nat) : List (Tx × Half) → List LogEntry
  | [] => []
  | (t, d) :: rest => .issue t time :: .answer (.ok d) time :: okEvents time rest

/-- The data that the reads among answered transactions gave (R132, R133). -/
def readsGiven : List (Tx × Half) → List Half
  | [] => []
  | (.read _, d) :: rest => d :: readsGiven rest
  | (.write _ _, _) :: rest => readsGiven rest

/-! ## Environments that let an operation get on (log 2) -/

/-- The moves of an access whose next transactions are answered OK with these data and nothing in between: each time
the Engine's turn that issues one, and its answer. -/
def okTurns : List Half → List Input
  | [] => []
  | d :: rest => .engine :: .answer (.ok d) :: okTurns rest

/-- The move of an environment that holds nothing up: an outstanding transaction is answered OK with the data `d`,
time passes while a U.WAIT has not had its minimum, and else it is the Engine's turn. -/
def helpfulMove (d : Half) (s : State) : Input :=
  match s.bus with
  | .pending _ => .answer (.ok d)
  | .idle => if s.waiting ∧ s.now < s.waitStart + frameWaitMinUs then .elapse frameWaitMinUs else .engine

/-- The steps of such an environment, one for each of the given data, up to the first stop. -/
def helped : List Half → State → Result
  | [], s => .next s
  | d :: ds, s =>
    match step { s with inputs := [helpfulMove d s] } with
    | .next t => helped ds t
    | .fault e => .fault e
    | .refused e => .refused e

end Sys2Proof.Machine
end

