-- ==== Sys2Proof/Certificates/Slice0/Obligations.lean ====
section
/-! DEFINITION. The statements for the provers. Each docstring names the rule of spec/ it formalises, or the log entry
it rests on. -/

open Sys2Proof Sys2Proof.Machine

/-! ## Encoding -/

/-- R101, R102, R118: a host command's word decodes to it, with every operand at every value. -/
def Obligations.HostWordsDecodeToTheirCommand : Prop :=
  ∀ i : Instr, i.isHost = true → decodeHost (encode i) = .ok i ∧ decodeTableWord 32 (encode i).toNat = some i

/-- R104 to R107, R118: a micro-op's word decodes to it, with every operand at every value. -/
def Obligations.MicroOpWordsDecodeToTheirMicroOp : Prop :=
  ∀ i : Instr, i.isHost = false → decodeUop (encode i) = .ok i ∧ decodeTableWord 32 (encode i).toNat = some i

/-- R102, R105, R112, R113: only one word stands for an instruction, and the two kinds of word do not overlap. -/
def Obligations.EveryDecodedWordIsItsEncoding : Prop :=
  ∀ (w : Word) (i : Instr),
    (decodeHost w = .ok i → i.isHost = true ∧ encode i = w) ∧
    (decodeUop w = .ok i → i.isHost = false ∧ encode i = w)

/-- R117, 95_test_vectors.md section 9, R203: words written out from the encoding. -/
def Obligations.SampleWordsDecode : Prop :=
  decodeHost 0x00000001 = .ok .enable ∧ decodeHost 0x03000004 = .ok (.hRegwr 0x0300) ∧
  decodeHost 0x00110507 = .ok (.hShort 0x05 0x11 0x00) ∧ decodeUop 0x31610800 = .ok (.uUpd 22 (.lit 16) .zero) ∧
  decodeUop 0x20282000 = .ok (.uWr 2 .pllctlNoclk) ∧ decodeUop 0x40100000 = .ok (.uWait .frame) ∧
  decodeUop 0x10A00000 = .ok (.uPhase .pointerReset) ∧ decodeUop 0x80100000 = .ok (.uRstline true)

/-- R112: which words are illegal, and what a host write of one to CMD does, idle and busy (besides the window's
response, log 15). -/
def Obligations.IllegalCommandWords : Prop :=
  (∀ w : Word, (∃ e, decodeHost w = .error e) ↔
    (w.extractLsb' 0 4).toNat = 0 ∨ 8 ≤ (w.extractLsb' 0 4).toNat ∨
    ((w.extractLsb' 0 4).toNat ≤ 3 ∧ w.extractLsb' 4 28 ≠ 0) ∨
    (4 ≤ (w.extractLsb' 0 4).toNat ∧ (w.extractLsb' 0 4).toNat ≤ 6 ∧ w.extractLsb' 4 12 ≠ 0) ∨
    ((w.extractLsb' 0 4).toNat = 7 ∧ w.extractLsb' 4 4 ≠ 0)) ∧
  (∀ (s : State) (w : Word) (e : DecodeError), decodeHost w = .error e → s.busy = false →
    ∃ reply, hostAccess (.write 0x14 4 w) s = .next { s with
      reply := reply, err := .illegalCommand, lastop := w.extractLsb' 0 4, statStep := 0 }) ∧
  (∀ (s : State) (w : Word), s.busy = true →
    ∃ reply, hostAccess (.write 0x14 4 w) s = .next { s with reply := reply, reject := true })

/-- R113: which words are well-formed micro-ops of a profile; a U.WR or U.UPD whose index lies outside the profile is
refused by ROM and index. -/
def Obligations.WellFormedMicroOpWords : Prop :=
  (∀ (p : Profile) (w : Word), wordOk p w = true ↔
    w.extractLsb' 0 4 = 0 ∧
    let op := (w.extractLsb' 28 4).toNat
    let a := w.extractLsb' 20 8
    let b := w.extractLsb' 12 8
    let c := w.extractLsb' 4 8
    ((op = 0 ∨ op = 5 ∨ op = 6) ∧ a = 0 ∧ b = 0 ∧ c = 0) ∨
    (op = 1 ∧ a.toNat ≤ 10 ∧ b = 0 ∧ c = 0) ∨
    (op = 2 ∧ a.toNat < p.regmap.length ∧ sourceInside p b ∧ c = 0) ∨
    (op = 3 ∧ a.toNat < p.regmap.length ∧ sourceInside p b ∧ sourceInside p c) ∨
    (op = 4 ∧ a.toNat ≤ 1 ∧ b = 0 ∧ c = 0) ∨
    op = 7 ∨
    (op = 8 ∧ a.toNat ≤ 1 ∧ b = 0 ∧ c = 0)) ∧
  ∀ (s : State) (reg : Byte) (m v : Src),
    ((Instr.uWr reg v).wf s.build.profile = false →
      exec (.uWr reg v) s = .refused (.illFormedMicroOp s.rom s.romStep)) ∧
    ((Instr.uUpd reg m v).wf s.build.profile = false →
      exec (.uUpd reg m v) s = .refused (.illFormedMicroOp s.rom s.romStep))

/-- R201: exactly the profiles that meet items 1 to 4 (and the list bounds of R200), with a positive clock, build, and
their ROMs are the expanded templates: items 5 and 6 hold of every such profile. -/
def Obligations.EveryAdmissibleProfileBuilds : Prop :=
  ∀ (p : Profile) (hasResetLine : Bool) (clkHz : Nat) (b : Build),
    buildOf p hasResetLine clkHz = .ok b ↔
      (p.regmap.length ≤ 256 ∧ p.lit.length ≤ 128 ∧ rolesOk p = true ∧ frameBitsOk p = true ∧
        nonZeroBitsOk p = true ∧ 28 + p.phyLanes.length + p.timingFixed.length ≤ 256 ∧ 0 < clkHz) ∧
      b = ⟨p, hasResetLine, clkHz, bringupRom p, teardownRom p⟩

/-- R203, R204: the schedule ROMs of profile T, word for word. -/
def Obligations.RomsOfProfileT : Prop :=
  bringupRom profileT =
    [0x80000000, 0x20000000, 0x20001000, 0x10100000, 0x50000000, 0x20181000, 0x20282000, 0x40000000, 0x20283000,
     0x10200000, 0x20302000, 0x20402000, 0x20502000, 0x20602000, 0x20702000, 0x10300000, 0x60000000, 0x20803000,
     0x20904000, 0x20A05000, 0x20B06000, 0x20C07000, 0x20D08000, 0x20E09000, 0x20F84000, 0x21085000, 0x2110A000,
     0x2120B000, 0x2130C000, 0x2130D000, 0x10400000, 0x70511000, 0x10500000, 0x2140E000, 0x2150F000, 0x10600000,
     0x31610800, 0x31713130, 0x10700000, 0x00000000] ∧
  teardownRom profileT =
    [0x31611110, 0x10800000, 0x40100000, 0x31713800, 0x10900000, 0x31612120, 0x10A00000, 0x80100000, 0x10000000,
     0x00000000]

/-! ## Operands -/

/-- R130: the halves codec, both ways. -/
def Obligations.HalvesCodecRoundTrips : Prop :=
  (∀ v : Word, (split32 v).1 = v.extractLsb' 0 16 ∧ (split32 v).2 = v.extractLsb' 16 16 ∧
    join32 (split32 v).1 (split32 v).2 = v) ∧
  (∀ lo hi : Half, split32 (join32 lo hi) = (lo, hi) ∧ (join32 lo hi).toNat = lo.toNat + 65536 * hi.toNat)

/-- R72, R75: the width class, and that no W32 access wraps: its second address is at most 0x0601. -/
def Obligations.WidthClassesAndNoWrap : Prop :=
  ∀ a : Addr,
    (widthClass a = .w16 ↔ a.toNat < 0x100 ∨ 0x600 ≤ a.toNat) ∧
    (widthClass a = .w32 ↔ 0x100 ≤ a.toNat ∧ a.toNat ≤ 0x5FF) ∧
    (widthClass a = .w32 → (a + 2).toNat = a.toNat + 2 ∧ (a + 2).toNat ≤ 0x601)

/-- R107, R200: the value of every source; the PLL words are the low 32 bits of the exact fields. -/
def Obligations.SourceValues : Prop :=
  ∀ s : State, let p := s.build.profile
    (∀ i : BitVec 7, srcValue s (.lit i) = p.lit[i.toNat]?) ∧
    srcValue s .zero = some 0 ∧
    srcValue s .plldiv = some (BitVec.ofNat 32
      ((s.prd.toNat <<< p.prdShift.val) ||| (s.fbd.toNat <<< p.fbdShift.val))) ∧
    srcValue s .pllctlNoclk = some (BitVec.ofNat 32 ((s.frs.toNat <<< p.frsShift.val) ||| p.pllctlBase.toNat)) ∧
    srcValue s .pllctlClk = some (BitVec.ofNat 32
      ((s.frs.toNat <<< p.frsShift.val) ||| p.pllctlBase.toNat ||| p.pllctlCken.toNat)) ∧
    srcValue s .hsync = some s.timHsync ∧ srcValue s .vsync = some s.timVsync

/-- R133, R134: an update changes exactly the bits inside the mask; of a W16 register's mask and value only bits
[15:0] count, and a mask of 0 changes nothing. -/
def Obligations.UpdateChangesMaskedBitsOnly : Prop :=
  ∀ (a : Addr) (m v old : Word),
    ((0x100 ≤ a.toNat ∧ a.toNat < 0x600) → ∀ i, i < 32 →
      (updatedValue a m v old).getLsbD i = if m.getLsbD i then v.getLsbD i else old.getLsbD i) ∧
    ((a.toNat < 0x100 ∨ 0x600 ≤ a.toNat) → ∀ i, i < 32 →
      (updatedValue a m v old).getLsbD i = if i < 16 ∧ m.getLsbD i then v.getLsbD i else old.getLsbD i) ∧
    updatedValue a 0 v old = old

/-! ## Solver -/

/-- R154: the bracket test: bracket `i` is the half-open interval below `FRS_LIMIT[i]`; a target outside all four has
none, and its solve raises OUT_OF_RANGE. -/
def Obligations.BracketSelection : Prop :=
  (∀ t i, bracket t = some i ↔ i < 4 ∧ t < frsLimit i ∧ frsLimit (i + 1) ≤ t) ∧
  (∀ t, bracket t = none ↔ t < 62500000 ∨ 1000000000 ≤ t) ∧
  (∀ t, bracket t = some 0 ↔ 500000000 ≤ t ∧ t < 1000000000) ∧
  (∀ t, bracket t = some 1 ↔ 250000000 ≤ t ∧ t < 500000000) ∧
  (∀ t, bracket t = some 2 ↔ 125000000 ≤ t ∧ t < 250000000) ∧
  (∀ t, bracket t = some 3 ↔ 62500000 ≤ t ∧ t < 125000000) ∧
  ∀ (s : State) (i : Instr), configOk s.acfg = true → bracket (targetFreq s.acfg) = none →
    i = .uSolve ∨ (i = .hSolve ∧ s.busy = true ∧ s.op = .solve ∧ s.solveDone = false) →
    ∃ t, exec i s = .next t ∧ t.err = .outOfRange ∧ t.busy = false ∧ t.op = .none

/-- R156: the candidate found is in the bracket, none in the bracket is closer to the target, and every one met
earlier in loop order is strictly further away. -/
def Obligations.SearchKeepsFirstOfTheClosest : Prop :=
  ∀ refclk frs target, let r := searchPll refclk frs target
    r.found = true →
      r.bestPrd < 16 ∧ r.bestFbd < 512 ∧ r.bestPll = candidate refclk frs r.bestPrd r.bestFbd ∧
      frsLimit (frs + 1) ≤ r.bestPll ∧ r.bestPll < frsLimit frs ∧ r.bestDiff = absdiff r.bestPll target ∧
      ∀ prd fbd, prd < 16 → fbd < 512 →
        frsLimit (frs + 1) ≤ candidate refclk frs prd fbd → candidate refclk frs prd fbd < frsLimit frs →
        r.bestDiff ≤ absdiff (candidate refclk frs prd fbd) target ∧
        (prd < r.bestPrd ∨ (prd = r.bestPrd ∧ fbd < r.bestFbd) →
          r.bestDiff < absdiff (candidate refclk frs prd fbd) target)

/-- R157: NO_SOLUTION is raised, in an ENABLE or in an H.SOLVE, exactly when a bracket was selected and no pair gives a
candidate inside it. -/
def Obligations.NoSolutionExactly : Prop :=
  ∀ (s : State) (i : Instr), s.busy = true → configOk s.acfg = true →
    i = .uSolve ∨ (i = .hSolve ∧ s.op = .solve ∧ s.solveDone = false) →
    ((∃ t, exec i s = .next t ∧ t.busy = false ∧ t.err = .noSolution) ↔
      ∃ frs, bracket (targetFreq s.acfg) = some frs ∧ ∀ prd fbd, prd < 16 → fbd < 512 →
        candidate s.acfg.refclk.toNat frs prd fbd < frsLimit (frs + 1) ∨
        frsLimit frs ≤ candidate s.acfg.refclk.toNat frs prd fbd)

/-- R151 to R160, R161: a U.SOLVE that finds a solution writes all result registers of the solve in one step and goes
on with the next micro-op; nothing else changes. `search`, `pllRefclk` and STATUS.STEP's moment: log 8, 13, 14. -/
def Obligations.USolveWritesTheSolution : Prop :=
  ∀ (s : State) (frs : Nat), configOk s.acfg = true →
    let target := (s.acfg.pclk.toNat * s.acfg.dpiLanes.toNat) / (8 * s.acfg.dsiLanes.toNat) * 8
    bracket target = some frs →
    let r := searchPll s.acfg.refclk.toNat frs target
    r.found = true →
    exec .uSolve s = .next { s with
      valid := true, target := BitVec.ofNat 32 (min target 0xFFFFFFFF), search := r,
      fbd := BitVec.ofNat 9 r.bestFbd, prd := BitVec.ofNat 4 r.bestPrd, frs := BitVec.ofNat 2 frs,
      pllFreq := BitVec.ofNat 32 r.bestPll, pllBitclk := BitVec.ofNat 32 (r.bestPll / 2),
      pllRefclk := s.acfg.refclk, romStep := s.romStep + 1, statStep := s.romStep + 1 }

/-- R157, R159, R160, R162, R221, R222, R224: a solve that fails, in an ENABLE or in an H.SOLVE, clears VALID, writes
TARGET, keeps the old result fields and ends the operation with its error. `search` and `solveDone`: log 7, 8. -/
def Obligations.SolveFailureAborts : Prop :=
  ∀ (s : State) (i : Instr), configOk s.acfg = true →
    i = .uSolve ∨ (i = .hSolve ∧ s.busy = true ∧ s.op = .solve ∧ s.solveDone = false) →
    (targetFreq s.acfg < 62500000 ∨ 1000000000 ≤ targetFreq s.acfg →
      exec i s = .next { s with
        valid := false, target := BitVec.ofNat 32 (min (targetFreq s.acfg) 0xFFFFFFFF), err := .outOfRange,
        busy := false, op := .none, bus := .idle }) ∧
    (∀ frs, bracket (targetFreq s.acfg) = some frs →
      let r := searchPll s.acfg.refclk.toNat frs (targetFreq s.acfg)
      r.found = false →
      exec i s = .next { s with
        valid := false, target := BitVec.ofNat 32 (min (targetFreq s.acfg) 0xFFFFFFFF), search := r,
        err := .noSolution, busy := false, op := .none, bus := .idle })

/-- R163: the result of a solve is a function of the four configuration fields alone. -/
def Obligations.SolveDependsOnFourFieldsOnly : Prop :=
  ∀ s t s' t' : State,
    s.acfg.pclk = t.acfg.pclk → s.acfg.dpiLanes = t.acfg.dpiLanes → s.acfg.dsiLanes = t.acfg.dsiLanes →
    s.acfg.refclk = t.acfg.refclk → exec .uSolve s = .next s' → exec .uSolve t = .next t' →
    s'.valid = t'.valid ∧ s'.target = t'.target ∧
    (s'.valid = true → s'.fbd = t'.fbd ∧ s'.prd = t'.prd ∧ s'.frs = t'.frs ∧ s'.pllFreq = t'.pllFreq ∧
      s'.pllBitclk = t'.pllBitclk) ∧
    (s'.valid = false → s'.err = t'.err)

/-- R153: the round trip through the target loses at most `ceil(8 * dsi_lanes / dpi_lanes)`. -/
def Obligations.RoundTripBound : Prop :=
  (∀ c : DevConfig, configOk c = true →
    pllToPclk c (targetFreq c) ≤ c.pclk.toNat ∧
    c.pclk.toNat - pllToPclk c (targetFreq c) ≤
      (8 * c.dsiLanes.toNat + (c.dpiLanes.toNat - 1)) / c.dpiLanes.toNat) ∧
  (8 * 4 + (24 - 1)) / 24 = 2

/-- R16, R175: the range of every intermediate; and with the bit clock of a solve of the same configuration, `hsync` is
below `(hsw + hbp) * dpi_lanes / 4` (or both are 0) and below 2^24, so TIM_HSYNC holds all of it. -/
def Obligations.IntermediateRanges : Prop :=
  (∀ c : DevConfig,
    c.pclk.toNat * c.dpiLanes.toNat < 2 ^ 40 ∧ targetFreq c < 2 ^ 40 ∧
    (∀ fbd, fbd < 512 → c.refclk.toNat * (fbd + 1) < 2 ^ 41) ∧
    (∀ prd frs, prd < 16 → frs < 4 → (prd + 1) <<< frs ≤ 128) ∧
    ∀ bitclk, bitclk < 500000000 →
      bitclk < 2 ^ 29 ∧ bitclk / 4 < 2 ^ 27 ∧
      (c.hsw.toNat + c.hbp.toNat) * (bitclk / 4) * c.dsiLanes.toNat < 2 ^ 52) ∧
  ∀ (c : DevConfig) (frs pll : Nat), configOk c = true → bracket (targetFreq c) = some frs →
    frsLimit (frs + 1) ≤ pll → pll < frsLimit frs →
    pll / 2 < 500000000 ∧
    (c.hsw.toNat + c.hbp.toNat = 0 → hsyncValue c (pll / 2) = 0) ∧
    (0 < c.hsw.toNat + c.hbp.toNat →
      4 * hsyncValue c (pll / 2) < (c.hsw.toNat + c.hbp.toNat) * c.dpiLanes.toNat) ∧
    hsyncValue c (pll / 2) < 2 ^ 24 ∧
    (BitVec.ofNat 32 (hsyncValue c (pll / 2))).toNat = hsyncValue c (pll / 2)

/-- R171, R172, R174, R175: what U.DERIVE writes when the solution is valid, and that it is refused otherwise.
STATUS.STEP's moment: log 14. -/
def Obligations.UDeriveWritesTiming : Prop :=
  (∀ s : State, s.valid = true → configOk s.acfg = true →
    exec .uDerive s = .next { s with
      timHsync := BitVec.ofNat 32 (((s.acfg.hsw.toNat + s.acfg.hbp.toNat) * (s.pllBitclk.toNat / 4)
        * s.acfg.dsiLanes.toNat) / s.acfg.pclk.toNat),
      timVsync := BitVec.ofNat 32 (s.acfg.vsw.toNat + s.acfg.vbp.toNat),
      romStep := s.romStep + 1, statStep := s.romStep + 1 }) ∧
  (∀ s : State, s.valid = false → exec .uDerive s = .refused (.deriveWithoutSolution s.rom s.romStep)) ∧
  ∀ c : DevConfig, (BitVec.ofNat 32 (vsyncValue c)).toNat = c.vsw.toNat + c.vbp.toNat ∧
    c.vsw.toNat + c.vbp.toNat ≤ 131070

/-! ## Commands -/

/-- R181, R183, R184, R185: the acceptance of ENABLE, and its refusal with BAD_CONFIG. -/
def Obligations.EnableAcceptance : Prop :=
  (∀ s : State, s.busy = false → s.cfg.pclk ≠ 0 → s.cfg.refclk ≠ 0 → s.cfg.dpiLanes ≠ 0 → s.cfg.dsiLanes ≠ 0 →
    exec .enable s = .next { s with
      lastop := 0x1, err := .none, statStep := 0, acfg := s.cfg, busy := true, op := .enable,
      rom := some .bringup, romStep := 0 }) ∧
  (∀ s : State, s.busy = false →
    (s.cfg.pclk = 0 ∨ s.cfg.refclk = 0 ∨ s.cfg.dpiLanes = 0 ∨ s.cfg.dsiLanes = 0) →
    exec .enable s = .next { s with lastop := 0x1, err := .badConfig, statStep := 0 })

/-- R181, R188: the acceptance of DISABLE, in any phase and with any configuration. -/
def Obligations.DisableAcceptance : Prop :=
  ∀ s : State, s.busy = false →
    exec .disable s = .next { s with
      lastop := 0x2, err := .none, statStep := 0, busy := true, op := .disable, rom := some .teardown, romStep := 0 }

/-- R162, R181, R183, R184: H.SOLVE from its acceptance over its solve to its derivation, which ends it. The model's
choices in it: that exec of a running H.SOLVE is its next turn (log 27), the three turns and `solveDone` (log 7), the
contents of `search` (log 8), and the record `pllRefclk` (log 13). -/
def Obligations.HSolveRuns : Prop :=
  (∀ s : State, s.busy = false → configOk s.cfg = true →
    exec .hSolve s = .next { s with
      lastop := 0x3, err := .none, statStep := 0, acfg := s.cfg, busy := true, op := .solve, solveDone := false }) ∧
  (∀ s : State, s.busy = false → configOk s.cfg = false →
    exec .hSolve s = .next { s with lastop := 0x3, err := .badConfig, statStep := 0 }) ∧
  (∀ (s : State) (frs : Nat), s.busy = true → s.op = .solve → s.solveDone = false → configOk s.acfg = true →
    bracket (targetFreq s.acfg) = some frs →
    let r := searchPll s.acfg.refclk.toNat frs (targetFreq s.acfg)
    r.found = true →
    exec .hSolve s = .next { s with
      valid := true, target := BitVec.ofNat 32 (min (targetFreq s.acfg) 0xFFFFFFFF), search := r,
      fbd := BitVec.ofNat 9 r.bestFbd, prd := BitVec.ofNat 4 r.bestPrd, frs := BitVec.ofNat 2 frs,
      pllFreq := BitVec.ofNat 32 r.bestPll, pllBitclk := BitVec.ofNat 32 (r.bestPll / 2),
      pllRefclk := s.acfg.refclk, solveDone := true }) ∧
  (∀ s : State, s.busy = true → s.op = .solve → s.solveDone = true → s.valid = true → configOk s.acfg = true →
    exec .hSolve s = .next { s with
      timHsync := BitVec.ofNat 32 (hsyncValue s.acfg s.pllBitclk.toNat),
      timVsync := BitVec.ofNat 32 (vsyncValue s.acfg), busy := false, op := .none })

/-- R181: the acceptance of the four direct commands, with the operands they latch. That the fields of S.arg which R181
does not name for a command keep their values is the model's reading (log 22). -/
def Obligations.DirectCommandAcceptance : Prop :=
  ∀ s : State, s.busy = false →
    (∀ a, exec (.hRegwr a) s = .next { s with
      lastop := 0x4, err := .none, statStep := 0, arg := { s.arg with addr := a, data := s.argData, mask := s.argMask },
      busy := true, op := .regwr }) ∧
    (∀ a, exec (.hRegrd a) s = .next { s with
      lastop := 0x5, err := .none, statStep := 0, arg := { s.arg with addr := a, data := s.argData, mask := s.argMask },
      busy := true, op := .regrd }) ∧
    (∀ a, exec (.hRegupd a) s = .next { s with
      lastop := 0x6, err := .none, statStep := 0, arg := { s.arg with addr := a, data := s.argData, mask := s.argMask },
      busy := true, op := .regupd }) ∧
    (∀ c p0 p1, exec (.hShort c p0 p1) s = .next { s with
      lastop := 0x7, err := .none, statStep := 0, arg := { s.arg with commandId := c, param0 := p0, param1 := p1 },
      busy := true, op := .short })

/-! ## Register accesses

An access takes one turn of the Engine for each transaction's issue and one after the last answer (R6). Each statement
about an instruction has the turn that completes it, from wherever the answers so far have taken the access, and the
whole of it, by steps, when each answer follows its issue at once; AccessWaitsForEachAnswer has the turns between, at any
time, and BusErrorAbortsAtOnce the answer ERR. -/

/-- R131, R138: a running H.REGWR: one write for a W16 address, two for a W32 address with the low half first. The turn
that takes the last OK answer ends it; nothing else changes. Moves, responses, scratch fields and observation: log 2, 3,
4, 16. -/
def Obligations.HRegwrWritesTheRegister : Prop :=
  ∀ (s : State) (i : Addr), s.busy = true → s.op = .regwr → s.bus = .idle →
    let a := s.arg.addr
    let v := s.arg.data
    (∀ d, s.response = some (.ok d) →
      ((a.toNat < 0x100 ∨ 0x600 ≤ a.toNat) ∧ s.sub = 0) ∨ (0x100 ≤ a.toNat ∧ a.toNat < 0x600 ∧ s.sub = 1) →
      exec (.hRegwr i) s = .next { s with response := none, sub := s.sub + 1, busy := false, op := .none }) ∧
    (∀ d rest, s.response = none → (a.toNat < 0x100 ∨ 0x600 ≤ a.toNat) → s.inputs = okTurns [d] ++ .engine :: rest →
      Host.Core.run Sys2Proof.core 3 s = .next { s with
        inputs := rest, sub := 1, readData := [], busy := false, op := .none,
        log := s.log ++ okEvents s.now [(.write a (v.extractLsb' 0 16), d)] }) ∧
    (∀ d e rest, s.response = none → 0x100 ≤ a.toNat → a.toNat < 0x600 →
      s.inputs = okTurns [d, e] ++ .engine :: rest →
      Host.Core.run Sys2Proof.core 5 s = .next { s with
        inputs := rest, sub := 2, readData := [], busy := false, op := .none,
        log := s.log ++ okEvents s.now
          [(.write a (v.extractLsb' 0 16), d), (.write (a + 2) (v.extractLsb' 16 16), e)] })

/-- R131, R136: a U.WR writes its source's value to its register. The turn that takes the last OK answer goes on with
the next micro-op; nothing else changes. Moves, responses, scratch fields, STATUS.STEP's moment and observation: log 2,
3, 4, 14, 16. -/
def Obligations.UWrWritesTheRegister : Prop :=
  ∀ (s : State) (reg : Byte) (src : Src) (a : Addr) (v : Word),
    s.build.profile.regmap[reg.toNat]? = some a → srcValue s src = some v → s.bus = .idle →
    (∀ d, s.response = some (.ok d) →
      ((a.toNat < 0x100 ∨ 0x600 ≤ a.toNat) ∧ s.sub = 0) ∨ (0x100 ≤ a.toNat ∧ a.toNat < 0x600 ∧ s.sub = 1) →
      exec (.uWr reg src) s = .next { s with
        response := none, sub := s.sub + 1, romStep := s.romStep + 1, statStep := s.romStep + 1 }) ∧
    (∀ d rest, s.busy = true → currentInstr s = some (.uWr reg src) → s.response = none →
      (a.toNat < 0x100 ∨ 0x600 ≤ a.toNat) → s.inputs = okTurns [d] ++ .engine :: rest →
      Host.Core.run Sys2Proof.core 3 s = .next { s with
        inputs := rest, sub := 1, readData := [], romStep := s.romStep + 1, statStep := s.romStep + 1,
        log := s.log ++ okEvents s.now [(.write a (v.extractLsb' 0 16), d)] }) ∧
    (∀ d e rest, s.busy = true → currentInstr s = some (.uWr reg src) → s.response = none →
      0x100 ≤ a.toNat → a.toNat < 0x600 → s.inputs = okTurns [d, e] ++ .engine :: rest →
      Host.Core.run Sys2Proof.core 5 s = .next { s with
        inputs := rest, sub := 2, readData := [], romStep := s.romStep + 1, statStep := s.romStep + 1,
        log := s.log ++ okEvents s.now
          [(.write a (v.extractLsb' 0 16), d), (.write (a + 2) (v.extractLsb' 16 16), e)] })

/-- R54, R132, R139: a running H.REGRD. The turn that takes the last OK answer puts the value read into RD_DATA,
zero-extended from a W16 register, low half first from a W32 register, and ends it; nothing else changes. Moves,
responses, scratch fields and observation: log 2, 3, 4, 16. -/
def Obligations.HRegrdReadsTheRegister : Prop :=
  ∀ (s : State) (i : Addr), s.busy = true → s.op = .regrd → s.bus = .idle →
    let a := s.arg.addr
    (∀ d, s.response = some (.ok d) → (a.toNat < 0x100 ∨ 0x600 ≤ a.toNat) → s.sub = 0 → s.readData = [] →
      exec (.hRegrd i) s = .next { s with
        response := none, sub := 1, readData := [d], busy := false, op := .none, rdData := d.setWidth 32 }) ∧
    (∀ d e, s.response = some (.ok e) → 0x100 ≤ a.toNat → a.toNat < 0x600 → s.sub = 1 → s.readData = [d] →
      exec (.hRegrd i) s = .next { s with
        response := none, sub := 2, readData := [d, e], busy := false, op := .none, rdData := e ++ d }) ∧
    (∀ d rest, s.response = none → (a.toNat < 0x100 ∨ 0x600 ≤ a.toNat) → s.inputs = okTurns [d] ++ .engine :: rest →
      Host.Core.run Sys2Proof.core 3 s = .next { s with
        inputs := rest, sub := 1, readData := [d], busy := false, op := .none, rdData := d.setWidth 32,
        log := s.log ++ okEvents s.now [(.read a, d)] }) ∧
    (∀ d e rest, s.response = none → 0x100 ≤ a.toNat → a.toNat < 0x600 →
      s.inputs = okTurns [d, e] ++ .engine :: rest →
      Host.Core.run Sys2Proof.core 5 s = .next { s with
        inputs := rest, sub := 2, readData := [d, e], busy := false, op := .none, rdData := e ++ d,
        log := s.log ++ okEvents s.now [(.read a, d), (.read (a + 2), e)] })

/-- R133, R134, R140: a running H.REGUPD: the read, then the write only if the value changes; a W32 write has both
halves. The turn that takes the last OK answer ends it; nothing else changes. Moves, responses, scratch fields and
observation: log 2, 3, 4, 16. -/
def Obligations.HRegupdUpdatesTheRegister : Prop :=
  ∀ (s : State) (i : Addr), s.busy = true → s.op = .regupd → s.bus = .idle →
    let a := s.arg.addr
    let new := updatedValue a s.arg.mask s.arg.data
    ((a.toNat < 0x100 ∨ 0x600 ≤ a.toNat) →
      (∀ d, s.response = some (.ok d) → s.sub = 0 → s.readData = [] → new (d.setWidth 32) = d.setWidth 32 →
        exec (.hRegupd i) s = .next { s with
          response := none, sub := 1, readData := [d], busy := false, op := .none }) ∧
      (∀ d x, s.response = some (.ok x) → s.sub = 1 → s.readData = [d] → new (d.setWidth 32) ≠ d.setWidth 32 →
        exec (.hRegupd i) s = .next { s with response := none, sub := 2, busy := false, op := .none }) ∧
      (∀ d rest, s.response = none → new (d.setWidth 32) = d.setWidth 32 →
        s.inputs = okTurns [d] ++ .engine :: rest →
        Host.Core.run Sys2Proof.core 3 s = .next { s with
          inputs := rest, sub := 1, readData := [d], busy := false, op := .none,
          log := s.log ++ okEvents s.now [(.read a, d)] }) ∧
      (∀ d x rest, s.response = none → new (d.setWidth 32) ≠ d.setWidth 32 →
        s.inputs = okTurns [d, x] ++ .engine :: rest →
        Host.Core.run Sys2Proof.core 5 s = .next { s with
          inputs := rest, sub := 2, readData := [d], busy := false, op := .none,
          log := s.log ++ okEvents s.now
            [(.read a, d), (.write a ((new (d.setWidth 32)).extractLsb' 0 16), x)] })) ∧
    (0x100 ≤ a.toNat → a.toNat < 0x600 →
      (∀ d e, s.response = some (.ok e) → s.sub = 1 → s.readData = [d] → new (e ++ d) = e ++ d →
        exec (.hRegupd i) s = .next { s with
          response := none, sub := 2, readData := [d, e], busy := false, op := .none }) ∧
      (∀ d e y, s.response = some (.ok y) → s.sub = 3 → s.readData = [d, e] → new (e ++ d) ≠ e ++ d →
        exec (.hRegupd i) s = .next { s with response := none, sub := 4, busy := false, op := .none }) ∧
      (∀ d e rest, s.response = none → new (e ++ d) = e ++ d → s.inputs = okTurns [d, e] ++ .engine :: rest →
        Host.Core.run Sys2Proof.core 5 s = .next { s with
          inputs := rest, sub := 2, readData := [d, e], busy := false, op := .none,
          log := s.log ++ okEvents s.now [(.read a, d), (.read (a + 2), e)] }) ∧
      (∀ d e x y rest, s.response = none → new (e ++ d) ≠ e ++ d →
        s.inputs = okTurns [d, e, x, y] ++ .engine :: rest →
        Host.Core.run Sys2Proof.core 9 s = .next { s with
          inputs := rest, sub := 4, readData := [d, e], busy := false, op := .none,
          log := s.log ++ okEvents s.now [(.read a, d), (.read (a + 2), e),
            (.write a ((new (e ++ d)).extractLsb' 0 16), x),
            (.write (a + 2) ((new (e ++ d)).extractLsb' 16 16), y)] }))

/-- R133, R134, R137: a U.UPD, as H.REGUPD, and then the next micro-op. Moves, responses, scratch fields, STATUS.STEP's
moment and observation: log 2, 3, 4, 14, 16. -/
def Obligations.UUpdUpdatesTheRegister : Prop :=
  ∀ (s : State) (reg : Byte) (msrc vsrc : Src) (a : Addr) (m v : Word),
    s.build.profile.regmap[reg.toNat]? = some a → srcValue s msrc = some m → srcValue s vsrc = some v →
    s.bus = .idle →
    let new := updatedValue a m v
    let running := s.busy = true ∧ currentInstr s = some (.uUpd reg msrc vsrc) ∧ s.response = none
    ((a.toNat < 0x100 ∨ 0x600 ≤ a.toNat) →
      (∀ d, s.response = some (.ok d) → s.sub = 0 → s.readData = [] → new (d.setWidth 32) = d.setWidth 32 →
        exec (.uUpd reg msrc vsrc) s = .next { s with
          response := none, sub := 1, readData := [d], romStep := s.romStep + 1, statStep := s.romStep + 1 }) ∧
      (∀ d x, s.response = some (.ok x) → s.sub = 1 → s.readData = [d] → new (d.setWidth 32) ≠ d.setWidth 32 →
        exec (.uUpd reg msrc vsrc) s = .next { s with
          response := none, sub := 2, romStep := s.romStep + 1, statStep := s.romStep + 1 }) ∧
      (∀ d rest, running → new (d.setWidth 32) = d.setWidth 32 → s.inputs = okTurns [d] ++ .engine :: rest →
        Host.Core.run Sys2Proof.core 3 s = .next { s with
          inputs := rest, sub := 1, readData := [d], romStep := s.romStep + 1, statStep := s.romStep + 1,
          log := s.log ++ okEvents s.now [(.read a, d)] }) ∧
      (∀ d x rest, running → new (d.setWidth 32) ≠ d.setWidth 32 → s.inputs = okTurns [d, x] ++ .engine :: rest →
        Host.Core.run Sys2Proof.core 5 s = .next { s with
          inputs := rest, sub := 2, readData := [d], romStep := s.romStep + 1, statStep := s.romStep + 1,
          log := s.log ++ okEvents s.now
            [(.read a, d), (.write a ((new (d.setWidth 32)).extractLsb' 0 16), x)] })) ∧
    (0x100 ≤ a.toNat → a.toNat < 0x600 →
      (∀ d e, s.response = some (.ok e) → s.sub = 1 → s.readData = [d] → new (e ++ d) = e ++ d →
        exec (.uUpd reg msrc vsrc) s = .next { s with
          response := none, sub := 2, readData := [d, e], romStep := s.romStep + 1, statStep := s.romStep + 1 }) ∧
      (∀ d e y, s.response = some (.ok y) → s.sub = 3 → s.readData = [d, e] → new (e ++ d) ≠ e ++ d →
        exec (.uUpd reg msrc vsrc) s = .next { s with
          response := none, sub := 4, romStep := s.romStep + 1, statStep := s.romStep + 1 }) ∧
      (∀ d e rest, running → new (e ++ d) = e ++ d → s.inputs = okTurns [d, e] ++ .engine :: rest →
        Host.Core.run Sys2Proof.core 5 s = .next { s with
          inputs := rest, sub := 2, readData := [d, e], romStep := s.romStep + 1, statStep := s.romStep + 1,
          log := s.log ++ okEvents s.now [(.read a, d), (.read (a + 2), e)] }) ∧
      (∀ d e x y rest, running → new (e ++ d) ≠ e ++ d → s.inputs = okTurns [d, e, x, y] ++ .engine :: rest →
        Host.Core.run Sys2Proof.core 9 s = .next { s with
          inputs := rest, sub := 4, readData := [d, e], romStep := s.romStep + 1, statStep := s.romStep + 1,
          log := s.log ++ okEvents s.now [(.read a, d), (.read (a + 2), e),
            (.write a ((new (e ++ d)).extractLsb' 0 16), x),
            (.write (a + 2) ((new (e ++ d)).extractLsb' 16 16), y)] }))

/-- R211, R212, R214, R215: the transactions of a short packet, when the four role registers are W16: header, word
count, payload, trigger, in this order. All are sent in order, whatever their width classes; the turn that takes the
last OK answer goes on with the next micro-op (U.SHORT) or ends the command (H.SHORT); nothing else changes. Moves,
responses, scratch fields, STATUS.STEP's moment and observation: log 2, 3, 4, 14, 16. -/
def Obligations.ShortPacketsAreSent : Prop :=
  (∀ (p : Profile) (h w d t : Addr) (c p0 p1 : Byte),
    (h.toNat < 0x100 ∨ 0x600 ≤ h.toNat) → (w.toNat < 0x100 ∨ 0x600 ≤ w.toNat) →
    (d.toNat < 0x100 ∨ 0x600 ≤ d.toNat) → (t.toNat < 0x100 ∨ 0x600 ≤ t.toNat) →
    sendShortTxs p (h, w, d, t) c p0 p1 =
      [.write h (p.scTag ++ c), .write w 0, .write d (p1 ++ p0), .write t (p.scTriggerValue.extractLsb' 0 16)]) ∧
  ∀ (s : State) (addrs : Addr × Addr × Addr × Addr) (c p0 p1 : Byte),
    shortAddrs s.build.profile = some addrs → s.bus = .idle →
    (let txs := sendShortTxs s.build.profile addrs c p0 p1;
      (∀ d, s.response = some (.ok d) → s.sub + 1 = txs.length →
        exec (.uShort c p0 p1) s = .next { s with
          response := none, sub := s.sub + 1, romStep := s.romStep + 1, statStep := s.romStep + 1 }) ∧
      (∀ (ds : List Half) rest, s.busy = true → currentInstr s = some (.uShort c p0 p1) → s.response = none →
        ds.length = txs.length → s.inputs = okTurns ds ++ .engine :: rest →
        Host.Core.run Sys2Proof.core (2 * txs.length + 1) s = .next { s with
          inputs := rest, sub := txs.length, readData := [], romStep := s.romStep + 1, statStep := s.romStep + 1,
          log := s.log ++ okEvents s.now (txs.zip ds) })) ∧
    (s.busy = true → s.op = .short →
      let txs := sendShortTxs s.build.profile addrs s.arg.commandId s.arg.param0 s.arg.param1;
      (∀ d, s.response = some (.ok d) → s.sub + 1 = txs.length →
        exec (.hShort c p0 p1) s = .next { s with
          response := none, sub := s.sub + 1, busy := false, op := .none }) ∧
      (∀ (ds : List Half) rest, s.response = none → ds.length = txs.length →
        s.inputs = okTurns ds ++ .engine :: rest →
        Host.Core.run Sys2Proof.core (2 * txs.length + 1) s = .next { s with
          inputs := rest, sub := txs.length, readData := [], busy := false, op := .none,
          log := s.log ++ okEvents s.now (txs.zip ds) }))

/-- R135, R223, R224, R229: an ERR answer raises BUS_ERROR at once, in any micro-op or direct command that makes an
access: in the turn that takes it; from any state with a transaction outstanding, whatever came before; and from the
access's beginning, where the transactions `txs` are answered OK and the next one, `t`, ERR. What was answered OK stands
in the observation, no transaction follows, and nothing is rolled back. Moves, responses, scratch fields and
observation: log 2, 3, 4, 16. -/
def Obligations.BusErrorAbortsAtOnce : Prop :=
  ∀ (s : State) (i : Instr) (access : Access),
    currentInstr s = some i → s.busy = true → accessOf s i = some access →
    (s.bus = .idle → s.response = some .err →
      exec i s = .next { s with response := none, err := .busError, busy := false, op := .none }) ∧
    (∀ (t : Tx) (rest : List Input), ControlInv s → s.bus = .pending t →
      s.inputs = .answer .err :: .engine :: rest →
      Host.Core.run Sys2Proof.core 2 s = .next { s with
        inputs := rest, bus := .idle, response := none, err := .busError, busy := false, op := .none,
        log := s.log ++ [.answer .err s.now] }) ∧
    ∀ (txs : List Tx) (oks : List Half) (t : Tx) (rest : List Input), ControlInv s → s.bus = .idle → s.response = none →
      txs.length = oks.length →
      (∀ k, k ≤ oks.length → (access (readsGiven ((txs.zip oks).take k)))[k]? = (txs ++ [t])[k]?) →
      s.inputs = okTurns oks ++ .engine :: .answer .err :: .engine :: rest →
      Host.Core.run Sys2Proof.core (2 * oks.length + 3) s = .next { s with
        inputs := rest, err := .busError, busy := false, op := .none, sub := oks.length,
        readData := readsGiven (txs.zip oks),
        log := s.log ++ okEvents s.now (txs.zip oks) ++ [.issue t s.now, .answer .err s.now] }

/-- R6, R80, R83: an access goes on one transaction at a time. Its first turn issues its first transaction; a later
answer arrives on its own, and the turn that takes an OK answer issues the next transaction, from wherever the answers so
far have taken the access. With a transaction outstanding and no answer the Engine's turn changes nothing: it waits with
BUSY = 1, and no error is raised (I10). With none outstanding no answer is noticed (R251). Moves, responses, scratch
fields and observation: log 2, 3, 4, 16. -/
def Obligations.AccessWaitsForEachAnswer : Prop :=
  (∀ (s : State) (i : Instr) (access : Access),
    currentInstr s = some i → s.busy = true → accessOf s i = some access →
    (∀ x, s.bus = .idle → s.response = none → (access [])[0]? = some x →
      exec i s = .next { s with sub := 0, readData := [], bus := .pending x, log := s.log ++ [.issue x s.now] }) ∧
    (∀ x y d, s.bus = .idle → s.response = some (.ok d) → (access s.readData)[s.sub]? = some x →
      let data := s.readData ++ readsGiven [(x, d)];
      (access data)[s.sub + 1]? = some y →
      exec i s = .next { s with
        response := none, sub := s.sub + 1, readData := data, bus := .pending y,
        log := s.log ++ [.issue y s.now] }) ∧
    (∀ x, s.bus = .pending x → exec i s = .next s)) ∧
  (∀ (s : State) (a : Answer) (rest : List Input), s.inputs = .answer a :: rest →
    (∀ x, s.bus = .pending x → step s = .next { s with
      inputs := rest, bus := .idle, response := some a, log := s.log ++ [.answer a s.now] }) ∧
    (s.bus = .idle → step s = .next { s with inputs := rest })) ∧
  ∀ (s : State) (t : Tx), ControlInv s → AccessInv s → s.bus = .pending t →
    s.busy = true ∧ (s.inputs = [] → step s = .next s) ∧
    ∀ rest, s.inputs = .engine :: rest → step s = .next { s with inputs := rest }

/-! ## Sequencer -/

/-- R187: U.END. -/
def Obligations.UEndIdlesTheEngine : Prop :=
  ∀ s : State, exec .uEnd s = .next { s with busy := false, op := .none }

/-- R189, R190: U.PHASE; Off discards the solution and keeps its fields. STATUS.STEP's moment: log 14. -/
def Obligations.UPhaseSetsThePhase : Prop :=
  (∀ (s : State) (p : Phase), p ≠ .off →
    exec (.uPhase p) s = .next { s with phase := p, romStep := s.romStep + 1, statStep := s.romStep + 1 }) ∧
  ∀ s : State, exec (.uPhase .off) s = .next { s with
    phase := .off, valid := false, romStep := s.romStep + 1, statStep := s.romStep + 1 }

/-- R191, R193, R263: a U.WAIT starts, holds while the minimum has not passed, and completes at any later turn. In
cycles, the delay counter is loaded with the minimum rounded up, and when it has run out the minimum has passed. The
flag `waiting`, the counter as a function, STATUS.STEP's moment: log 6, 14, 19. -/
def Obligations.UWaitHoldsForItsMinimum : Prop :=
  (∀ (s : State) (d : Delay), s.waiting = false →
    exec (.uWait d) s = .next { s with waiting := true, waitStart := s.now }) ∧
  (∀ s : State, s.waiting = true →
    (s.now - s.waitStart < 1000 → exec (.uWait .pllSettle) s = .next s) ∧
    (1000 ≤ s.now - s.waitStart → exec (.uWait .pllSettle) s = .next { s with
      waiting := false, romStep := s.romStep + 1, statStep := s.romStep + 1 })) ∧
  (∀ s : State, s.waiting = true →
    (s.now - s.waitStart < 50000 → exec (.uWait .frame) s = .next s) ∧
    (50000 ≤ s.now - s.waitStart → exec (.uWait .frame) s = .next { s with
      waiting := false, romStep := s.romStep + 1, statStep := s.romStep + 1 })) ∧
  ∀ (s : State) (d : Delay), 0 < s.build.clkHz →
    delayMinUs d * s.build.clkHz ≤ delayCycles s.build.clkHz (delayMinUs d) * 1000000 ∧
    delayCycles s.build.clkHz (delayMinUs d) * 1000000 < delayMinUs d * s.build.clkHz + 1000000 ∧
    (delayCounter d s = 0 → delayMinUs d ≤ s.now - s.waitStart)

/-- R194, R228: U.RSTLINE drives the line if there is one, which the observation sees when the level changes, and is
skipped if there is none. The form of the observation and STATUS.STEP's moment: log 14, 16. -/
def Obligations.URstlineDrivesTheLine : Prop :=
  ∀ (s : State) (level : Bool),
    (s.build.hasResetLine = true → s.rstline ≠ level →
      exec (.uRstline level) s = .next { s with
        rstline := level, log := s.log ++ [.resetLine level s.now], romStep := s.romStep + 1,
        statStep := s.romStep + 1 }) ∧
    (s.build.hasResetLine = true → s.rstline = level →
      exec (.uRstline level) s = .next { s with romStep := s.romStep + 1, statStep := s.romStep + 1 }) ∧
    (s.build.hasResetLine = false →
      exec (.uRstline level) s = .next { s with romStep := s.romStep + 1, statStep := s.romStep + 1 })

/-- R181, R186: a step runs the decoded instruction: a word the host writes to CMD while the Engine is idle; the word
at S.step while a ROM runs, STATUS.STEP mirroring S.step; and a running direct command. The list of inputs and the
window's response are the model's (log 2, log 15). -/
def Obligations.StepRunsTheDecodedInstruction : Prop :=
  (∀ (s : State) (w : Word) (i : Instr) (rest : List Input),
    s.inputs = .host (.write 0x14 4 w) :: rest → s.busy = false → decodeHost w = .ok i →
    step s = exec i { s with inputs := rest, reply := some .done }) ∧
  (∀ (s : State) (w : Word) (i : Instr) (r : RomSel),
    s.busy = true → romRunning s → s.rom = some r → (romWords s.build r)[s.romStep.toNat]? = some w →
    decodeUop w = .ok i →
    (s.inputs = [] → step s = exec i { s with statStep := s.romStep }) ∧
    (∀ rest, s.inputs = .engine :: rest → step s = exec i { s with inputs := rest, statStep := s.romStep })) ∧
  (∀ (s : State) (i : Instr), s.busy = true → ¬ romRunning s → currentInstr s = some i →
    (s.inputs = [] → step s = exec i s) ∧
    (∀ rest, s.inputs = .engine :: rest → step s = exec i { s with inputs := rest }))

/-! ## The host window and block reset -/

/-- R31, R37, R40, R48, R55, R110, R111: what a host read of each register gives, with the codes of the error kinds and
of the phases; it changes nothing but the window's response (log 15). -/
def Obligations.WindowReads : Prop :=
  ∀ s : State, let get := fun (o : Byte) v => hostAccess (.read o 4) s = .next { s with reply := some (.data v) }
    get 0x00 s.cfg.pclk ∧ get 0x04 s.cfg.refclk ∧ get 0x08 (0#16 ++ s.cfg.dsiLanes ++ s.cfg.dpiLanes) ∧
    get 0x0C (s.cfg.hbp ++ s.cfg.hsw) ∧ get 0x10 (s.cfg.vbp ++ s.cfg.vsw) ∧ get 0x14 0 ∧ get 0x18 s.argData ∧
    get 0x1C s.argMask ∧ get 0x20 (statusWord s) ∧ get 0x24 (pllResWord s) ∧ get 0x28 s.pllFreq ∧
    get 0x2C s.pllBitclk ∧ get 0x30 s.target ∧ get 0x34 s.timHsync ∧ get 0x38 s.timVsync ∧ get 0x3C s.rdData ∧
    (∀ o : Byte, 0x40 ≤ o.toNat → o.toNat % 4 = 0 → get o 0) ∧
    ((statusWord s).extractLsb' 0 1 = BitVec.ofBool s.busy ∧
      (statusWord s).extractLsb' 4 4 = (match s.err with
        | .none => 0 | .outOfRange => 1 | .noSolution => 2 | .busError => 3 | .badConfig => 4 | .illegalCommand => 5) ∧
      (statusWord s).extractLsb' 8 4 = (match s.phase with
        | .off => 0 | .reset => 1 | .pllConfigured => 2 | .phyEnabled => 3 | .timingProgrammed => 4
        | .peripheralAwake => 5 | .dsiStarted => 6 | .streaming => 7 | .frameStopRequested => 8
        | .pixelPipeDisabled => 9 | .pointerReset => 10) ∧
      (statusWord s).extractLsb' 12 4 = s.lastop ∧
      (statusWord s).extractLsb' 16 8 = s.statStep ∧ (statusWord s).getLsbD 24 = s.reject ∧
      (statusWord s).getLsbD 25 = (s.build.hasResetLine && s.rstline) ∧
      (statusWord s).extractLsb' 1 3 = 0 ∧ (statusWord s).extractLsb' 26 6 = 0) ∧
    ((pllResWord s).extractLsb' 0 9 = s.fbd ∧ (pllResWord s).extractLsb' 12 4 = s.prd ∧
      (pllResWord s).extractLsb' 16 2 = s.frs ∧ (pllResWord s).getLsbD 31 = s.valid ∧
      (pllResWord s).extractLsb' 9 3 = 0 ∧ (pllResWord s).extractLsb' 18 13 = 0)

/-- R31 to R40, R55: what a host write of each register but CMD does. -/
def Obligations.WindowWrites : Prop :=
  ∀ (s : State) (w : Word), let put := fun (o : Byte) t => hostAccess (.write o 4 w) s = .next t
    put 0x00 { s with cfg := { s.cfg with pclk := w }, reply := some .done } ∧
    put 0x04 { s with cfg := { s.cfg with refclk := w }, reply := some .done } ∧
    put 0x08 { s with cfg := { s.cfg with dpiLanes := w.extractLsb' 0 8, dsiLanes := w.extractLsb' 8 8 },
                      reply := some .done } ∧
    put 0x0C { s with cfg := { s.cfg with hsw := w.extractLsb' 0 16, hbp := w.extractLsb' 16 16 },
                      reply := some .done } ∧
    put 0x10 { s with cfg := { s.cfg with vsw := w.extractLsb' 0 16, vbp := w.extractLsb' 16 16 },
                      reply := some .done } ∧
    put 0x18 { s with argData := w, reply := some .done } ∧ put 0x1C { s with argMask := w, reply := some .done } ∧
    put 0x20 { s with reject := if w.getLsbD 24 then false else s.reject, reply := some .done } ∧
    (∀ o : Byte, 0x24 ≤ o.toNat → o.toNat % 4 = 0 → put o { s with reply := some .done })

/-- R78: an access that is not a 32-bit access at a multiple of 4 is answered with an error and changes nothing. -/
def Obligations.OtherWindowAccessesAreRefused : Prop :=
  ∀ (s : State) (o : Byte) (n : Nat) (w : Word), n ≠ 4 ∨ o.toNat % 4 ≠ 0 →
    hostAccess (.read o n) s = .next { s with reply := some .error } ∧
    hostAccess (.write o n w) s = .next { s with reply := some .error }

/-- R63, R250, R251: block reset in any state gives every register its reset value; the build stays, and the answer to
an outstanding transaction is not noticed: if it comes next, it is dropped. State.reset holds the same values, STATUS
reading 0x02000000, and with no input nothing happens (R253). The model's choices in it: that State.reset is profile T
with the reset line (log 1), that a list of inputs says what moves, that it is empty at State.reset and that the Engine
moves with none left (log 2), that an answer to no transaction is dropped (log 3), that block reset leaves `now`
(log 17). The values of the fields not named here are the model's choice too (log 5, 6, 7, 13, 15). -/
def Obligations.BlockResetValues : Prop :=
  (∀ s : State, ∃ t, applyInput .blockReset s = .next t ∧ t.build = s.build ∧
    t.cfg = ⟨0, 0, 0, 0, 0, 0, 0, 0⟩ ∧ t.argData = 0 ∧ t.argMask = 0 ∧
    statusWord t = (if s.build.hasResetLine then 0x02000000 else 0) ∧ t.rstline = s.build.hasResetLine ∧
    pllResWord t = 0 ∧ t.pllFreq = 0 ∧ t.pllBitclk = 0 ∧ t.target = 0 ∧ t.timHsync = 0 ∧ t.timVsync = 0 ∧
    t.rdData = 0 ∧ t.acfg = ⟨0, 0, 0, 0, 0, 0, 0, 0⟩ ∧ t.arg = ⟨0, 0, 0, 0, 0, 0⟩ ∧ t.op = .none ∧ t.rom = none ∧
    t.romStep = 0 ∧ t.bus = .idle ∧ t.response = none ∧ t.now = s.now ∧ t.inputs = s.inputs ∧
    ∀ a rest, s.inputs = .answer a :: rest → step t = .next { t with inputs := rest }) ∧
  statusWord State.reset = 0x02000000 ∧ State.reset.op = .none ∧ State.reset.bus = .idle ∧
  step State.reset = .next State.reset

/-! ## What changes only by what -/

/-- R43: PHASE changes only by a U.PHASE micro-op, to its operand, and by block reset. -/
def Obligations.PhaseChangesOnlyByPhaseAndReset : Prop :=
  ∀ s s' : State, step s = .next s' → s'.phase ≠ s.phase →
    (∃ p, currentInstr s = some (.uPhase p) ∧ s'.phase = p) ∨
    (∃ rest, s.inputs = .blockReset :: rest ∧ s'.phase = .off)

/-- R46: REJECT is set by a CMD write while BUSY = 1, by nothing else, and cleared by a STATUS write with bit 24 = 1 or
block reset, by nothing else. -/
def Obligations.RejectIsSticky : Prop :=
  ∀ s s' : State, step s = .next s' →
    (s.reject = false → s'.reject = true →
      s.busy = true ∧ ∃ w rest, s.inputs = .host (.write 0x14 4 w) :: rest) ∧
    (s.reject = true → s'.reject = false →
      (∃ w rest, s.inputs = .host (.write 0x20 4 w) :: rest ∧ w.getLsbD 24 = true) ∨
      ∃ rest, s.inputs = .blockReset :: rest) ∧
    (∀ w rest, s.busy = true → s.inputs = .host (.write 0x14 4 w) :: rest → s'.reject = true) ∧
    (∀ w rest, s.inputs = .host (.write 0x20 4 w) :: rest → w.getLsbD 24 = true → s'.reject = false) ∧
    (∀ rest, s.inputs = .blockReset :: rest → s'.reject = false)

/-- R61, R47: the reset-line level changes only by U.RSTLINE and by block reset. -/
def Obligations.ResetLineChangesOnlyByRstlineAndReset : Prop :=
  ∀ s s' : State, step s = .next s' → s'.rstline ≠ s.rstline →
    (currentInstr s = some (.uRstline s'.rstline) ∧ s.build.hasResetLine = true) ∨
    ∃ rest, s.inputs = .blockReset :: rest

/-- R88: no step changes the profile, the parameters or the schedule ROMs. -/
def Obligations.BuildNeverChanges : Prop :=
  ∀ s s' : State, step s = .next s' → s'.build = s.build

/-- R48, R159: FBD, PRD, FRS, PLL_FREQ and PLL_BITCLK change together, in one step, only when a solve succeeds (or by
block reset). -/
def Obligations.SolutionIsAllOrNothing : Prop :=
  ∀ s s' : State, step s = .next s' →
    (s'.fbd = s.fbd ∧ s'.prd = s.prd ∧ s'.frs = s.frs ∧ s'.pllFreq = s.pllFreq ∧ s'.pllBitclk = s.pllBitclk) ∨
    (∃ rest, s.inputs = .blockReset :: rest) ∨
    ((currentInstr s = some .uSolve ∨ currentInstr s = some .hSolve) ∧ s'.valid = true ∧
      ∃ frs, bracket (targetFreq s.acfg) = some frs ∧
        let r := searchPll s.acfg.refclk.toNat frs (targetFreq s.acfg)
        r.found = true ∧ s'.fbd.toNat = r.bestFbd ∧ s'.prd.toNat = r.bestPrd ∧ s'.frs.toNat = frs ∧
        s'.pllFreq.toNat = r.bestPll ∧ s'.pllBitclk.toNat = r.bestPll / 2)

/-- R54: RD_DATA changes only by an H.REGRD that completes without error (or by block reset). -/
def Obligations.RdDataChangesOnlyByRegrd : Prop :=
  ∀ s s' : State, step s = .next s' → s'.rdData ≠ s.rdData →
    (s.op = .regrd ∧ s'.busy = false ∧ s'.err = s.err) ∨ ∃ rest, s.inputs = .blockReset :: rest

/-- R182, R184, R206, R261: while an operation runs, no host access touches it: it keeps running, with its
configuration and operands, and the results stay. The window's response is left open (log 15). -/
def Obligations.HostCannotDisturbTheOperation : Prop :=
  ∀ (s s' : State) (a : HostAccess) (rest : List Input), s.busy = true → s.inputs = .host a :: rest →
    step s = .next s' →
    s' = { s with inputs := rest, reply := s'.reply, cfg := s'.cfg, argData := s'.argData, argMask := s'.argMask,
                  reject := s'.reject }

/-! ## Invariants -/

/-- The state after block reset of any DBBE meets every invariant, `RomInv` if the DBBE is well formed. -/
def Obligations.ResetMeetsTheInvariants : Prop :=
  (∀ b : Build, ControlInv (State.resetOf b) ∧ AccessInv (State.resetOf b) ∧ PllInv (State.resetOf b) ∧
    LogInv (State.resetOf b) ∧ WaitInv (State.resetOf b) ∧ (buildWf b = true → RomInv (State.resetOf b))) ∧
  RomInv State.reset

/-- R41, R57, R180, R184: every step keeps the control state consistent. -/
def Obligations.StepKeepsControlInv : Prop :=
  ∀ s s' : State, ControlInv s → step s = .next s' → ControlInv s'

/-- R59, R83: every step keeps the outstanding transaction, and the one whose response waits, the one at S.sub of the
running instruction's access. `response`, `readData` and `waiting`: log 3, 4, 6. -/
def Obligations.StepKeepsAccessInv : Prop :=
  ∀ s s' : State, ControlInv s → AccessInv s → step s = .next s' → AccessInv s'

/-- R62: every step keeps the invariant of the PLL Solution. `REFCLK'` is the model's record (log 13). -/
def Obligations.StepKeepsPllInv : Prop :=
  ∀ s s' : State, PllInv s → step s = .next s' → PllInv s'

/-- R83, R85: every step keeps the observation legal: transactions one at a time, each answered before the next. The
form of the observation: log 16. -/
def Obligations.StepKeepsLogInv : Prop :=
  ∀ s s' : State, AccessInv s → LogInv s → step s = .next s' → LogInv s'

/-- R191, R193: every step keeps the waits' minimum between the last answer before and the first issue after. The form
of the observation: log 16. -/
def Obligations.StepKeepsWaitInv : Prop :=
  ∀ s s' : State, ControlInv s → AccessInv s → LogInv s → WaitInv s → step s = .next s' → WaitInv s'

/-- R191, R199 items 3 and 5, R256, R257: the first transaction of the micro-op after a U.WAIT is issued no earlier
than the wait's minimum after every answer before it. The form of the observation: log 16. -/
def Obligations.WaitSeparatesTransactions : Prop :=
  ∀ (s s' : State) (r : RomSel) (d : Delay) (k : Nat) (tx : Tx) (time : Nat),
    ControlInv s → AccessInv s → LogInv s → WaitInv s → step s = .next s' →
    romRunning s → s.rom = some r → s.romStep.toNat = k + 1 →
    (romWords s.build r)[k]? = some (encode (.uWait d)) → s.bus = .idle → s.response = none →
    LogEntry.issue tx time ∈ s'.log.drop s.log.length →
    ∀ a t, LogEntry.answer a t ∈ s.log → t + delayMinUs d ≤ time

/-- R186, R201: every step keeps S.step inside the ROM of a well-formed DBBE. -/
def Obligations.StepKeepsRomInv : Prop :=
  ∀ s s' : State, ControlInv s → RomInv s → step s = .next s' → RomInv s'

/-- R113, R175, R186: a well-formed DBBE never refuses an instruction and never faults: every step has a next
state. -/
def Obligations.WellFormedBlockNeverStops : Prop :=
  ∀ s : State, ControlInv s → RomInv s → ∃ s', step s = .next s'

/-! ## A whole operation -/

/-- R188, R190, R198: DISABLE of a well-formed DBBE, in an environment that holds nothing up and answers every transaction
OK with any data, ends idle in phase Off with VALID = 0, no error, STEP 9 and the reset line asserted, in at most 36
moves after its acceptance. The moves: log 2. -/
def Obligations.DisableReachesOff : Prop :=
  ∀ (s : State) (rest : List Input) (ds : List Half), ControlInv s → buildWf s.build = true → s.busy = false →
    s.bus = .idle → s.response = none → s.waiting = false → s.inputs = .host (.write 0x14 4 0x00000002) :: rest →
    36 ≤ ds.length →
    ∃ t₀ t, step s = .next t₀ ∧ helped ds t₀ = .next t ∧
      t.phase = .off ∧ t.valid = false ∧ t.busy = false ∧ t.op = .none ∧ t.err = .none ∧ t.statStep = 9 ∧
      t.lastop = 2 ∧ t.rstline = s.build.hasResetLine

/-- R185, R190, R196: ENABLE of a well-formed DBBE, with a configuration that has a PLL solution, in an environment that
holds nothing up and answers every transaction OK with any data, ends idle in phase Streaming with VALID = 1, the
solution, the derived timing, no error, STEP at the END of the ROM and the reset line released. The moves: log 2. -/
def Obligations.EnableReachesStreaming : Prop :=
  ∀ (s : State) (rest : List Input) (ds : List Half) (frs : Nat), ControlInv s → buildWf s.build = true →
    s.busy = false → s.bus = .idle → s.response = none → s.waiting = false →
    s.inputs = .host (.write 0x14 4 0x00000001) :: rest → configOk s.cfg = true →
    bracket (targetFreq s.cfg) = some frs →
    let r := searchPll s.cfg.refclk.toNat frs (targetFreq s.cfg)
    r.found = true →
    let k := s.build.profile.phyLanes.length + s.build.profile.timingFixed.length
    114 + 5 * k ≤ ds.length →
    ∃ t₀ t, step s = .next t₀ ∧ helped ds t₀ = .next t ∧
      t.phase = .streaming ∧ t.valid = true ∧ t.busy = false ∧ t.op = .none ∧ t.err = .none ∧
      t.statStep.toNat = 27 + k ∧ t.lastop = 1 ∧ t.rstline = false ∧
      t.fbd.toNat = r.bestFbd ∧ t.prd.toNat = r.bestPrd ∧ t.frs.toNat = frs ∧ t.pllFreq.toNat = r.bestPll ∧
      t.pllBitclk.toNat = r.bestPll / 2 ∧ t.timHsync.toNat = hsyncValue s.cfg (r.bestPll / 2) ∧
      t.timVsync.toNat = vsyncValue s.cfg
end

