-- ==== Sys2Proof/Laws/State.lean ====
section
/-! SUPPORT. What each record update of the machine leaves in each field of State: one lemma per field and update, so
that no proof unfolds an update. The last section says the same of the updates that branch, for the fields they never
touch. -/

namespace Sys2Proof.Machine

/-! ## rejectCmd -/

@[simp] theorem rejectCmd_build (s : State) : (rejectCmd s).build = s.build := rfl
@[simp] theorem rejectCmd_cfg (s : State) : (rejectCmd s).cfg = s.cfg := rfl
@[simp] theorem rejectCmd_argData (s : State) : (rejectCmd s).argData = s.argData := rfl
@[simp] theorem rejectCmd_argMask (s : State) : (rejectCmd s).argMask = s.argMask := rfl
@[simp] theorem rejectCmd_busy (s : State) : (rejectCmd s).busy = s.busy := rfl
@[simp] theorem rejectCmd_err (s : State) : (rejectCmd s).err = s.err := rfl
@[simp] theorem rejectCmd_phase (s : State) : (rejectCmd s).phase = s.phase := rfl
@[simp] theorem rejectCmd_lastop (s : State) : (rejectCmd s).lastop = s.lastop := rfl
@[simp] theorem rejectCmd_statStep (s : State) : (rejectCmd s).statStep = s.statStep := rfl
@[simp] theorem rejectCmd_reject (s : State) : (rejectCmd s).reject = true := rfl
@[simp] theorem rejectCmd_rstline (s : State) : (rejectCmd s).rstline = s.rstline := rfl
@[simp] theorem rejectCmd_fbd (s : State) : (rejectCmd s).fbd = s.fbd := rfl
@[simp] theorem rejectCmd_prd (s : State) : (rejectCmd s).prd = s.prd := rfl
@[simp] theorem rejectCmd_frs (s : State) : (rejectCmd s).frs = s.frs := rfl
@[simp] theorem rejectCmd_valid (s : State) : (rejectCmd s).valid = s.valid := rfl
@[simp] theorem rejectCmd_pllFreq (s : State) : (rejectCmd s).pllFreq = s.pllFreq := rfl
@[simp] theorem rejectCmd_pllBitclk (s : State) : (rejectCmd s).pllBitclk = s.pllBitclk := rfl
@[simp] theorem rejectCmd_pllRefclk (s : State) : (rejectCmd s).pllRefclk = s.pllRefclk := rfl
@[simp] theorem rejectCmd_target (s : State) : (rejectCmd s).target = s.target := rfl
@[simp] theorem rejectCmd_timHsync (s : State) : (rejectCmd s).timHsync = s.timHsync := rfl
@[simp] theorem rejectCmd_timVsync (s : State) : (rejectCmd s).timVsync = s.timVsync := rfl
@[simp] theorem rejectCmd_rdData (s : State) : (rejectCmd s).rdData = s.rdData := rfl
@[simp] theorem rejectCmd_acfg (s : State) : (rejectCmd s).acfg = s.acfg := rfl
@[simp] theorem rejectCmd_arg (s : State) : (rejectCmd s).arg = s.arg := rfl
@[simp] theorem rejectCmd_op (s : State) : (rejectCmd s).op = s.op := rfl
@[simp] theorem rejectCmd_rom (s : State) : (rejectCmd s).rom = s.rom := rfl
@[simp] theorem rejectCmd_romStep (s : State) : (rejectCmd s).romStep = s.romStep := rfl
@[simp] theorem rejectCmd_search (s : State) : (rejectCmd s).search = s.search := rfl
@[simp] theorem rejectCmd_solveDone (s : State) : (rejectCmd s).solveDone = s.solveDone := rfl
@[simp] theorem rejectCmd_bus (s : State) : (rejectCmd s).bus = s.bus := rfl
@[simp] theorem rejectCmd_response (s : State) : (rejectCmd s).response = s.response := rfl
@[simp] theorem rejectCmd_sub (s : State) : (rejectCmd s).sub = s.sub := rfl
@[simp] theorem rejectCmd_readData (s : State) : (rejectCmd s).readData = s.readData := rfl
@[simp] theorem rejectCmd_waiting (s : State) : (rejectCmd s).waiting = s.waiting := rfl
@[simp] theorem rejectCmd_waitStart (s : State) : (rejectCmd s).waitStart = s.waitStart := rfl
@[simp] theorem rejectCmd_now (s : State) : (rejectCmd s).now = s.now := rfl
@[simp] theorem rejectCmd_inputs (s : State) : (rejectCmd s).inputs = s.inputs := rfl
@[simp] theorem rejectCmd_log (s : State) : (rejectCmd s).log = s.log := rfl
@[simp] theorem rejectCmd_reply (s : State) : (rejectCmd s).reply = s.reply := rfl

/-! ## beginCommand -/

@[simp] theorem beginCommand_build (c : BitVec 4) (s : State) : (beginCommand c s).build = s.build := rfl
@[simp] theorem beginCommand_cfg (c : BitVec 4) (s : State) : (beginCommand c s).cfg = s.cfg := rfl
@[simp] theorem beginCommand_argData (c : BitVec 4) (s : State) : (beginCommand c s).argData = s.argData := rfl
@[simp] theorem beginCommand_argMask (c : BitVec 4) (s : State) : (beginCommand c s).argMask = s.argMask := rfl
@[simp] theorem beginCommand_busy (c : BitVec 4) (s : State) : (beginCommand c s).busy = s.busy := rfl
@[simp] theorem beginCommand_err (c : BitVec 4) (s : State) : (beginCommand c s).err = ErrKind.none := rfl
@[simp] theorem beginCommand_phase (c : BitVec 4) (s : State) : (beginCommand c s).phase = s.phase := rfl
@[simp] theorem beginCommand_lastop (c : BitVec 4) (s : State) : (beginCommand c s).lastop = c := rfl
@[simp] theorem beginCommand_statStep (c : BitVec 4) (s : State) : (beginCommand c s).statStep = 0 := rfl
@[simp] theorem beginCommand_reject (c : BitVec 4) (s : State) : (beginCommand c s).reject = s.reject := rfl
@[simp] theorem beginCommand_rstline (c : BitVec 4) (s : State) : (beginCommand c s).rstline = s.rstline := rfl
@[simp] theorem beginCommand_fbd (c : BitVec 4) (s : State) : (beginCommand c s).fbd = s.fbd := rfl
@[simp] theorem beginCommand_prd (c : BitVec 4) (s : State) : (beginCommand c s).prd = s.prd := rfl
@[simp] theorem beginCommand_frs (c : BitVec 4) (s : State) : (beginCommand c s).frs = s.frs := rfl
@[simp] theorem beginCommand_valid (c : BitVec 4) (s : State) : (beginCommand c s).valid = s.valid := rfl
@[simp] theorem beginCommand_pllFreq (c : BitVec 4) (s : State) : (beginCommand c s).pllFreq = s.pllFreq := rfl
@[simp] theorem beginCommand_pllBitclk (c : BitVec 4) (s : State) : (beginCommand c s).pllBitclk = s.pllBitclk := rfl
@[simp] theorem beginCommand_pllRefclk (c : BitVec 4) (s : State) : (beginCommand c s).pllRefclk = s.pllRefclk := rfl
@[simp] theorem beginCommand_target (c : BitVec 4) (s : State) : (beginCommand c s).target = s.target := rfl
@[simp] theorem beginCommand_timHsync (c : BitVec 4) (s : State) : (beginCommand c s).timHsync = s.timHsync := rfl
@[simp] theorem beginCommand_timVsync (c : BitVec 4) (s : State) : (beginCommand c s).timVsync = s.timVsync := rfl
@[simp] theorem beginCommand_rdData (c : BitVec 4) (s : State) : (beginCommand c s).rdData = s.rdData := rfl
@[simp] theorem beginCommand_acfg (c : BitVec 4) (s : State) : (beginCommand c s).acfg = s.acfg := rfl
@[simp] theorem beginCommand_arg (c : BitVec 4) (s : State) : (beginCommand c s).arg = s.arg := rfl
@[simp] theorem beginCommand_op (c : BitVec 4) (s : State) : (beginCommand c s).op = s.op := rfl
@[simp] theorem beginCommand_rom (c : BitVec 4) (s : State) : (beginCommand c s).rom = s.rom := rfl
@[simp] theorem beginCommand_romStep (c : BitVec 4) (s : State) : (beginCommand c s).romStep = s.romStep := rfl
@[simp] theorem beginCommand_search (c : BitVec 4) (s : State) : (beginCommand c s).search = s.search := rfl
@[simp] theorem beginCommand_solveDone (c : BitVec 4) (s : State) : (beginCommand c s).solveDone = s.solveDone := rfl
@[simp] theorem beginCommand_bus (c : BitVec 4) (s : State) : (beginCommand c s).bus = s.bus := rfl
@[simp] theorem beginCommand_response (c : BitVec 4) (s : State) : (beginCommand c s).response = s.response := rfl
@[simp] theorem beginCommand_sub (c : BitVec 4) (s : State) : (beginCommand c s).sub = s.sub := rfl
@[simp] theorem beginCommand_readData (c : BitVec 4) (s : State) : (beginCommand c s).readData = s.readData := rfl
@[simp] theorem beginCommand_waiting (c : BitVec 4) (s : State) : (beginCommand c s).waiting = s.waiting := rfl
@[simp] theorem beginCommand_waitStart (c : BitVec 4) (s : State) : (beginCommand c s).waitStart = s.waitStart := rfl
@[simp] theorem beginCommand_now (c : BitVec 4) (s : State) : (beginCommand c s).now = s.now := rfl
@[simp] theorem beginCommand_inputs (c : BitVec 4) (s : State) : (beginCommand c s).inputs = s.inputs := rfl
@[simp] theorem beginCommand_log (c : BitVec 4) (s : State) : (beginCommand c s).log = s.log := rfl
@[simp] theorem beginCommand_reply (c : BitVec 4) (s : State) : (beginCommand c s).reply = s.reply := rfl

/-! ## refuseCommand -/

@[simp] theorem refuseCommand_build (e : ErrKind) (s : State) : (refuseCommand e s).build = s.build := rfl
@[simp] theorem refuseCommand_cfg (e : ErrKind) (s : State) : (refuseCommand e s).cfg = s.cfg := rfl
@[simp] theorem refuseCommand_argData (e : ErrKind) (s : State) : (refuseCommand e s).argData = s.argData := rfl
@[simp] theorem refuseCommand_argMask (e : ErrKind) (s : State) : (refuseCommand e s).argMask = s.argMask := rfl
@[simp] theorem refuseCommand_busy (e : ErrKind) (s : State) : (refuseCommand e s).busy = s.busy := rfl
@[simp] theorem refuseCommand_err (e : ErrKind) (s : State) : (refuseCommand e s).err = e := rfl
@[simp] theorem refuseCommand_phase (e : ErrKind) (s : State) : (refuseCommand e s).phase = s.phase := rfl
@[simp] theorem refuseCommand_lastop (e : ErrKind) (s : State) : (refuseCommand e s).lastop = s.lastop := rfl
@[simp] theorem refuseCommand_statStep (e : ErrKind) (s : State) : (refuseCommand e s).statStep = s.statStep := rfl
@[simp] theorem refuseCommand_reject (e : ErrKind) (s : State) : (refuseCommand e s).reject = s.reject := rfl
@[simp] theorem refuseCommand_rstline (e : ErrKind) (s : State) : (refuseCommand e s).rstline = s.rstline := rfl
@[simp] theorem refuseCommand_fbd (e : ErrKind) (s : State) : (refuseCommand e s).fbd = s.fbd := rfl
@[simp] theorem refuseCommand_prd (e : ErrKind) (s : State) : (refuseCommand e s).prd = s.prd := rfl
@[simp] theorem refuseCommand_frs (e : ErrKind) (s : State) : (refuseCommand e s).frs = s.frs := rfl
@[simp] theorem refuseCommand_valid (e : ErrKind) (s : State) : (refuseCommand e s).valid = s.valid := rfl
@[simp] theorem refuseCommand_pllFreq (e : ErrKind) (s : State) : (refuseCommand e s).pllFreq = s.pllFreq := rfl
@[simp] theorem refuseCommand_pllBitclk (e : ErrKind) (s : State) : (refuseCommand e s).pllBitclk = s.pllBitclk := rfl
@[simp] theorem refuseCommand_pllRefclk (e : ErrKind) (s : State) : (refuseCommand e s).pllRefclk = s.pllRefclk := rfl
@[simp] theorem refuseCommand_target (e : ErrKind) (s : State) : (refuseCommand e s).target = s.target := rfl
@[simp] theorem refuseCommand_timHsync (e : ErrKind) (s : State) : (refuseCommand e s).timHsync = s.timHsync := rfl
@[simp] theorem refuseCommand_timVsync (e : ErrKind) (s : State) : (refuseCommand e s).timVsync = s.timVsync := rfl
@[simp] theorem refuseCommand_rdData (e : ErrKind) (s : State) : (refuseCommand e s).rdData = s.rdData := rfl
@[simp] theorem refuseCommand_acfg (e : ErrKind) (s : State) : (refuseCommand e s).acfg = s.acfg := rfl
@[simp] theorem refuseCommand_arg (e : ErrKind) (s : State) : (refuseCommand e s).arg = s.arg := rfl
@[simp] theorem refuseCommand_op (e : ErrKind) (s : State) : (refuseCommand e s).op = s.op := rfl
@[simp] theorem refuseCommand_rom (e : ErrKind) (s : State) : (refuseCommand e s).rom = s.rom := rfl
@[simp] theorem refuseCommand_romStep (e : ErrKind) (s : State) : (refuseCommand e s).romStep = s.romStep := rfl
@[simp] theorem refuseCommand_search (e : ErrKind) (s : State) : (refuseCommand e s).search = s.search := rfl
@[simp] theorem refuseCommand_solveDone (e : ErrKind) (s : State) : (refuseCommand e s).solveDone = s.solveDone := rfl
@[simp] theorem refuseCommand_bus (e : ErrKind) (s : State) : (refuseCommand e s).bus = s.bus := rfl
@[simp] theorem refuseCommand_response (e : ErrKind) (s : State) : (refuseCommand e s).response = s.response := rfl
@[simp] theorem refuseCommand_sub (e : ErrKind) (s : State) : (refuseCommand e s).sub = s.sub := rfl
@[simp] theorem refuseCommand_readData (e : ErrKind) (s : State) : (refuseCommand e s).readData = s.readData := rfl
@[simp] theorem refuseCommand_waiting (e : ErrKind) (s : State) : (refuseCommand e s).waiting = s.waiting := rfl
@[simp] theorem refuseCommand_waitStart (e : ErrKind) (s : State) : (refuseCommand e s).waitStart = s.waitStart := rfl
@[simp] theorem refuseCommand_now (e : ErrKind) (s : State) : (refuseCommand e s).now = s.now := rfl
@[simp] theorem refuseCommand_inputs (e : ErrKind) (s : State) : (refuseCommand e s).inputs = s.inputs := rfl
@[simp] theorem refuseCommand_log (e : ErrKind) (s : State) : (refuseCommand e s).log = s.log := rfl
@[simp] theorem refuseCommand_reply (e : ErrKind) (s : State) : (refuseCommand e s).reply = s.reply := rfl

/-! ## startOp -/

@[simp] theorem startOp_build (k : OpKind) (s : State) : (startOp k s).build = s.build := rfl
@[simp] theorem startOp_cfg (k : OpKind) (s : State) : (startOp k s).cfg = s.cfg := rfl
@[simp] theorem startOp_argData (k : OpKind) (s : State) : (startOp k s).argData = s.argData := rfl
@[simp] theorem startOp_argMask (k : OpKind) (s : State) : (startOp k s).argMask = s.argMask := rfl
@[simp] theorem startOp_busy (k : OpKind) (s : State) : (startOp k s).busy = true := rfl
@[simp] theorem startOp_err (k : OpKind) (s : State) : (startOp k s).err = s.err := rfl
@[simp] theorem startOp_phase (k : OpKind) (s : State) : (startOp k s).phase = s.phase := rfl
@[simp] theorem startOp_lastop (k : OpKind) (s : State) : (startOp k s).lastop = s.lastop := rfl
@[simp] theorem startOp_statStep (k : OpKind) (s : State) : (startOp k s).statStep = s.statStep := rfl
@[simp] theorem startOp_reject (k : OpKind) (s : State) : (startOp k s).reject = s.reject := rfl
@[simp] theorem startOp_rstline (k : OpKind) (s : State) : (startOp k s).rstline = s.rstline := rfl
@[simp] theorem startOp_fbd (k : OpKind) (s : State) : (startOp k s).fbd = s.fbd := rfl
@[simp] theorem startOp_prd (k : OpKind) (s : State) : (startOp k s).prd = s.prd := rfl
@[simp] theorem startOp_frs (k : OpKind) (s : State) : (startOp k s).frs = s.frs := rfl
@[simp] theorem startOp_valid (k : OpKind) (s : State) : (startOp k s).valid = s.valid := rfl
@[simp] theorem startOp_pllFreq (k : OpKind) (s : State) : (startOp k s).pllFreq = s.pllFreq := rfl
@[simp] theorem startOp_pllBitclk (k : OpKind) (s : State) : (startOp k s).pllBitclk = s.pllBitclk := rfl
@[simp] theorem startOp_pllRefclk (k : OpKind) (s : State) : (startOp k s).pllRefclk = s.pllRefclk := rfl
@[simp] theorem startOp_target (k : OpKind) (s : State) : (startOp k s).target = s.target := rfl
@[simp] theorem startOp_timHsync (k : OpKind) (s : State) : (startOp k s).timHsync = s.timHsync := rfl
@[simp] theorem startOp_timVsync (k : OpKind) (s : State) : (startOp k s).timVsync = s.timVsync := rfl
@[simp] theorem startOp_rdData (k : OpKind) (s : State) : (startOp k s).rdData = s.rdData := rfl
@[simp] theorem startOp_acfg (k : OpKind) (s : State) : (startOp k s).acfg = s.acfg := rfl
@[simp] theorem startOp_arg (k : OpKind) (s : State) : (startOp k s).arg = s.arg := rfl
@[simp] theorem startOp_op (k : OpKind) (s : State) : (startOp k s).op = k := rfl
@[simp] theorem startOp_rom (k : OpKind) (s : State) : (startOp k s).rom = s.rom := rfl
@[simp] theorem startOp_romStep (k : OpKind) (s : State) : (startOp k s).romStep = s.romStep := rfl
@[simp] theorem startOp_search (k : OpKind) (s : State) : (startOp k s).search = s.search := rfl
@[simp] theorem startOp_solveDone (k : OpKind) (s : State) : (startOp k s).solveDone = s.solveDone := rfl
@[simp] theorem startOp_bus (k : OpKind) (s : State) : (startOp k s).bus = s.bus := rfl
@[simp] theorem startOp_response (k : OpKind) (s : State) : (startOp k s).response = s.response := rfl
@[simp] theorem startOp_sub (k : OpKind) (s : State) : (startOp k s).sub = s.sub := rfl
@[simp] theorem startOp_readData (k : OpKind) (s : State) : (startOp k s).readData = s.readData := rfl
@[simp] theorem startOp_waiting (k : OpKind) (s : State) : (startOp k s).waiting = s.waiting := rfl
@[simp] theorem startOp_waitStart (k : OpKind) (s : State) : (startOp k s).waitStart = s.waitStart := rfl
@[simp] theorem startOp_now (k : OpKind) (s : State) : (startOp k s).now = s.now := rfl
@[simp] theorem startOp_inputs (k : OpKind) (s : State) : (startOp k s).inputs = s.inputs := rfl
@[simp] theorem startOp_log (k : OpKind) (s : State) : (startOp k s).log = s.log := rfl
@[simp] theorem startOp_reply (k : OpKind) (s : State) : (startOp k s).reply = s.reply := rfl

/-! ## latchConfig -/

@[simp] theorem latchConfig_build (s : State) : (latchConfig s).build = s.build := rfl
@[simp] theorem latchConfig_cfg (s : State) : (latchConfig s).cfg = s.cfg := rfl
@[simp] theorem latchConfig_argData (s : State) : (latchConfig s).argData = s.argData := rfl
@[simp] theorem latchConfig_argMask (s : State) : (latchConfig s).argMask = s.argMask := rfl
@[simp] theorem latchConfig_busy (s : State) : (latchConfig s).busy = s.busy := rfl
@[simp] theorem latchConfig_err (s : State) : (latchConfig s).err = s.err := rfl
@[simp] theorem latchConfig_phase (s : State) : (latchConfig s).phase = s.phase := rfl
@[simp] theorem latchConfig_lastop (s : State) : (latchConfig s).lastop = s.lastop := rfl
@[simp] theorem latchConfig_statStep (s : State) : (latchConfig s).statStep = s.statStep := rfl
@[simp] theorem latchConfig_reject (s : State) : (latchConfig s).reject = s.reject := rfl
@[simp] theorem latchConfig_rstline (s : State) : (latchConfig s).rstline = s.rstline := rfl
@[simp] theorem latchConfig_fbd (s : State) : (latchConfig s).fbd = s.fbd := rfl
@[simp] theorem latchConfig_prd (s : State) : (latchConfig s).prd = s.prd := rfl
@[simp] theorem latchConfig_frs (s : State) : (latchConfig s).frs = s.frs := rfl
@[simp] theorem latchConfig_valid (s : State) : (latchConfig s).valid = s.valid := rfl
@[simp] theorem latchConfig_pllFreq (s : State) : (latchConfig s).pllFreq = s.pllFreq := rfl
@[simp] theorem latchConfig_pllBitclk (s : State) : (latchConfig s).pllBitclk = s.pllBitclk := rfl
@[simp] theorem latchConfig_pllRefclk (s : State) : (latchConfig s).pllRefclk = s.pllRefclk := rfl
@[simp] theorem latchConfig_target (s : State) : (latchConfig s).target = s.target := rfl
@[simp] theorem latchConfig_timHsync (s : State) : (latchConfig s).timHsync = s.timHsync := rfl
@[simp] theorem latchConfig_timVsync (s : State) : (latchConfig s).timVsync = s.timVsync := rfl
@[simp] theorem latchConfig_rdData (s : State) : (latchConfig s).rdData = s.rdData := rfl
@[simp] theorem latchConfig_acfg (s : State) : (latchConfig s).acfg = s.cfg := rfl
@[simp] theorem latchConfig_arg (s : State) : (latchConfig s).arg = s.arg := rfl
@[simp] theorem latchConfig_op (s : State) : (latchConfig s).op = s.op := rfl
@[simp] theorem latchConfig_rom (s : State) : (latchConfig s).rom = s.rom := rfl
@[simp] theorem latchConfig_romStep (s : State) : (latchConfig s).romStep = s.romStep := rfl
@[simp] theorem latchConfig_search (s : State) : (latchConfig s).search = s.search := rfl
@[simp] theorem latchConfig_solveDone (s : State) : (latchConfig s).solveDone = s.solveDone := rfl
@[simp] theorem latchConfig_bus (s : State) : (latchConfig s).bus = s.bus := rfl
@[simp] theorem latchConfig_response (s : State) : (latchConfig s).response = s.response := rfl
@[simp] theorem latchConfig_sub (s : State) : (latchConfig s).sub = s.sub := rfl
@[simp] theorem latchConfig_readData (s : State) : (latchConfig s).readData = s.readData := rfl
@[simp] theorem latchConfig_waiting (s : State) : (latchConfig s).waiting = s.waiting := rfl
@[simp] theorem latchConfig_waitStart (s : State) : (latchConfig s).waitStart = s.waitStart := rfl
@[simp] theorem latchConfig_now (s : State) : (latchConfig s).now = s.now := rfl
@[simp] theorem latchConfig_inputs (s : State) : (latchConfig s).inputs = s.inputs := rfl
@[simp] theorem latchConfig_log (s : State) : (latchConfig s).log = s.log := rfl
@[simp] theorem latchConfig_reply (s : State) : (latchConfig s).reply = s.reply := rfl

/-! ## latchAccess -/

@[simp] theorem latchAccess_build (a : Addr) (s : State) : (latchAccess a s).build = s.build := rfl
@[simp] theorem latchAccess_cfg (a : Addr) (s : State) : (latchAccess a s).cfg = s.cfg := rfl
@[simp] theorem latchAccess_argData (a : Addr) (s : State) : (latchAccess a s).argData = s.argData := rfl
@[simp] theorem latchAccess_argMask (a : Addr) (s : State) : (latchAccess a s).argMask = s.argMask := rfl
@[simp] theorem latchAccess_busy (a : Addr) (s : State) : (latchAccess a s).busy = s.busy := rfl
@[simp] theorem latchAccess_err (a : Addr) (s : State) : (latchAccess a s).err = s.err := rfl
@[simp] theorem latchAccess_phase (a : Addr) (s : State) : (latchAccess a s).phase = s.phase := rfl
@[simp] theorem latchAccess_lastop (a : Addr) (s : State) : (latchAccess a s).lastop = s.lastop := rfl
@[simp] theorem latchAccess_statStep (a : Addr) (s : State) : (latchAccess a s).statStep = s.statStep := rfl
@[simp] theorem latchAccess_reject (a : Addr) (s : State) : (latchAccess a s).reject = s.reject := rfl
@[simp] theorem latchAccess_rstline (a : Addr) (s : State) : (latchAccess a s).rstline = s.rstline := rfl
@[simp] theorem latchAccess_fbd (a : Addr) (s : State) : (latchAccess a s).fbd = s.fbd := rfl
@[simp] theorem latchAccess_prd (a : Addr) (s : State) : (latchAccess a s).prd = s.prd := rfl
@[simp] theorem latchAccess_frs (a : Addr) (s : State) : (latchAccess a s).frs = s.frs := rfl
@[simp] theorem latchAccess_valid (a : Addr) (s : State) : (latchAccess a s).valid = s.valid := rfl
@[simp] theorem latchAccess_pllFreq (a : Addr) (s : State) : (latchAccess a s).pllFreq = s.pllFreq := rfl
@[simp] theorem latchAccess_pllBitclk (a : Addr) (s : State) : (latchAccess a s).pllBitclk = s.pllBitclk := rfl
@[simp] theorem latchAccess_pllRefclk (a : Addr) (s : State) : (latchAccess a s).pllRefclk = s.pllRefclk := rfl
@[simp] theorem latchAccess_target (a : Addr) (s : State) : (latchAccess a s).target = s.target := rfl
@[simp] theorem latchAccess_timHsync (a : Addr) (s : State) : (latchAccess a s).timHsync = s.timHsync := rfl
@[simp] theorem latchAccess_timVsync (a : Addr) (s : State) : (latchAccess a s).timVsync = s.timVsync := rfl
@[simp] theorem latchAccess_rdData (a : Addr) (s : State) : (latchAccess a s).rdData = s.rdData := rfl
@[simp] theorem latchAccess_acfg (a : Addr) (s : State) : (latchAccess a s).acfg = s.acfg := rfl
@[simp] theorem latchAccess_arg (a : Addr) (s : State) :
    (latchAccess a s).arg = { s.arg with addr := a, data := s.argData, mask := s.argMask } := rfl
@[simp] theorem latchAccess_op (a : Addr) (s : State) : (latchAccess a s).op = s.op := rfl
@[simp] theorem latchAccess_rom (a : Addr) (s : State) : (latchAccess a s).rom = s.rom := rfl
@[simp] theorem latchAccess_romStep (a : Addr) (s : State) : (latchAccess a s).romStep = s.romStep := rfl
@[simp] theorem latchAccess_search (a : Addr) (s : State) : (latchAccess a s).search = s.search := rfl
@[simp] theorem latchAccess_solveDone (a : Addr) (s : State) : (latchAccess a s).solveDone = s.solveDone := rfl
@[simp] theorem latchAccess_bus (a : Addr) (s : State) : (latchAccess a s).bus = s.bus := rfl
@[simp] theorem latchAccess_response (a : Addr) (s : State) : (latchAccess a s).response = s.response := rfl
@[simp] theorem latchAccess_sub (a : Addr) (s : State) : (latchAccess a s).sub = s.sub := rfl
@[simp] theorem latchAccess_readData (a : Addr) (s : State) : (latchAccess a s).readData = s.readData := rfl
@[simp] theorem latchAccess_waiting (a : Addr) (s : State) : (latchAccess a s).waiting = s.waiting := rfl
@[simp] theorem latchAccess_waitStart (a : Addr) (s : State) : (latchAccess a s).waitStart = s.waitStart := rfl
@[simp] theorem latchAccess_now (a : Addr) (s : State) : (latchAccess a s).now = s.now := rfl
@[simp] theorem latchAccess_inputs (a : Addr) (s : State) : (latchAccess a s).inputs = s.inputs := rfl
@[simp] theorem latchAccess_log (a : Addr) (s : State) : (latchAccess a s).log = s.log := rfl
@[simp] theorem latchAccess_reply (a : Addr) (s : State) : (latchAccess a s).reply = s.reply := rfl

/-! ## latchShort -/

@[simp] theorem latchShort_build (c p0 p1 : Byte) (s : State) : (latchShort c p0 p1 s).build = s.build := rfl
@[simp] theorem latchShort_cfg (c p0 p1 : Byte) (s : State) : (latchShort c p0 p1 s).cfg = s.cfg := rfl
@[simp] theorem latchShort_argData (c p0 p1 : Byte) (s : State) : (latchShort c p0 p1 s).argData = s.argData := rfl
@[simp] theorem latchShort_argMask (c p0 p1 : Byte) (s : State) : (latchShort c p0 p1 s).argMask = s.argMask := rfl
@[simp] theorem latchShort_busy (c p0 p1 : Byte) (s : State) : (latchShort c p0 p1 s).busy = s.busy := rfl
@[simp] theorem latchShort_err (c p0 p1 : Byte) (s : State) : (latchShort c p0 p1 s).err = s.err := rfl
@[simp] theorem latchShort_phase (c p0 p1 : Byte) (s : State) : (latchShort c p0 p1 s).phase = s.phase := rfl
@[simp] theorem latchShort_lastop (c p0 p1 : Byte) (s : State) : (latchShort c p0 p1 s).lastop = s.lastop := rfl
@[simp] theorem latchShort_statStep (c p0 p1 : Byte) (s : State) : (latchShort c p0 p1 s).statStep = s.statStep := rfl
@[simp] theorem latchShort_reject (c p0 p1 : Byte) (s : State) : (latchShort c p0 p1 s).reject = s.reject := rfl
@[simp] theorem latchShort_rstline (c p0 p1 : Byte) (s : State) : (latchShort c p0 p1 s).rstline = s.rstline := rfl
@[simp] theorem latchShort_fbd (c p0 p1 : Byte) (s : State) : (latchShort c p0 p1 s).fbd = s.fbd := rfl
@[simp] theorem latchShort_prd (c p0 p1 : Byte) (s : State) : (latchShort c p0 p1 s).prd = s.prd := rfl
@[simp] theorem latchShort_frs (c p0 p1 : Byte) (s : State) : (latchShort c p0 p1 s).frs = s.frs := rfl
@[simp] theorem latchShort_valid (c p0 p1 : Byte) (s : State) : (latchShort c p0 p1 s).valid = s.valid := rfl
@[simp] theorem latchShort_pllFreq (c p0 p1 : Byte) (s : State) : (latchShort c p0 p1 s).pllFreq = s.pllFreq := rfl
@[simp] theorem latchShort_pllBitclk (c p0 p1 : Byte) (s : State) :
    (latchShort c p0 p1 s).pllBitclk = s.pllBitclk := rfl
@[simp] theorem latchShort_pllRefclk (c p0 p1 : Byte) (s : State) :
    (latchShort c p0 p1 s).pllRefclk = s.pllRefclk := rfl
@[simp] theorem latchShort_target (c p0 p1 : Byte) (s : State) : (latchShort c p0 p1 s).target = s.target := rfl
@[simp] theorem latchShort_timHsync (c p0 p1 : Byte) (s : State) : (latchShort c p0 p1 s).timHsync = s.timHsync := rfl
@[simp] theorem latchShort_timVsync (c p0 p1 : Byte) (s : State) : (latchShort c p0 p1 s).timVsync = s.timVsync := rfl
@[simp] theorem latchShort_rdData (c p0 p1 : Byte) (s : State) : (latchShort c p0 p1 s).rdData = s.rdData := rfl
@[simp] theorem latchShort_acfg (c p0 p1 : Byte) (s : State) : (latchShort c p0 p1 s).acfg = s.acfg := rfl
@[simp] theorem latchShort_arg (c p0 p1 : Byte) (s : State) :
    (latchShort c p0 p1 s).arg = { s.arg with commandId := c, param0 := p0, param1 := p1 } := rfl
@[simp] theorem latchShort_op (c p0 p1 : Byte) (s : State) : (latchShort c p0 p1 s).op = s.op := rfl
@[simp] theorem latchShort_rom (c p0 p1 : Byte) (s : State) : (latchShort c p0 p1 s).rom = s.rom := rfl
@[simp] theorem latchShort_romStep (c p0 p1 : Byte) (s : State) : (latchShort c p0 p1 s).romStep = s.romStep := rfl
@[simp] theorem latchShort_search (c p0 p1 : Byte) (s : State) : (latchShort c p0 p1 s).search = s.search := rfl
@[simp] theorem latchShort_solveDone (c p0 p1 : Byte) (s : State) :
    (latchShort c p0 p1 s).solveDone = s.solveDone := rfl
@[simp] theorem latchShort_bus (c p0 p1 : Byte) (s : State) : (latchShort c p0 p1 s).bus = s.bus := rfl
@[simp] theorem latchShort_response (c p0 p1 : Byte) (s : State) : (latchShort c p0 p1 s).response = s.response := rfl
@[simp] theorem latchShort_sub (c p0 p1 : Byte) (s : State) : (latchShort c p0 p1 s).sub = s.sub := rfl
@[simp] theorem latchShort_readData (c p0 p1 : Byte) (s : State) : (latchShort c p0 p1 s).readData = s.readData := rfl
@[simp] theorem latchShort_waiting (c p0 p1 : Byte) (s : State) : (latchShort c p0 p1 s).waiting = s.waiting := rfl
@[simp] theorem latchShort_waitStart (c p0 p1 : Byte) (s : State) :
    (latchShort c p0 p1 s).waitStart = s.waitStart := rfl
@[simp] theorem latchShort_now (c p0 p1 : Byte) (s : State) : (latchShort c p0 p1 s).now = s.now := rfl
@[simp] theorem latchShort_inputs (c p0 p1 : Byte) (s : State) : (latchShort c p0 p1 s).inputs = s.inputs := rfl
@[simp] theorem latchShort_log (c p0 p1 : Byte) (s : State) : (latchShort c p0 p1 s).log = s.log := rfl
@[simp] theorem latchShort_reply (c p0 p1 : Byte) (s : State) : (latchShort c p0 p1 s).reply = s.reply := rfl

/-! ## selectRom -/

@[simp] theorem selectRom_build (r : RomSel) (s : State) : (selectRom r s).build = s.build := rfl
@[simp] theorem selectRom_cfg (r : RomSel) (s : State) : (selectRom r s).cfg = s.cfg := rfl
@[simp] theorem selectRom_argData (r : RomSel) (s : State) : (selectRom r s).argData = s.argData := rfl
@[simp] theorem selectRom_argMask (r : RomSel) (s : State) : (selectRom r s).argMask = s.argMask := rfl
@[simp] theorem selectRom_busy (r : RomSel) (s : State) : (selectRom r s).busy = s.busy := rfl
@[simp] theorem selectRom_err (r : RomSel) (s : State) : (selectRom r s).err = s.err := rfl
@[simp] theorem selectRom_phase (r : RomSel) (s : State) : (selectRom r s).phase = s.phase := rfl
@[simp] theorem selectRom_lastop (r : RomSel) (s : State) : (selectRom r s).lastop = s.lastop := rfl
@[simp] theorem selectRom_statStep (r : RomSel) (s : State) : (selectRom r s).statStep = s.statStep := rfl
@[simp] theorem selectRom_reject (r : RomSel) (s : State) : (selectRom r s).reject = s.reject := rfl
@[simp] theorem selectRom_rstline (r : RomSel) (s : State) : (selectRom r s).rstline = s.rstline := rfl
@[simp] theorem selectRom_fbd (r : RomSel) (s : State) : (selectRom r s).fbd = s.fbd := rfl
@[simp] theorem selectRom_prd (r : RomSel) (s : State) : (selectRom r s).prd = s.prd := rfl
@[simp] theorem selectRom_frs (r : RomSel) (s : State) : (selectRom r s).frs = s.frs := rfl
@[simp] theorem selectRom_valid (r : RomSel) (s : State) : (selectRom r s).valid = s.valid := rfl
@[simp] theorem selectRom_pllFreq (r : RomSel) (s : State) : (selectRom r s).pllFreq = s.pllFreq := rfl
@[simp] theorem selectRom_pllBitclk (r : RomSel) (s : State) : (selectRom r s).pllBitclk = s.pllBitclk := rfl
@[simp] theorem selectRom_pllRefclk (r : RomSel) (s : State) : (selectRom r s).pllRefclk = s.pllRefclk := rfl
@[simp] theorem selectRom_target (r : RomSel) (s : State) : (selectRom r s).target = s.target := rfl
@[simp] theorem selectRom_timHsync (r : RomSel) (s : State) : (selectRom r s).timHsync = s.timHsync := rfl
@[simp] theorem selectRom_timVsync (r : RomSel) (s : State) : (selectRom r s).timVsync = s.timVsync := rfl
@[simp] theorem selectRom_rdData (r : RomSel) (s : State) : (selectRom r s).rdData = s.rdData := rfl
@[simp] theorem selectRom_acfg (r : RomSel) (s : State) : (selectRom r s).acfg = s.acfg := rfl
@[simp] theorem selectRom_arg (r : RomSel) (s : State) : (selectRom r s).arg = s.arg := rfl
@[simp] theorem selectRom_op (r : RomSel) (s : State) : (selectRom r s).op = s.op := rfl
@[simp] theorem selectRom_rom (r : RomSel) (s : State) : (selectRom r s).rom = some r := rfl
@[simp] theorem selectRom_romStep (r : RomSel) (s : State) : (selectRom r s).romStep = 0 := rfl
@[simp] theorem selectRom_search (r : RomSel) (s : State) : (selectRom r s).search = s.search := rfl
@[simp] theorem selectRom_solveDone (r : RomSel) (s : State) : (selectRom r s).solveDone = s.solveDone := rfl
@[simp] theorem selectRom_bus (r : RomSel) (s : State) : (selectRom r s).bus = s.bus := rfl
@[simp] theorem selectRom_response (r : RomSel) (s : State) : (selectRom r s).response = s.response := rfl
@[simp] theorem selectRom_sub (r : RomSel) (s : State) : (selectRom r s).sub = s.sub := rfl
@[simp] theorem selectRom_readData (r : RomSel) (s : State) : (selectRom r s).readData = s.readData := rfl
@[simp] theorem selectRom_waiting (r : RomSel) (s : State) : (selectRom r s).waiting = s.waiting := rfl
@[simp] theorem selectRom_waitStart (r : RomSel) (s : State) : (selectRom r s).waitStart = s.waitStart := rfl
@[simp] theorem selectRom_now (r : RomSel) (s : State) : (selectRom r s).now = s.now := rfl
@[simp] theorem selectRom_inputs (r : RomSel) (s : State) : (selectRom r s).inputs = s.inputs := rfl
@[simp] theorem selectRom_log (r : RomSel) (s : State) : (selectRom r s).log = s.log := rfl
@[simp] theorem selectRom_reply (r : RomSel) (s : State) : (selectRom r s).reply = s.reply := rfl

/-! ## finish -/

@[simp] theorem finish_build (s : State) : (finish s).build = s.build := rfl
@[simp] theorem finish_cfg (s : State) : (finish s).cfg = s.cfg := rfl
@[simp] theorem finish_argData (s : State) : (finish s).argData = s.argData := rfl
@[simp] theorem finish_argMask (s : State) : (finish s).argMask = s.argMask := rfl
@[simp] theorem finish_busy (s : State) : (finish s).busy = false := rfl
@[simp] theorem finish_err (s : State) : (finish s).err = s.err := rfl
@[simp] theorem finish_phase (s : State) : (finish s).phase = s.phase := rfl
@[simp] theorem finish_lastop (s : State) : (finish s).lastop = s.lastop := rfl
@[simp] theorem finish_statStep (s : State) : (finish s).statStep = s.statStep := rfl
@[simp] theorem finish_reject (s : State) : (finish s).reject = s.reject := rfl
@[simp] theorem finish_rstline (s : State) : (finish s).rstline = s.rstline := rfl
@[simp] theorem finish_fbd (s : State) : (finish s).fbd = s.fbd := rfl
@[simp] theorem finish_prd (s : State) : (finish s).prd = s.prd := rfl
@[simp] theorem finish_frs (s : State) : (finish s).frs = s.frs := rfl
@[simp] theorem finish_valid (s : State) : (finish s).valid = s.valid := rfl
@[simp] theorem finish_pllFreq (s : State) : (finish s).pllFreq = s.pllFreq := rfl
@[simp] theorem finish_pllBitclk (s : State) : (finish s).pllBitclk = s.pllBitclk := rfl
@[simp] theorem finish_pllRefclk (s : State) : (finish s).pllRefclk = s.pllRefclk := rfl
@[simp] theorem finish_target (s : State) : (finish s).target = s.target := rfl
@[simp] theorem finish_timHsync (s : State) : (finish s).timHsync = s.timHsync := rfl
@[simp] theorem finish_timVsync (s : State) : (finish s).timVsync = s.timVsync := rfl
@[simp] theorem finish_rdData (s : State) : (finish s).rdData = s.rdData := rfl
@[simp] theorem finish_acfg (s : State) : (finish s).acfg = s.acfg := rfl
@[simp] theorem finish_arg (s : State) : (finish s).arg = s.arg := rfl
@[simp] theorem finish_op (s : State) : (finish s).op = OpKind.none := rfl
@[simp] theorem finish_rom (s : State) : (finish s).rom = s.rom := rfl
@[simp] theorem finish_romStep (s : State) : (finish s).romStep = s.romStep := rfl
@[simp] theorem finish_search (s : State) : (finish s).search = s.search := rfl
@[simp] theorem finish_solveDone (s : State) : (finish s).solveDone = s.solveDone := rfl
@[simp] theorem finish_bus (s : State) : (finish s).bus = s.bus := rfl
@[simp] theorem finish_response (s : State) : (finish s).response = s.response := rfl
@[simp] theorem finish_sub (s : State) : (finish s).sub = s.sub := rfl
@[simp] theorem finish_readData (s : State) : (finish s).readData = s.readData := rfl
@[simp] theorem finish_waiting (s : State) : (finish s).waiting = s.waiting := rfl
@[simp] theorem finish_waitStart (s : State) : (finish s).waitStart = s.waitStart := rfl
@[simp] theorem finish_now (s : State) : (finish s).now = s.now := rfl
@[simp] theorem finish_inputs (s : State) : (finish s).inputs = s.inputs := rfl
@[simp] theorem finish_log (s : State) : (finish s).log = s.log := rfl
@[simp] theorem finish_reply (s : State) : (finish s).reply = s.reply := rfl

/-! ## abort -/

@[simp] theorem abort_build (e : ErrKind) (s : State) : (abort e s).build = s.build := rfl
@[simp] theorem abort_cfg (e : ErrKind) (s : State) : (abort e s).cfg = s.cfg := rfl
@[simp] theorem abort_argData (e : ErrKind) (s : State) : (abort e s).argData = s.argData := rfl
@[simp] theorem abort_argMask (e : ErrKind) (s : State) : (abort e s).argMask = s.argMask := rfl
@[simp] theorem abort_busy (e : ErrKind) (s : State) : (abort e s).busy = false := rfl
@[simp] theorem abort_err (e : ErrKind) (s : State) : (abort e s).err = e := rfl
@[simp] theorem abort_phase (e : ErrKind) (s : State) : (abort e s).phase = s.phase := rfl
@[simp] theorem abort_lastop (e : ErrKind) (s : State) : (abort e s).lastop = s.lastop := rfl
@[simp] theorem abort_statStep (e : ErrKind) (s : State) : (abort e s).statStep = s.statStep := rfl
@[simp] theorem abort_reject (e : ErrKind) (s : State) : (abort e s).reject = s.reject := rfl
@[simp] theorem abort_rstline (e : ErrKind) (s : State) : (abort e s).rstline = s.rstline := rfl
@[simp] theorem abort_fbd (e : ErrKind) (s : State) : (abort e s).fbd = s.fbd := rfl
@[simp] theorem abort_prd (e : ErrKind) (s : State) : (abort e s).prd = s.prd := rfl
@[simp] theorem abort_frs (e : ErrKind) (s : State) : (abort e s).frs = s.frs := rfl
@[simp] theorem abort_valid (e : ErrKind) (s : State) : (abort e s).valid = s.valid := rfl
@[simp] theorem abort_pllFreq (e : ErrKind) (s : State) : (abort e s).pllFreq = s.pllFreq := rfl
@[simp] theorem abort_pllBitclk (e : ErrKind) (s : State) : (abort e s).pllBitclk = s.pllBitclk := rfl
@[simp] theorem abort_pllRefclk (e : ErrKind) (s : State) : (abort e s).pllRefclk = s.pllRefclk := rfl
@[simp] theorem abort_target (e : ErrKind) (s : State) : (abort e s).target = s.target := rfl
@[simp] theorem abort_timHsync (e : ErrKind) (s : State) : (abort e s).timHsync = s.timHsync := rfl
@[simp] theorem abort_timVsync (e : ErrKind) (s : State) : (abort e s).timVsync = s.timVsync := rfl
@[simp] theorem abort_rdData (e : ErrKind) (s : State) : (abort e s).rdData = s.rdData := rfl
@[simp] theorem abort_acfg (e : ErrKind) (s : State) : (abort e s).acfg = s.acfg := rfl
@[simp] theorem abort_arg (e : ErrKind) (s : State) : (abort e s).arg = s.arg := rfl
@[simp] theorem abort_op (e : ErrKind) (s : State) : (abort e s).op = OpKind.none := rfl
@[simp] theorem abort_rom (e : ErrKind) (s : State) : (abort e s).rom = s.rom := rfl
@[simp] theorem abort_romStep (e : ErrKind) (s : State) : (abort e s).romStep = s.romStep := rfl
@[simp] theorem abort_search (e : ErrKind) (s : State) : (abort e s).search = s.search := rfl
@[simp] theorem abort_solveDone (e : ErrKind) (s : State) : (abort e s).solveDone = s.solveDone := rfl
@[simp] theorem abort_bus (e : ErrKind) (s : State) : (abort e s).bus = BusState.idle := rfl
@[simp] theorem abort_response (e : ErrKind) (s : State) : (abort e s).response = s.response := rfl
@[simp] theorem abort_sub (e : ErrKind) (s : State) : (abort e s).sub = s.sub := rfl
@[simp] theorem abort_readData (e : ErrKind) (s : State) : (abort e s).readData = s.readData := rfl
@[simp] theorem abort_waiting (e : ErrKind) (s : State) : (abort e s).waiting = s.waiting := rfl
@[simp] theorem abort_waitStart (e : ErrKind) (s : State) : (abort e s).waitStart = s.waitStart := rfl
@[simp] theorem abort_now (e : ErrKind) (s : State) : (abort e s).now = s.now := rfl
@[simp] theorem abort_inputs (e : ErrKind) (s : State) : (abort e s).inputs = s.inputs := rfl
@[simp] theorem abort_log (e : ErrKind) (s : State) : (abort e s).log = s.log := rfl
@[simp] theorem abort_reply (e : ErrKind) (s : State) : (abort e s).reply = s.reply := rfl

/-! ## advance -/

@[simp] theorem advance_build (s : State) : (advance s).build = s.build := rfl
@[simp] theorem advance_cfg (s : State) : (advance s).cfg = s.cfg := rfl
@[simp] theorem advance_argData (s : State) : (advance s).argData = s.argData := rfl
@[simp] theorem advance_argMask (s : State) : (advance s).argMask = s.argMask := rfl
@[simp] theorem advance_busy (s : State) : (advance s).busy = s.busy := rfl
@[simp] theorem advance_err (s : State) : (advance s).err = s.err := rfl
@[simp] theorem advance_phase (s : State) : (advance s).phase = s.phase := rfl
@[simp] theorem advance_lastop (s : State) : (advance s).lastop = s.lastop := rfl
@[simp] theorem advance_statStep (s : State) : (advance s).statStep = s.romStep + 1 := rfl
@[simp] theorem advance_reject (s : State) : (advance s).reject = s.reject := rfl
@[simp] theorem advance_rstline (s : State) : (advance s).rstline = s.rstline := rfl
@[simp] theorem advance_fbd (s : State) : (advance s).fbd = s.fbd := rfl
@[simp] theorem advance_prd (s : State) : (advance s).prd = s.prd := rfl
@[simp] theorem advance_frs (s : State) : (advance s).frs = s.frs := rfl
@[simp] theorem advance_valid (s : State) : (advance s).valid = s.valid := rfl
@[simp] theorem advance_pllFreq (s : State) : (advance s).pllFreq = s.pllFreq := rfl
@[simp] theorem advance_pllBitclk (s : State) : (advance s).pllBitclk = s.pllBitclk := rfl
@[simp] theorem advance_pllRefclk (s : State) : (advance s).pllRefclk = s.pllRefclk := rfl
@[simp] theorem advance_target (s : State) : (advance s).target = s.target := rfl
@[simp] theorem advance_timHsync (s : State) : (advance s).timHsync = s.timHsync := rfl
@[simp] theorem advance_timVsync (s : State) : (advance s).timVsync = s.timVsync := rfl
@[simp] theorem advance_rdData (s : State) : (advance s).rdData = s.rdData := rfl
@[simp] theorem advance_acfg (s : State) : (advance s).acfg = s.acfg := rfl
@[simp] theorem advance_arg (s : State) : (advance s).arg = s.arg := rfl
@[simp] theorem advance_op (s : State) : (advance s).op = s.op := rfl
@[simp] theorem advance_rom (s : State) : (advance s).rom = s.rom := rfl
@[simp] theorem advance_romStep (s : State) : (advance s).romStep = s.romStep + 1 := rfl
@[simp] theorem advance_search (s : State) : (advance s).search = s.search := rfl
@[simp] theorem advance_solveDone (s : State) : (advance s).solveDone = s.solveDone := rfl
@[simp] theorem advance_bus (s : State) : (advance s).bus = s.bus := rfl
@[simp] theorem advance_response (s : State) : (advance s).response = s.response := rfl
@[simp] theorem advance_sub (s : State) : (advance s).sub = s.sub := rfl
@[simp] theorem advance_readData (s : State) : (advance s).readData = s.readData := rfl
@[simp] theorem advance_waiting (s : State) : (advance s).waiting = s.waiting := rfl
@[simp] theorem advance_waitStart (s : State) : (advance s).waitStart = s.waitStart := rfl
@[simp] theorem advance_now (s : State) : (advance s).now = s.now := rfl
@[simp] theorem advance_inputs (s : State) : (advance s).inputs = s.inputs := rfl
@[simp] theorem advance_log (s : State) : (advance s).log = s.log := rfl
@[simp] theorem advance_reply (s : State) : (advance s).reply = s.reply := rfl

/-! ## enterPhase -/

@[simp] theorem enterPhase_build (p : Phase) (s : State) : (enterPhase p s).build = s.build := rfl
@[simp] theorem enterPhase_cfg (p : Phase) (s : State) : (enterPhase p s).cfg = s.cfg := rfl
@[simp] theorem enterPhase_argData (p : Phase) (s : State) : (enterPhase p s).argData = s.argData := rfl
@[simp] theorem enterPhase_argMask (p : Phase) (s : State) : (enterPhase p s).argMask = s.argMask := rfl
@[simp] theorem enterPhase_busy (p : Phase) (s : State) : (enterPhase p s).busy = s.busy := rfl
@[simp] theorem enterPhase_err (p : Phase) (s : State) : (enterPhase p s).err = s.err := rfl
@[simp] theorem enterPhase_phase (p : Phase) (s : State) : (enterPhase p s).phase = p := rfl
@[simp] theorem enterPhase_lastop (p : Phase) (s : State) : (enterPhase p s).lastop = s.lastop := rfl
@[simp] theorem enterPhase_statStep (p : Phase) (s : State) : (enterPhase p s).statStep = s.statStep := rfl
@[simp] theorem enterPhase_reject (p : Phase) (s : State) : (enterPhase p s).reject = s.reject := rfl
@[simp] theorem enterPhase_rstline (p : Phase) (s : State) : (enterPhase p s).rstline = s.rstline := rfl
@[simp] theorem enterPhase_fbd (p : Phase) (s : State) : (enterPhase p s).fbd = s.fbd := rfl
@[simp] theorem enterPhase_prd (p : Phase) (s : State) : (enterPhase p s).prd = s.prd := rfl
@[simp] theorem enterPhase_frs (p : Phase) (s : State) : (enterPhase p s).frs = s.frs := rfl
@[simp] theorem enterPhase_valid (p : Phase) (s : State) :
    (enterPhase p s).valid = if p = .off then false else s.valid := rfl
@[simp] theorem enterPhase_pllFreq (p : Phase) (s : State) : (enterPhase p s).pllFreq = s.pllFreq := rfl
@[simp] theorem enterPhase_pllBitclk (p : Phase) (s : State) : (enterPhase p s).pllBitclk = s.pllBitclk := rfl
@[simp] theorem enterPhase_pllRefclk (p : Phase) (s : State) : (enterPhase p s).pllRefclk = s.pllRefclk := rfl
@[simp] theorem enterPhase_target (p : Phase) (s : State) : (enterPhase p s).target = s.target := rfl
@[simp] theorem enterPhase_timHsync (p : Phase) (s : State) : (enterPhase p s).timHsync = s.timHsync := rfl
@[simp] theorem enterPhase_timVsync (p : Phase) (s : State) : (enterPhase p s).timVsync = s.timVsync := rfl
@[simp] theorem enterPhase_rdData (p : Phase) (s : State) : (enterPhase p s).rdData = s.rdData := rfl
@[simp] theorem enterPhase_acfg (p : Phase) (s : State) : (enterPhase p s).acfg = s.acfg := rfl
@[simp] theorem enterPhase_arg (p : Phase) (s : State) : (enterPhase p s).arg = s.arg := rfl
@[simp] theorem enterPhase_op (p : Phase) (s : State) : (enterPhase p s).op = s.op := rfl
@[simp] theorem enterPhase_rom (p : Phase) (s : State) : (enterPhase p s).rom = s.rom := rfl
@[simp] theorem enterPhase_romStep (p : Phase) (s : State) : (enterPhase p s).romStep = s.romStep := rfl
@[simp] theorem enterPhase_search (p : Phase) (s : State) : (enterPhase p s).search = s.search := rfl
@[simp] theorem enterPhase_solveDone (p : Phase) (s : State) : (enterPhase p s).solveDone = s.solveDone := rfl
@[simp] theorem enterPhase_bus (p : Phase) (s : State) : (enterPhase p s).bus = s.bus := rfl
@[simp] theorem enterPhase_response (p : Phase) (s : State) : (enterPhase p s).response = s.response := rfl
@[simp] theorem enterPhase_sub (p : Phase) (s : State) : (enterPhase p s).sub = s.sub := rfl
@[simp] theorem enterPhase_readData (p : Phase) (s : State) : (enterPhase p s).readData = s.readData := rfl
@[simp] theorem enterPhase_waiting (p : Phase) (s : State) : (enterPhase p s).waiting = s.waiting := rfl
@[simp] theorem enterPhase_waitStart (p : Phase) (s : State) : (enterPhase p s).waitStart = s.waitStart := rfl
@[simp] theorem enterPhase_now (p : Phase) (s : State) : (enterPhase p s).now = s.now := rfl
@[simp] theorem enterPhase_inputs (p : Phase) (s : State) : (enterPhase p s).inputs = s.inputs := rfl
@[simp] theorem enterPhase_log (p : Phase) (s : State) : (enterPhase p s).log = s.log := rfl
@[simp] theorem enterPhase_reply (p : Phase) (s : State) : (enterPhase p s).reply = s.reply := rfl

/-! ## startWait -/

@[simp] theorem startWait_build (s : State) : (startWait s).build = s.build := rfl
@[simp] theorem startWait_cfg (s : State) : (startWait s).cfg = s.cfg := rfl
@[simp] theorem startWait_argData (s : State) : (startWait s).argData = s.argData := rfl
@[simp] theorem startWait_argMask (s : State) : (startWait s).argMask = s.argMask := rfl
@[simp] theorem startWait_busy (s : State) : (startWait s).busy = s.busy := rfl
@[simp] theorem startWait_err (s : State) : (startWait s).err = s.err := rfl
@[simp] theorem startWait_phase (s : State) : (startWait s).phase = s.phase := rfl
@[simp] theorem startWait_lastop (s : State) : (startWait s).lastop = s.lastop := rfl
@[simp] theorem startWait_statStep (s : State) : (startWait s).statStep = s.statStep := rfl
@[simp] theorem startWait_reject (s : State) : (startWait s).reject = s.reject := rfl
@[simp] theorem startWait_rstline (s : State) : (startWait s).rstline = s.rstline := rfl
@[simp] theorem startWait_fbd (s : State) : (startWait s).fbd = s.fbd := rfl
@[simp] theorem startWait_prd (s : State) : (startWait s).prd = s.prd := rfl
@[simp] theorem startWait_frs (s : State) : (startWait s).frs = s.frs := rfl
@[simp] theorem startWait_valid (s : State) : (startWait s).valid = s.valid := rfl
@[simp] theorem startWait_pllFreq (s : State) : (startWait s).pllFreq = s.pllFreq := rfl
@[simp] theorem startWait_pllBitclk (s : State) : (startWait s).pllBitclk = s.pllBitclk := rfl
@[simp] theorem startWait_pllRefclk (s : State) : (startWait s).pllRefclk = s.pllRefclk := rfl
@[simp] theorem startWait_target (s : State) : (startWait s).target = s.target := rfl
@[simp] theorem startWait_timHsync (s : State) : (startWait s).timHsync = s.timHsync := rfl
@[simp] theorem startWait_timVsync (s : State) : (startWait s).timVsync = s.timVsync := rfl
@[simp] theorem startWait_rdData (s : State) : (startWait s).rdData = s.rdData := rfl
@[simp] theorem startWait_acfg (s : State) : (startWait s).acfg = s.acfg := rfl
@[simp] theorem startWait_arg (s : State) : (startWait s).arg = s.arg := rfl
@[simp] theorem startWait_op (s : State) : (startWait s).op = s.op := rfl
@[simp] theorem startWait_rom (s : State) : (startWait s).rom = s.rom := rfl
@[simp] theorem startWait_romStep (s : State) : (startWait s).romStep = s.romStep := rfl
@[simp] theorem startWait_search (s : State) : (startWait s).search = s.search := rfl
@[simp] theorem startWait_solveDone (s : State) : (startWait s).solveDone = s.solveDone := rfl
@[simp] theorem startWait_bus (s : State) : (startWait s).bus = s.bus := rfl
@[simp] theorem startWait_response (s : State) : (startWait s).response = s.response := rfl
@[simp] theorem startWait_sub (s : State) : (startWait s).sub = s.sub := rfl
@[simp] theorem startWait_readData (s : State) : (startWait s).readData = s.readData := rfl
@[simp] theorem startWait_waiting (s : State) : (startWait s).waiting = true := rfl
@[simp] theorem startWait_waitStart (s : State) : (startWait s).waitStart = s.now := rfl
@[simp] theorem startWait_now (s : State) : (startWait s).now = s.now := rfl
@[simp] theorem startWait_inputs (s : State) : (startWait s).inputs = s.inputs := rfl
@[simp] theorem startWait_log (s : State) : (startWait s).log = s.log := rfl
@[simp] theorem startWait_reply (s : State) : (startWait s).reply = s.reply := rfl

/-! ## endWait -/

@[simp] theorem endWait_build (s : State) : (endWait s).build = s.build := rfl
@[simp] theorem endWait_cfg (s : State) : (endWait s).cfg = s.cfg := rfl
@[simp] theorem endWait_argData (s : State) : (endWait s).argData = s.argData := rfl
@[simp] theorem endWait_argMask (s : State) : (endWait s).argMask = s.argMask := rfl
@[simp] theorem endWait_busy (s : State) : (endWait s).busy = s.busy := rfl
@[simp] theorem endWait_err (s : State) : (endWait s).err = s.err := rfl
@[simp] theorem endWait_phase (s : State) : (endWait s).phase = s.phase := rfl
@[simp] theorem endWait_lastop (s : State) : (endWait s).lastop = s.lastop := rfl
@[simp] theorem endWait_statStep (s : State) : (endWait s).statStep = s.statStep := rfl
@[simp] theorem endWait_reject (s : State) : (endWait s).reject = s.reject := rfl
@[simp] theorem endWait_rstline (s : State) : (endWait s).rstline = s.rstline := rfl
@[simp] theorem endWait_fbd (s : State) : (endWait s).fbd = s.fbd := rfl
@[simp] theorem endWait_prd (s : State) : (endWait s).prd = s.prd := rfl
@[simp] theorem endWait_frs (s : State) : (endWait s).frs = s.frs := rfl
@[simp] theorem endWait_valid (s : State) : (endWait s).valid = s.valid := rfl
@[simp] theorem endWait_pllFreq (s : State) : (endWait s).pllFreq = s.pllFreq := rfl
@[simp] theorem endWait_pllBitclk (s : State) : (endWait s).pllBitclk = s.pllBitclk := rfl
@[simp] theorem endWait_pllRefclk (s : State) : (endWait s).pllRefclk = s.pllRefclk := rfl
@[simp] theorem endWait_target (s : State) : (endWait s).target = s.target := rfl
@[simp] theorem endWait_timHsync (s : State) : (endWait s).timHsync = s.timHsync := rfl
@[simp] theorem endWait_timVsync (s : State) : (endWait s).timVsync = s.timVsync := rfl
@[simp] theorem endWait_rdData (s : State) : (endWait s).rdData = s.rdData := rfl
@[simp] theorem endWait_acfg (s : State) : (endWait s).acfg = s.acfg := rfl
@[simp] theorem endWait_arg (s : State) : (endWait s).arg = s.arg := rfl
@[simp] theorem endWait_op (s : State) : (endWait s).op = s.op := rfl
@[simp] theorem endWait_rom (s : State) : (endWait s).rom = s.rom := rfl
@[simp] theorem endWait_romStep (s : State) : (endWait s).romStep = s.romStep := rfl
@[simp] theorem endWait_search (s : State) : (endWait s).search = s.search := rfl
@[simp] theorem endWait_solveDone (s : State) : (endWait s).solveDone = s.solveDone := rfl
@[simp] theorem endWait_bus (s : State) : (endWait s).bus = s.bus := rfl
@[simp] theorem endWait_response (s : State) : (endWait s).response = s.response := rfl
@[simp] theorem endWait_sub (s : State) : (endWait s).sub = s.sub := rfl
@[simp] theorem endWait_readData (s : State) : (endWait s).readData = s.readData := rfl
@[simp] theorem endWait_waiting (s : State) : (endWait s).waiting = false := rfl
@[simp] theorem endWait_waitStart (s : State) : (endWait s).waitStart = s.waitStart := rfl
@[simp] theorem endWait_now (s : State) : (endWait s).now = s.now := rfl
@[simp] theorem endWait_inputs (s : State) : (endWait s).inputs = s.inputs := rfl
@[simp] theorem endWait_log (s : State) : (endWait s).log = s.log := rfl
@[simp] theorem endWait_reply (s : State) : (endWait s).reply = s.reply := rfl

/-! ## issueTx -/

@[simp] theorem issueTx_build (t : Tx) (s : State) : (issueTx t s).build = s.build := rfl
@[simp] theorem issueTx_cfg (t : Tx) (s : State) : (issueTx t s).cfg = s.cfg := rfl
@[simp] theorem issueTx_argData (t : Tx) (s : State) : (issueTx t s).argData = s.argData := rfl
@[simp] theorem issueTx_argMask (t : Tx) (s : State) : (issueTx t s).argMask = s.argMask := rfl
@[simp] theorem issueTx_busy (t : Tx) (s : State) : (issueTx t s).busy = s.busy := rfl
@[simp] theorem issueTx_err (t : Tx) (s : State) : (issueTx t s).err = s.err := rfl
@[simp] theorem issueTx_phase (t : Tx) (s : State) : (issueTx t s).phase = s.phase := rfl
@[simp] theorem issueTx_lastop (t : Tx) (s : State) : (issueTx t s).lastop = s.lastop := rfl
@[simp] theorem issueTx_statStep (t : Tx) (s : State) : (issueTx t s).statStep = s.statStep := rfl
@[simp] theorem issueTx_reject (t : Tx) (s : State) : (issueTx t s).reject = s.reject := rfl
@[simp] theorem issueTx_rstline (t : Tx) (s : State) : (issueTx t s).rstline = s.rstline := rfl
@[simp] theorem issueTx_fbd (t : Tx) (s : State) : (issueTx t s).fbd = s.fbd := rfl
@[simp] theorem issueTx_prd (t : Tx) (s : State) : (issueTx t s).prd = s.prd := rfl
@[simp] theorem issueTx_frs (t : Tx) (s : State) : (issueTx t s).frs = s.frs := rfl
@[simp] theorem issueTx_valid (t : Tx) (s : State) : (issueTx t s).valid = s.valid := rfl
@[simp] theorem issueTx_pllFreq (t : Tx) (s : State) : (issueTx t s).pllFreq = s.pllFreq := rfl
@[simp] theorem issueTx_pllBitclk (t : Tx) (s : State) : (issueTx t s).pllBitclk = s.pllBitclk := rfl
@[simp] theorem issueTx_pllRefclk (t : Tx) (s : State) : (issueTx t s).pllRefclk = s.pllRefclk := rfl
@[simp] theorem issueTx_target (t : Tx) (s : State) : (issueTx t s).target = s.target := rfl
@[simp] theorem issueTx_timHsync (t : Tx) (s : State) : (issueTx t s).timHsync = s.timHsync := rfl
@[simp] theorem issueTx_timVsync (t : Tx) (s : State) : (issueTx t s).timVsync = s.timVsync := rfl
@[simp] theorem issueTx_rdData (t : Tx) (s : State) : (issueTx t s).rdData = s.rdData := rfl
@[simp] theorem issueTx_acfg (t : Tx) (s : State) : (issueTx t s).acfg = s.acfg := rfl
@[simp] theorem issueTx_arg (t : Tx) (s : State) : (issueTx t s).arg = s.arg := rfl
@[simp] theorem issueTx_op (t : Tx) (s : State) : (issueTx t s).op = s.op := rfl
@[simp] theorem issueTx_rom (t : Tx) (s : State) : (issueTx t s).rom = s.rom := rfl
@[simp] theorem issueTx_romStep (t : Tx) (s : State) : (issueTx t s).romStep = s.romStep := rfl
@[simp] theorem issueTx_search (t : Tx) (s : State) : (issueTx t s).search = s.search := rfl
@[simp] theorem issueTx_solveDone (t : Tx) (s : State) : (issueTx t s).solveDone = s.solveDone := rfl
@[simp] theorem issueTx_bus (t : Tx) (s : State) : (issueTx t s).bus = BusState.pending t := rfl
@[simp] theorem issueTx_response (t : Tx) (s : State) : (issueTx t s).response = s.response := rfl
@[simp] theorem issueTx_sub (t : Tx) (s : State) : (issueTx t s).sub = s.sub := rfl
@[simp] theorem issueTx_readData (t : Tx) (s : State) : (issueTx t s).readData = s.readData := rfl
@[simp] theorem issueTx_waiting (t : Tx) (s : State) : (issueTx t s).waiting = s.waiting := rfl
@[simp] theorem issueTx_waitStart (t : Tx) (s : State) : (issueTx t s).waitStart = s.waitStart := rfl
@[simp] theorem issueTx_now (t : Tx) (s : State) : (issueTx t s).now = s.now := rfl
@[simp] theorem issueTx_inputs (t : Tx) (s : State) : (issueTx t s).inputs = s.inputs := rfl
@[simp] theorem issueTx_log (t : Tx) (s : State) : (issueTx t s).log = s.log ++ [.issue t s.now] := rfl
@[simp] theorem issueTx_reply (t : Tx) (s : State) : (issueTx t s).reply = s.reply := rfl

/-! ## receive -/

@[simp] theorem receive_build (a : Answer) (s : State) : (receive a s).build = s.build := rfl
@[simp] theorem receive_cfg (a : Answer) (s : State) : (receive a s).cfg = s.cfg := rfl
@[simp] theorem receive_argData (a : Answer) (s : State) : (receive a s).argData = s.argData := rfl
@[simp] theorem receive_argMask (a : Answer) (s : State) : (receive a s).argMask = s.argMask := rfl
@[simp] theorem receive_busy (a : Answer) (s : State) : (receive a s).busy = s.busy := rfl
@[simp] theorem receive_err (a : Answer) (s : State) : (receive a s).err = s.err := rfl
@[simp] theorem receive_phase (a : Answer) (s : State) : (receive a s).phase = s.phase := rfl
@[simp] theorem receive_lastop (a : Answer) (s : State) : (receive a s).lastop = s.lastop := rfl
@[simp] theorem receive_statStep (a : Answer) (s : State) : (receive a s).statStep = s.statStep := rfl
@[simp] theorem receive_reject (a : Answer) (s : State) : (receive a s).reject = s.reject := rfl
@[simp] theorem receive_rstline (a : Answer) (s : State) : (receive a s).rstline = s.rstline := rfl
@[simp] theorem receive_fbd (a : Answer) (s : State) : (receive a s).fbd = s.fbd := rfl
@[simp] theorem receive_prd (a : Answer) (s : State) : (receive a s).prd = s.prd := rfl
@[simp] theorem receive_frs (a : Answer) (s : State) : (receive a s).frs = s.frs := rfl
@[simp] theorem receive_valid (a : Answer) (s : State) : (receive a s).valid = s.valid := rfl
@[simp] theorem receive_pllFreq (a : Answer) (s : State) : (receive a s).pllFreq = s.pllFreq := rfl
@[simp] theorem receive_pllBitclk (a : Answer) (s : State) : (receive a s).pllBitclk = s.pllBitclk := rfl
@[simp] theorem receive_pllRefclk (a : Answer) (s : State) : (receive a s).pllRefclk = s.pllRefclk := rfl
@[simp] theorem receive_target (a : Answer) (s : State) : (receive a s).target = s.target := rfl
@[simp] theorem receive_timHsync (a : Answer) (s : State) : (receive a s).timHsync = s.timHsync := rfl
@[simp] theorem receive_timVsync (a : Answer) (s : State) : (receive a s).timVsync = s.timVsync := rfl
@[simp] theorem receive_rdData (a : Answer) (s : State) : (receive a s).rdData = s.rdData := rfl
@[simp] theorem receive_acfg (a : Answer) (s : State) : (receive a s).acfg = s.acfg := rfl
@[simp] theorem receive_arg (a : Answer) (s : State) : (receive a s).arg = s.arg := rfl
@[simp] theorem receive_op (a : Answer) (s : State) : (receive a s).op = s.op := rfl
@[simp] theorem receive_rom (a : Answer) (s : State) : (receive a s).rom = s.rom := rfl
@[simp] theorem receive_romStep (a : Answer) (s : State) : (receive a s).romStep = s.romStep := rfl
@[simp] theorem receive_search (a : Answer) (s : State) : (receive a s).search = s.search := rfl
@[simp] theorem receive_solveDone (a : Answer) (s : State) : (receive a s).solveDone = s.solveDone := rfl
@[simp] theorem receive_bus (a : Answer) (s : State) : (receive a s).bus = BusState.idle := rfl
@[simp] theorem receive_response (a : Answer) (s : State) : (receive a s).response = some a := rfl
@[simp] theorem receive_sub (a : Answer) (s : State) : (receive a s).sub = s.sub := rfl
@[simp] theorem receive_readData (a : Answer) (s : State) : (receive a s).readData = s.readData := rfl
@[simp] theorem receive_waiting (a : Answer) (s : State) : (receive a s).waiting = s.waiting := rfl
@[simp] theorem receive_waitStart (a : Answer) (s : State) : (receive a s).waitStart = s.waitStart := rfl
@[simp] theorem receive_now (a : Answer) (s : State) : (receive a s).now = s.now := rfl
@[simp] theorem receive_inputs (a : Answer) (s : State) : (receive a s).inputs = s.inputs := rfl
@[simp] theorem receive_log (a : Answer) (s : State) : (receive a s).log = s.log ++ [.answer a s.now] := rfl
@[simp] theorem receive_reply (a : Answer) (s : State) : (receive a s).reply = s.reply := rfl

/-! ## takeResponse -/

@[simp] theorem takeResponse_build (s : State) : (takeResponse s).build = s.build := rfl
@[simp] theorem takeResponse_cfg (s : State) : (takeResponse s).cfg = s.cfg := rfl
@[simp] theorem takeResponse_argData (s : State) : (takeResponse s).argData = s.argData := rfl
@[simp] theorem takeResponse_argMask (s : State) : (takeResponse s).argMask = s.argMask := rfl
@[simp] theorem takeResponse_busy (s : State) : (takeResponse s).busy = s.busy := rfl
@[simp] theorem takeResponse_err (s : State) : (takeResponse s).err = s.err := rfl
@[simp] theorem takeResponse_phase (s : State) : (takeResponse s).phase = s.phase := rfl
@[simp] theorem takeResponse_lastop (s : State) : (takeResponse s).lastop = s.lastop := rfl
@[simp] theorem takeResponse_statStep (s : State) : (takeResponse s).statStep = s.statStep := rfl
@[simp] theorem takeResponse_reject (s : State) : (takeResponse s).reject = s.reject := rfl
@[simp] theorem takeResponse_rstline (s : State) : (takeResponse s).rstline = s.rstline := rfl
@[simp] theorem takeResponse_fbd (s : State) : (takeResponse s).fbd = s.fbd := rfl
@[simp] theorem takeResponse_prd (s : State) : (takeResponse s).prd = s.prd := rfl
@[simp] theorem takeResponse_frs (s : State) : (takeResponse s).frs = s.frs := rfl
@[simp] theorem takeResponse_valid (s : State) : (takeResponse s).valid = s.valid := rfl
@[simp] theorem takeResponse_pllFreq (s : State) : (takeResponse s).pllFreq = s.pllFreq := rfl
@[simp] theorem takeResponse_pllBitclk (s : State) : (takeResponse s).pllBitclk = s.pllBitclk := rfl
@[simp] theorem takeResponse_pllRefclk (s : State) : (takeResponse s).pllRefclk = s.pllRefclk := rfl
@[simp] theorem takeResponse_target (s : State) : (takeResponse s).target = s.target := rfl
@[simp] theorem takeResponse_timHsync (s : State) : (takeResponse s).timHsync = s.timHsync := rfl
@[simp] theorem takeResponse_timVsync (s : State) : (takeResponse s).timVsync = s.timVsync := rfl
@[simp] theorem takeResponse_rdData (s : State) : (takeResponse s).rdData = s.rdData := rfl
@[simp] theorem takeResponse_acfg (s : State) : (takeResponse s).acfg = s.acfg := rfl
@[simp] theorem takeResponse_arg (s : State) : (takeResponse s).arg = s.arg := rfl
@[simp] theorem takeResponse_op (s : State) : (takeResponse s).op = s.op := rfl
@[simp] theorem takeResponse_rom (s : State) : (takeResponse s).rom = s.rom := rfl
@[simp] theorem takeResponse_romStep (s : State) : (takeResponse s).romStep = s.romStep := rfl
@[simp] theorem takeResponse_search (s : State) : (takeResponse s).search = s.search := rfl
@[simp] theorem takeResponse_solveDone (s : State) : (takeResponse s).solveDone = s.solveDone := rfl
@[simp] theorem takeResponse_bus (s : State) : (takeResponse s).bus = s.bus := rfl
@[simp] theorem takeResponse_response (s : State) : (takeResponse s).response = none := rfl
@[simp] theorem takeResponse_sub (s : State) : (takeResponse s).sub = s.sub := rfl
@[simp] theorem takeResponse_readData (s : State) : (takeResponse s).readData = s.readData := rfl
@[simp] theorem takeResponse_waiting (s : State) : (takeResponse s).waiting = s.waiting := rfl
@[simp] theorem takeResponse_waitStart (s : State) : (takeResponse s).waitStart = s.waitStart := rfl
@[simp] theorem takeResponse_now (s : State) : (takeResponse s).now = s.now := rfl
@[simp] theorem takeResponse_inputs (s : State) : (takeResponse s).inputs = s.inputs := rfl
@[simp] theorem takeResponse_log (s : State) : (takeResponse s).log = s.log := rfl
@[simp] theorem takeResponse_reply (s : State) : (takeResponse s).reply = s.reply := rfl

/-! ## beginAccess -/

@[simp] theorem beginAccess_build (s : State) : (beginAccess s).build = s.build := rfl
@[simp] theorem beginAccess_cfg (s : State) : (beginAccess s).cfg = s.cfg := rfl
@[simp] theorem beginAccess_argData (s : State) : (beginAccess s).argData = s.argData := rfl
@[simp] theorem beginAccess_argMask (s : State) : (beginAccess s).argMask = s.argMask := rfl
@[simp] theorem beginAccess_busy (s : State) : (beginAccess s).busy = s.busy := rfl
@[simp] theorem beginAccess_err (s : State) : (beginAccess s).err = s.err := rfl
@[simp] theorem beginAccess_phase (s : State) : (beginAccess s).phase = s.phase := rfl
@[simp] theorem beginAccess_lastop (s : State) : (beginAccess s).lastop = s.lastop := rfl
@[simp] theorem beginAccess_statStep (s : State) : (beginAccess s).statStep = s.statStep := rfl
@[simp] theorem beginAccess_reject (s : State) : (beginAccess s).reject = s.reject := rfl
@[simp] theorem beginAccess_rstline (s : State) : (beginAccess s).rstline = s.rstline := rfl
@[simp] theorem beginAccess_fbd (s : State) : (beginAccess s).fbd = s.fbd := rfl
@[simp] theorem beginAccess_prd (s : State) : (beginAccess s).prd = s.prd := rfl
@[simp] theorem beginAccess_frs (s : State) : (beginAccess s).frs = s.frs := rfl
@[simp] theorem beginAccess_valid (s : State) : (beginAccess s).valid = s.valid := rfl
@[simp] theorem beginAccess_pllFreq (s : State) : (beginAccess s).pllFreq = s.pllFreq := rfl
@[simp] theorem beginAccess_pllBitclk (s : State) : (beginAccess s).pllBitclk = s.pllBitclk := rfl
@[simp] theorem beginAccess_pllRefclk (s : State) : (beginAccess s).pllRefclk = s.pllRefclk := rfl
@[simp] theorem beginAccess_target (s : State) : (beginAccess s).target = s.target := rfl
@[simp] theorem beginAccess_timHsync (s : State) : (beginAccess s).timHsync = s.timHsync := rfl
@[simp] theorem beginAccess_timVsync (s : State) : (beginAccess s).timVsync = s.timVsync := rfl
@[simp] theorem beginAccess_rdData (s : State) : (beginAccess s).rdData = s.rdData := rfl
@[simp] theorem beginAccess_acfg (s : State) : (beginAccess s).acfg = s.acfg := rfl
@[simp] theorem beginAccess_arg (s : State) : (beginAccess s).arg = s.arg := rfl
@[simp] theorem beginAccess_op (s : State) : (beginAccess s).op = s.op := rfl
@[simp] theorem beginAccess_rom (s : State) : (beginAccess s).rom = s.rom := rfl
@[simp] theorem beginAccess_romStep (s : State) : (beginAccess s).romStep = s.romStep := rfl
@[simp] theorem beginAccess_search (s : State) : (beginAccess s).search = s.search := rfl
@[simp] theorem beginAccess_solveDone (s : State) : (beginAccess s).solveDone = s.solveDone := rfl
@[simp] theorem beginAccess_bus (s : State) : (beginAccess s).bus = s.bus := rfl
@[simp] theorem beginAccess_response (s : State) : (beginAccess s).response = s.response := rfl
@[simp] theorem beginAccess_sub (s : State) : (beginAccess s).sub = 0 := rfl
@[simp] theorem beginAccess_readData (s : State) : (beginAccess s).readData = [] := rfl
@[simp] theorem beginAccess_waiting (s : State) : (beginAccess s).waiting = s.waiting := rfl
@[simp] theorem beginAccess_waitStart (s : State) : (beginAccess s).waitStart = s.waitStart := rfl
@[simp] theorem beginAccess_now (s : State) : (beginAccess s).now = s.now := rfl
@[simp] theorem beginAccess_inputs (s : State) : (beginAccess s).inputs = s.inputs := rfl
@[simp] theorem beginAccess_log (s : State) : (beginAccess s).log = s.log := rfl
@[simp] theorem beginAccess_reply (s : State) : (beginAccess s).reply = s.reply := rfl

/-! ## stepAccess -/

@[simp] theorem stepAccess_build (x : Access) (d : Half) (s : State) : (stepAccess x d s).build = s.build := rfl
@[simp] theorem stepAccess_cfg (x : Access) (d : Half) (s : State) : (stepAccess x d s).cfg = s.cfg := rfl
@[simp] theorem stepAccess_argData (x : Access) (d : Half) (s : State) : (stepAccess x d s).argData = s.argData := rfl
@[simp] theorem stepAccess_argMask (x : Access) (d : Half) (s : State) : (stepAccess x d s).argMask = s.argMask := rfl
@[simp] theorem stepAccess_busy (x : Access) (d : Half) (s : State) : (stepAccess x d s).busy = s.busy := rfl
@[simp] theorem stepAccess_err (x : Access) (d : Half) (s : State) : (stepAccess x d s).err = s.err := rfl
@[simp] theorem stepAccess_phase (x : Access) (d : Half) (s : State) : (stepAccess x d s).phase = s.phase := rfl
@[simp] theorem stepAccess_lastop (x : Access) (d : Half) (s : State) : (stepAccess x d s).lastop = s.lastop := rfl
@[simp] theorem stepAccess_statStep (x : Access) (d : Half) (s : State) :
    (stepAccess x d s).statStep = s.statStep := rfl
@[simp] theorem stepAccess_reject (x : Access) (d : Half) (s : State) : (stepAccess x d s).reject = s.reject := rfl
@[simp] theorem stepAccess_rstline (x : Access) (d : Half) (s : State) : (stepAccess x d s).rstline = s.rstline := rfl
@[simp] theorem stepAccess_fbd (x : Access) (d : Half) (s : State) : (stepAccess x d s).fbd = s.fbd := rfl
@[simp] theorem stepAccess_prd (x : Access) (d : Half) (s : State) : (stepAccess x d s).prd = s.prd := rfl
@[simp] theorem stepAccess_frs (x : Access) (d : Half) (s : State) : (stepAccess x d s).frs = s.frs := rfl
@[simp] theorem stepAccess_valid (x : Access) (d : Half) (s : State) : (stepAccess x d s).valid = s.valid := rfl
@[simp] theorem stepAccess_pllFreq (x : Access) (d : Half) (s : State) : (stepAccess x d s).pllFreq = s.pllFreq := rfl
@[simp] theorem stepAccess_pllBitclk (x : Access) (d : Half) (s : State) :
    (stepAccess x d s).pllBitclk = s.pllBitclk := rfl
@[simp] theorem stepAccess_pllRefclk (x : Access) (d : Half) (s : State) :
    (stepAccess x d s).pllRefclk = s.pllRefclk := rfl
@[simp] theorem stepAccess_target (x : Access) (d : Half) (s : State) : (stepAccess x d s).target = s.target := rfl
@[simp] theorem stepAccess_timHsync (x : Access) (d : Half) (s : State) :
    (stepAccess x d s).timHsync = s.timHsync := rfl
@[simp] theorem stepAccess_timVsync (x : Access) (d : Half) (s : State) :
    (stepAccess x d s).timVsync = s.timVsync := rfl
@[simp] theorem stepAccess_rdData (x : Access) (d : Half) (s : State) : (stepAccess x d s).rdData = s.rdData := rfl
@[simp] theorem stepAccess_acfg (x : Access) (d : Half) (s : State) : (stepAccess x d s).acfg = s.acfg := rfl
@[simp] theorem stepAccess_arg (x : Access) (d : Half) (s : State) : (stepAccess x d s).arg = s.arg := rfl
@[simp] theorem stepAccess_op (x : Access) (d : Half) (s : State) : (stepAccess x d s).op = s.op := rfl
@[simp] theorem stepAccess_rom (x : Access) (d : Half) (s : State) : (stepAccess x d s).rom = s.rom := rfl
@[simp] theorem stepAccess_romStep (x : Access) (d : Half) (s : State) : (stepAccess x d s).romStep = s.romStep := rfl
@[simp] theorem stepAccess_search (x : Access) (d : Half) (s : State) : (stepAccess x d s).search = s.search := rfl
@[simp] theorem stepAccess_solveDone (x : Access) (d : Half) (s : State) :
    (stepAccess x d s).solveDone = s.solveDone := rfl
@[simp] theorem stepAccess_bus (x : Access) (d : Half) (s : State) : (stepAccess x d s).bus = s.bus := rfl
@[simp] theorem stepAccess_response (x : Access) (d : Half) (s : State) : (stepAccess x d s).response = none := rfl
@[simp] theorem stepAccess_sub (x : Access) (d : Half) (s : State) : (stepAccess x d s).sub = s.sub + 1 := rfl
@[simp] theorem stepAccess_readData (x : Access) (d : Half) (s : State) :
    (stepAccess x d s).readData = keepRead (txAt x s) d s.readData := rfl
@[simp] theorem stepAccess_waiting (x : Access) (d : Half) (s : State) : (stepAccess x d s).waiting = s.waiting := rfl
@[simp] theorem stepAccess_waitStart (x : Access) (d : Half) (s : State) :
    (stepAccess x d s).waitStart = s.waitStart := rfl
@[simp] theorem stepAccess_now (x : Access) (d : Half) (s : State) : (stepAccess x d s).now = s.now := rfl
@[simp] theorem stepAccess_inputs (x : Access) (d : Half) (s : State) : (stepAccess x d s).inputs = s.inputs := rfl
@[simp] theorem stepAccess_log (x : Access) (d : Half) (s : State) : (stepAccess x d s).log = s.log := rfl
@[simp] theorem stepAccess_reply (x : Access) (d : Half) (s : State) : (stepAccess x d s).reply = s.reply := rfl

/-! ## beginSolve -/

@[simp] theorem beginSolve_build (f : Nat) (s : State) : (beginSolve f s).build = s.build := rfl
@[simp] theorem beginSolve_cfg (f : Nat) (s : State) : (beginSolve f s).cfg = s.cfg := rfl
@[simp] theorem beginSolve_argData (f : Nat) (s : State) : (beginSolve f s).argData = s.argData := rfl
@[simp] theorem beginSolve_argMask (f : Nat) (s : State) : (beginSolve f s).argMask = s.argMask := rfl
@[simp] theorem beginSolve_busy (f : Nat) (s : State) : (beginSolve f s).busy = s.busy := rfl
@[simp] theorem beginSolve_err (f : Nat) (s : State) : (beginSolve f s).err = s.err := rfl
@[simp] theorem beginSolve_phase (f : Nat) (s : State) : (beginSolve f s).phase = s.phase := rfl
@[simp] theorem beginSolve_lastop (f : Nat) (s : State) : (beginSolve f s).lastop = s.lastop := rfl
@[simp] theorem beginSolve_statStep (f : Nat) (s : State) : (beginSolve f s).statStep = s.statStep := rfl
@[simp] theorem beginSolve_reject (f : Nat) (s : State) : (beginSolve f s).reject = s.reject := rfl
@[simp] theorem beginSolve_rstline (f : Nat) (s : State) : (beginSolve f s).rstline = s.rstline := rfl
@[simp] theorem beginSolve_fbd (f : Nat) (s : State) : (beginSolve f s).fbd = s.fbd := rfl
@[simp] theorem beginSolve_prd (f : Nat) (s : State) : (beginSolve f s).prd = s.prd := rfl
@[simp] theorem beginSolve_frs (f : Nat) (s : State) : (beginSolve f s).frs = s.frs := rfl
@[simp] theorem beginSolve_valid (f : Nat) (s : State) : (beginSolve f s).valid = false := rfl
@[simp] theorem beginSolve_pllFreq (f : Nat) (s : State) : (beginSolve f s).pllFreq = s.pllFreq := rfl
@[simp] theorem beginSolve_pllBitclk (f : Nat) (s : State) : (beginSolve f s).pllBitclk = s.pllBitclk := rfl
@[simp] theorem beginSolve_pllRefclk (f : Nat) (s : State) : (beginSolve f s).pllRefclk = s.pllRefclk := rfl
@[simp] theorem beginSolve_target (f : Nat) (s : State) :
    (beginSolve f s).target = BitVec.ofNat 32 (min f 0xFFFFFFFF) := rfl
@[simp] theorem beginSolve_timHsync (f : Nat) (s : State) : (beginSolve f s).timHsync = s.timHsync := rfl
@[simp] theorem beginSolve_timVsync (f : Nat) (s : State) : (beginSolve f s).timVsync = s.timVsync := rfl
@[simp] theorem beginSolve_rdData (f : Nat) (s : State) : (beginSolve f s).rdData = s.rdData := rfl
@[simp] theorem beginSolve_acfg (f : Nat) (s : State) : (beginSolve f s).acfg = s.acfg := rfl
@[simp] theorem beginSolve_arg (f : Nat) (s : State) : (beginSolve f s).arg = s.arg := rfl
@[simp] theorem beginSolve_op (f : Nat) (s : State) : (beginSolve f s).op = s.op := rfl
@[simp] theorem beginSolve_rom (f : Nat) (s : State) : (beginSolve f s).rom = s.rom := rfl
@[simp] theorem beginSolve_romStep (f : Nat) (s : State) : (beginSolve f s).romStep = s.romStep := rfl
@[simp] theorem beginSolve_search (f : Nat) (s : State) : (beginSolve f s).search = s.search := rfl
@[simp] theorem beginSolve_solveDone (f : Nat) (s : State) : (beginSolve f s).solveDone = s.solveDone := rfl
@[simp] theorem beginSolve_bus (f : Nat) (s : State) : (beginSolve f s).bus = s.bus := rfl
@[simp] theorem beginSolve_response (f : Nat) (s : State) : (beginSolve f s).response = s.response := rfl
@[simp] theorem beginSolve_sub (f : Nat) (s : State) : (beginSolve f s).sub = s.sub := rfl
@[simp] theorem beginSolve_readData (f : Nat) (s : State) : (beginSolve f s).readData = s.readData := rfl
@[simp] theorem beginSolve_waiting (f : Nat) (s : State) : (beginSolve f s).waiting = s.waiting := rfl
@[simp] theorem beginSolve_waitStart (f : Nat) (s : State) : (beginSolve f s).waitStart = s.waitStart := rfl
@[simp] theorem beginSolve_now (f : Nat) (s : State) : (beginSolve f s).now = s.now := rfl
@[simp] theorem beginSolve_inputs (f : Nat) (s : State) : (beginSolve f s).inputs = s.inputs := rfl
@[simp] theorem beginSolve_log (f : Nat) (s : State) : (beginSolve f s).log = s.log := rfl
@[simp] theorem beginSolve_reply (f : Nat) (s : State) : (beginSolve f s).reply = s.reply := rfl

/-! ## recordSearch -/

@[simp] theorem recordSearch_build (r : Search) (s : State) : (recordSearch r s).build = s.build := rfl
@[simp] theorem recordSearch_cfg (r : Search) (s : State) : (recordSearch r s).cfg = s.cfg := rfl
@[simp] theorem recordSearch_argData (r : Search) (s : State) : (recordSearch r s).argData = s.argData := rfl
@[simp] theorem recordSearch_argMask (r : Search) (s : State) : (recordSearch r s).argMask = s.argMask := rfl
@[simp] theorem recordSearch_busy (r : Search) (s : State) : (recordSearch r s).busy = s.busy := rfl
@[simp] theorem recordSearch_err (r : Search) (s : State) : (recordSearch r s).err = s.err := rfl
@[simp] theorem recordSearch_phase (r : Search) (s : State) : (recordSearch r s).phase = s.phase := rfl
@[simp] theorem recordSearch_lastop (r : Search) (s : State) : (recordSearch r s).lastop = s.lastop := rfl
@[simp] theorem recordSearch_statStep (r : Search) (s : State) : (recordSearch r s).statStep = s.statStep := rfl
@[simp] theorem recordSearch_reject (r : Search) (s : State) : (recordSearch r s).reject = s.reject := rfl
@[simp] theorem recordSearch_rstline (r : Search) (s : State) : (recordSearch r s).rstline = s.rstline := rfl
@[simp] theorem recordSearch_fbd (r : Search) (s : State) : (recordSearch r s).fbd = s.fbd := rfl
@[simp] theorem recordSearch_prd (r : Search) (s : State) : (recordSearch r s).prd = s.prd := rfl
@[simp] theorem recordSearch_frs (r : Search) (s : State) : (recordSearch r s).frs = s.frs := rfl
@[simp] theorem recordSearch_valid (r : Search) (s : State) : (recordSearch r s).valid = s.valid := rfl
@[simp] theorem recordSearch_pllFreq (r : Search) (s : State) : (recordSearch r s).pllFreq = s.pllFreq := rfl
@[simp] theorem recordSearch_pllBitclk (r : Search) (s : State) : (recordSearch r s).pllBitclk = s.pllBitclk := rfl
@[simp] theorem recordSearch_pllRefclk (r : Search) (s : State) : (recordSearch r s).pllRefclk = s.pllRefclk := rfl
@[simp] theorem recordSearch_target (r : Search) (s : State) : (recordSearch r s).target = s.target := rfl
@[simp] theorem recordSearch_timHsync (r : Search) (s : State) : (recordSearch r s).timHsync = s.timHsync := rfl
@[simp] theorem recordSearch_timVsync (r : Search) (s : State) : (recordSearch r s).timVsync = s.timVsync := rfl
@[simp] theorem recordSearch_rdData (r : Search) (s : State) : (recordSearch r s).rdData = s.rdData := rfl
@[simp] theorem recordSearch_acfg (r : Search) (s : State) : (recordSearch r s).acfg = s.acfg := rfl
@[simp] theorem recordSearch_arg (r : Search) (s : State) : (recordSearch r s).arg = s.arg := rfl
@[simp] theorem recordSearch_op (r : Search) (s : State) : (recordSearch r s).op = s.op := rfl
@[simp] theorem recordSearch_rom (r : Search) (s : State) : (recordSearch r s).rom = s.rom := rfl
@[simp] theorem recordSearch_romStep (r : Search) (s : State) : (recordSearch r s).romStep = s.romStep := rfl
@[simp] theorem recordSearch_search (r : Search) (s : State) : (recordSearch r s).search = r := rfl
@[simp] theorem recordSearch_solveDone (r : Search) (s : State) : (recordSearch r s).solveDone = s.solveDone := rfl
@[simp] theorem recordSearch_bus (r : Search) (s : State) : (recordSearch r s).bus = s.bus := rfl
@[simp] theorem recordSearch_response (r : Search) (s : State) : (recordSearch r s).response = s.response := rfl
@[simp] theorem recordSearch_sub (r : Search) (s : State) : (recordSearch r s).sub = s.sub := rfl
@[simp] theorem recordSearch_readData (r : Search) (s : State) : (recordSearch r s).readData = s.readData := rfl
@[simp] theorem recordSearch_waiting (r : Search) (s : State) : (recordSearch r s).waiting = s.waiting := rfl
@[simp] theorem recordSearch_waitStart (r : Search) (s : State) : (recordSearch r s).waitStart = s.waitStart := rfl
@[simp] theorem recordSearch_now (r : Search) (s : State) : (recordSearch r s).now = s.now := rfl
@[simp] theorem recordSearch_inputs (r : Search) (s : State) : (recordSearch r s).inputs = s.inputs := rfl
@[simp] theorem recordSearch_log (r : Search) (s : State) : (recordSearch r s).log = s.log := rfl
@[simp] theorem recordSearch_reply (r : Search) (s : State) : (recordSearch r s).reply = s.reply := rfl

/-! ## commitSolution -/

@[simp] theorem commitSolution_build (i : Nat) (s : State) : (commitSolution i s).build = s.build := rfl
@[simp] theorem commitSolution_cfg (i : Nat) (s : State) : (commitSolution i s).cfg = s.cfg := rfl
@[simp] theorem commitSolution_argData (i : Nat) (s : State) : (commitSolution i s).argData = s.argData := rfl
@[simp] theorem commitSolution_argMask (i : Nat) (s : State) : (commitSolution i s).argMask = s.argMask := rfl
@[simp] theorem commitSolution_busy (i : Nat) (s : State) : (commitSolution i s).busy = s.busy := rfl
@[simp] theorem commitSolution_err (i : Nat) (s : State) : (commitSolution i s).err = s.err := rfl
@[simp] theorem commitSolution_phase (i : Nat) (s : State) : (commitSolution i s).phase = s.phase := rfl
@[simp] theorem commitSolution_lastop (i : Nat) (s : State) : (commitSolution i s).lastop = s.lastop := rfl
@[simp] theorem commitSolution_statStep (i : Nat) (s : State) : (commitSolution i s).statStep = s.statStep := rfl
@[simp] theorem commitSolution_reject (i : Nat) (s : State) : (commitSolution i s).reject = s.reject := rfl
@[simp] theorem commitSolution_rstline (i : Nat) (s : State) : (commitSolution i s).rstline = s.rstline := rfl
@[simp] theorem commitSolution_fbd (i : Nat) (s : State) :
    (commitSolution i s).fbd = BitVec.ofNat 9 s.search.bestFbd := rfl
@[simp] theorem commitSolution_prd (i : Nat) (s : State) :
    (commitSolution i s).prd = BitVec.ofNat 4 s.search.bestPrd := rfl
@[simp] theorem commitSolution_frs (i : Nat) (s : State) : (commitSolution i s).frs = BitVec.ofNat 2 i := rfl
@[simp] theorem commitSolution_valid (i : Nat) (s : State) : (commitSolution i s).valid = true := rfl
@[simp] theorem commitSolution_pllFreq (i : Nat) (s : State) :
    (commitSolution i s).pllFreq = BitVec.ofNat 32 s.search.bestPll := rfl
@[simp] theorem commitSolution_pllBitclk (i : Nat) (s : State) :
    (commitSolution i s).pllBitclk = BitVec.ofNat 32 (s.search.bestPll / 2) := rfl
@[simp] theorem commitSolution_pllRefclk (i : Nat) (s : State) : (commitSolution i s).pllRefclk = s.acfg.refclk := rfl
@[simp] theorem commitSolution_target (i : Nat) (s : State) : (commitSolution i s).target = s.target := rfl
@[simp] theorem commitSolution_timHsync (i : Nat) (s : State) : (commitSolution i s).timHsync = s.timHsync := rfl
@[simp] theorem commitSolution_timVsync (i : Nat) (s : State) : (commitSolution i s).timVsync = s.timVsync := rfl
@[simp] theorem commitSolution_rdData (i : Nat) (s : State) : (commitSolution i s).rdData = s.rdData := rfl
@[simp] theorem commitSolution_acfg (i : Nat) (s : State) : (commitSolution i s).acfg = s.acfg := rfl
@[simp] theorem commitSolution_arg (i : Nat) (s : State) : (commitSolution i s).arg = s.arg := rfl
@[simp] theorem commitSolution_op (i : Nat) (s : State) : (commitSolution i s).op = s.op := rfl
@[simp] theorem commitSolution_rom (i : Nat) (s : State) : (commitSolution i s).rom = s.rom := rfl
@[simp] theorem commitSolution_romStep (i : Nat) (s : State) : (commitSolution i s).romStep = s.romStep := rfl
@[simp] theorem commitSolution_search (i : Nat) (s : State) : (commitSolution i s).search = s.search := rfl
@[simp] theorem commitSolution_solveDone (i : Nat) (s : State) : (commitSolution i s).solveDone = s.solveDone := rfl
@[simp] theorem commitSolution_bus (i : Nat) (s : State) : (commitSolution i s).bus = s.bus := rfl
@[simp] theorem commitSolution_response (i : Nat) (s : State) : (commitSolution i s).response = s.response := rfl
@[simp] theorem commitSolution_sub (i : Nat) (s : State) : (commitSolution i s).sub = s.sub := rfl
@[simp] theorem commitSolution_readData (i : Nat) (s : State) : (commitSolution i s).readData = s.readData := rfl
@[simp] theorem commitSolution_waiting (i : Nat) (s : State) : (commitSolution i s).waiting = s.waiting := rfl
@[simp] theorem commitSolution_waitStart (i : Nat) (s : State) : (commitSolution i s).waitStart = s.waitStart := rfl
@[simp] theorem commitSolution_now (i : Nat) (s : State) : (commitSolution i s).now = s.now := rfl
@[simp] theorem commitSolution_inputs (i : Nat) (s : State) : (commitSolution i s).inputs = s.inputs := rfl
@[simp] theorem commitSolution_log (i : Nat) (s : State) : (commitSolution i s).log = s.log := rfl
@[simp] theorem commitSolution_reply (i : Nat) (s : State) : (commitSolution i s).reply = s.reply := rfl

/-! ## writeTiming -/

@[simp] theorem writeTiming_build (s : State) : (writeTiming s).build = s.build := rfl
@[simp] theorem writeTiming_cfg (s : State) : (writeTiming s).cfg = s.cfg := rfl
@[simp] theorem writeTiming_argData (s : State) : (writeTiming s).argData = s.argData := rfl
@[simp] theorem writeTiming_argMask (s : State) : (writeTiming s).argMask = s.argMask := rfl
@[simp] theorem writeTiming_busy (s : State) : (writeTiming s).busy = s.busy := rfl
@[simp] theorem writeTiming_err (s : State) : (writeTiming s).err = s.err := rfl
@[simp] theorem writeTiming_phase (s : State) : (writeTiming s).phase = s.phase := rfl
@[simp] theorem writeTiming_lastop (s : State) : (writeTiming s).lastop = s.lastop := rfl
@[simp] theorem writeTiming_statStep (s : State) : (writeTiming s).statStep = s.statStep := rfl
@[simp] theorem writeTiming_reject (s : State) : (writeTiming s).reject = s.reject := rfl
@[simp] theorem writeTiming_rstline (s : State) : (writeTiming s).rstline = s.rstline := rfl
@[simp] theorem writeTiming_fbd (s : State) : (writeTiming s).fbd = s.fbd := rfl
@[simp] theorem writeTiming_prd (s : State) : (writeTiming s).prd = s.prd := rfl
@[simp] theorem writeTiming_frs (s : State) : (writeTiming s).frs = s.frs := rfl
@[simp] theorem writeTiming_valid (s : State) : (writeTiming s).valid = s.valid := rfl
@[simp] theorem writeTiming_pllFreq (s : State) : (writeTiming s).pllFreq = s.pllFreq := rfl
@[simp] theorem writeTiming_pllBitclk (s : State) : (writeTiming s).pllBitclk = s.pllBitclk := rfl
@[simp] theorem writeTiming_pllRefclk (s : State) : (writeTiming s).pllRefclk = s.pllRefclk := rfl
@[simp] theorem writeTiming_target (s : State) : (writeTiming s).target = s.target := rfl
@[simp] theorem writeTiming_timHsync (s : State) :
    (writeTiming s).timHsync = BitVec.ofNat 32 (hsyncValue s.acfg s.pllBitclk.toNat) := rfl
@[simp] theorem writeTiming_timVsync (s : State) :
    (writeTiming s).timVsync = BitVec.ofNat 32 (vsyncValue s.acfg) := rfl
@[simp] theorem writeTiming_rdData (s : State) : (writeTiming s).rdData = s.rdData := rfl
@[simp] theorem writeTiming_acfg (s : State) : (writeTiming s).acfg = s.acfg := rfl
@[simp] theorem writeTiming_arg (s : State) : (writeTiming s).arg = s.arg := rfl
@[simp] theorem writeTiming_op (s : State) : (writeTiming s).op = s.op := rfl
@[simp] theorem writeTiming_rom (s : State) : (writeTiming s).rom = s.rom := rfl
@[simp] theorem writeTiming_romStep (s : State) : (writeTiming s).romStep = s.romStep := rfl
@[simp] theorem writeTiming_search (s : State) : (writeTiming s).search = s.search := rfl
@[simp] theorem writeTiming_solveDone (s : State) : (writeTiming s).solveDone = s.solveDone := rfl
@[simp] theorem writeTiming_bus (s : State) : (writeTiming s).bus = s.bus := rfl
@[simp] theorem writeTiming_response (s : State) : (writeTiming s).response = s.response := rfl
@[simp] theorem writeTiming_sub (s : State) : (writeTiming s).sub = s.sub := rfl
@[simp] theorem writeTiming_readData (s : State) : (writeTiming s).readData = s.readData := rfl
@[simp] theorem writeTiming_waiting (s : State) : (writeTiming s).waiting = s.waiting := rfl
@[simp] theorem writeTiming_waitStart (s : State) : (writeTiming s).waitStart = s.waitStart := rfl
@[simp] theorem writeTiming_now (s : State) : (writeTiming s).now = s.now := rfl
@[simp] theorem writeTiming_inputs (s : State) : (writeTiming s).inputs = s.inputs := rfl
@[simp] theorem writeTiming_log (s : State) : (writeTiming s).log = s.log := rfl
@[simp] theorem writeTiming_reply (s : State) : (writeTiming s).reply = s.reply := rfl

/-! ## writeRdData -/

@[simp] theorem writeRdData_build (v : Word) (s : State) : (writeRdData v s).build = s.build := rfl
@[simp] theorem writeRdData_cfg (v : Word) (s : State) : (writeRdData v s).cfg = s.cfg := rfl
@[simp] theorem writeRdData_argData (v : Word) (s : State) : (writeRdData v s).argData = s.argData := rfl
@[simp] theorem writeRdData_argMask (v : Word) (s : State) : (writeRdData v s).argMask = s.argMask := rfl
@[simp] theorem writeRdData_busy (v : Word) (s : State) : (writeRdData v s).busy = s.busy := rfl
@[simp] theorem writeRdData_err (v : Word) (s : State) : (writeRdData v s).err = s.err := rfl
@[simp] theorem writeRdData_phase (v : Word) (s : State) : (writeRdData v s).phase = s.phase := rfl
@[simp] theorem writeRdData_lastop (v : Word) (s : State) : (writeRdData v s).lastop = s.lastop := rfl
@[simp] theorem writeRdData_statStep (v : Word) (s : State) : (writeRdData v s).statStep = s.statStep := rfl
@[simp] theorem writeRdData_reject (v : Word) (s : State) : (writeRdData v s).reject = s.reject := rfl
@[simp] theorem writeRdData_rstline (v : Word) (s : State) : (writeRdData v s).rstline = s.rstline := rfl
@[simp] theorem writeRdData_fbd (v : Word) (s : State) : (writeRdData v s).fbd = s.fbd := rfl
@[simp] theorem writeRdData_prd (v : Word) (s : State) : (writeRdData v s).prd = s.prd := rfl
@[simp] theorem writeRdData_frs (v : Word) (s : State) : (writeRdData v s).frs = s.frs := rfl
@[simp] theorem writeRdData_valid (v : Word) (s : State) : (writeRdData v s).valid = s.valid := rfl
@[simp] theorem writeRdData_pllFreq (v : Word) (s : State) : (writeRdData v s).pllFreq = s.pllFreq := rfl
@[simp] theorem writeRdData_pllBitclk (v : Word) (s : State) : (writeRdData v s).pllBitclk = s.pllBitclk := rfl
@[simp] theorem writeRdData_pllRefclk (v : Word) (s : State) : (writeRdData v s).pllRefclk = s.pllRefclk := rfl
@[simp] theorem writeRdData_target (v : Word) (s : State) : (writeRdData v s).target = s.target := rfl
@[simp] theorem writeRdData_timHsync (v : Word) (s : State) : (writeRdData v s).timHsync = s.timHsync := rfl
@[simp] theorem writeRdData_timVsync (v : Word) (s : State) : (writeRdData v s).timVsync = s.timVsync := rfl
@[simp] theorem writeRdData_rdData (v : Word) (s : State) : (writeRdData v s).rdData = v := rfl
@[simp] theorem writeRdData_acfg (v : Word) (s : State) : (writeRdData v s).acfg = s.acfg := rfl
@[simp] theorem writeRdData_arg (v : Word) (s : State) : (writeRdData v s).arg = s.arg := rfl
@[simp] theorem writeRdData_op (v : Word) (s : State) : (writeRdData v s).op = s.op := rfl
@[simp] theorem writeRdData_rom (v : Word) (s : State) : (writeRdData v s).rom = s.rom := rfl
@[simp] theorem writeRdData_romStep (v : Word) (s : State) : (writeRdData v s).romStep = s.romStep := rfl
@[simp] theorem writeRdData_search (v : Word) (s : State) : (writeRdData v s).search = s.search := rfl
@[simp] theorem writeRdData_solveDone (v : Word) (s : State) : (writeRdData v s).solveDone = s.solveDone := rfl
@[simp] theorem writeRdData_bus (v : Word) (s : State) : (writeRdData v s).bus = s.bus := rfl
@[simp] theorem writeRdData_response (v : Word) (s : State) : (writeRdData v s).response = s.response := rfl
@[simp] theorem writeRdData_sub (v : Word) (s : State) : (writeRdData v s).sub = s.sub := rfl
@[simp] theorem writeRdData_readData (v : Word) (s : State) : (writeRdData v s).readData = s.readData := rfl
@[simp] theorem writeRdData_waiting (v : Word) (s : State) : (writeRdData v s).waiting = s.waiting := rfl
@[simp] theorem writeRdData_waitStart (v : Word) (s : State) : (writeRdData v s).waitStart = s.waitStart := rfl
@[simp] theorem writeRdData_now (v : Word) (s : State) : (writeRdData v s).now = s.now := rfl
@[simp] theorem writeRdData_inputs (v : Word) (s : State) : (writeRdData v s).inputs = s.inputs := rfl
@[simp] theorem writeRdData_log (v : Word) (s : State) : (writeRdData v s).log = s.log := rfl
@[simp] theorem writeRdData_reply (v : Word) (s : State) : (writeRdData v s).reply = s.reply := rfl

/-! ## markSolved -/

@[simp] theorem markSolved_build (s : State) : (markSolved s).build = s.build := rfl
@[simp] theorem markSolved_cfg (s : State) : (markSolved s).cfg = s.cfg := rfl
@[simp] theorem markSolved_argData (s : State) : (markSolved s).argData = s.argData := rfl
@[simp] theorem markSolved_argMask (s : State) : (markSolved s).argMask = s.argMask := rfl
@[simp] theorem markSolved_busy (s : State) : (markSolved s).busy = s.busy := rfl
@[simp] theorem markSolved_err (s : State) : (markSolved s).err = s.err := rfl
@[simp] theorem markSolved_phase (s : State) : (markSolved s).phase = s.phase := rfl
@[simp] theorem markSolved_lastop (s : State) : (markSolved s).lastop = s.lastop := rfl
@[simp] theorem markSolved_statStep (s : State) : (markSolved s).statStep = s.statStep := rfl
@[simp] theorem markSolved_reject (s : State) : (markSolved s).reject = s.reject := rfl
@[simp] theorem markSolved_rstline (s : State) : (markSolved s).rstline = s.rstline := rfl
@[simp] theorem markSolved_fbd (s : State) : (markSolved s).fbd = s.fbd := rfl
@[simp] theorem markSolved_prd (s : State) : (markSolved s).prd = s.prd := rfl
@[simp] theorem markSolved_frs (s : State) : (markSolved s).frs = s.frs := rfl
@[simp] theorem markSolved_valid (s : State) : (markSolved s).valid = s.valid := rfl
@[simp] theorem markSolved_pllFreq (s : State) : (markSolved s).pllFreq = s.pllFreq := rfl
@[simp] theorem markSolved_pllBitclk (s : State) : (markSolved s).pllBitclk = s.pllBitclk := rfl
@[simp] theorem markSolved_pllRefclk (s : State) : (markSolved s).pllRefclk = s.pllRefclk := rfl
@[simp] theorem markSolved_target (s : State) : (markSolved s).target = s.target := rfl
@[simp] theorem markSolved_timHsync (s : State) : (markSolved s).timHsync = s.timHsync := rfl
@[simp] theorem markSolved_timVsync (s : State) : (markSolved s).timVsync = s.timVsync := rfl
@[simp] theorem markSolved_rdData (s : State) : (markSolved s).rdData = s.rdData := rfl
@[simp] theorem markSolved_acfg (s : State) : (markSolved s).acfg = s.acfg := rfl
@[simp] theorem markSolved_arg (s : State) : (markSolved s).arg = s.arg := rfl
@[simp] theorem markSolved_op (s : State) : (markSolved s).op = s.op := rfl
@[simp] theorem markSolved_rom (s : State) : (markSolved s).rom = s.rom := rfl
@[simp] theorem markSolved_romStep (s : State) : (markSolved s).romStep = s.romStep := rfl
@[simp] theorem markSolved_search (s : State) : (markSolved s).search = s.search := rfl
@[simp] theorem markSolved_solveDone (s : State) : (markSolved s).solveDone = true := rfl
@[simp] theorem markSolved_bus (s : State) : (markSolved s).bus = s.bus := rfl
@[simp] theorem markSolved_response (s : State) : (markSolved s).response = s.response := rfl
@[simp] theorem markSolved_sub (s : State) : (markSolved s).sub = s.sub := rfl
@[simp] theorem markSolved_readData (s : State) : (markSolved s).readData = s.readData := rfl
@[simp] theorem markSolved_waiting (s : State) : (markSolved s).waiting = s.waiting := rfl
@[simp] theorem markSolved_waitStart (s : State) : (markSolved s).waitStart = s.waitStart := rfl
@[simp] theorem markSolved_now (s : State) : (markSolved s).now = s.now := rfl
@[simp] theorem markSolved_inputs (s : State) : (markSolved s).inputs = s.inputs := rfl
@[simp] theorem markSolved_log (s : State) : (markSolved s).log = s.log := rfl
@[simp] theorem markSolved_reply (s : State) : (markSolved s).reply = s.reply := rfl

/-! ## writeStatus -/

@[simp] theorem writeStatus_build (w : Word) (s : State) : (writeStatus w s).build = s.build := rfl
@[simp] theorem writeStatus_cfg (w : Word) (s : State) : (writeStatus w s).cfg = s.cfg := rfl
@[simp] theorem writeStatus_argData (w : Word) (s : State) : (writeStatus w s).argData = s.argData := rfl
@[simp] theorem writeStatus_argMask (w : Word) (s : State) : (writeStatus w s).argMask = s.argMask := rfl
@[simp] theorem writeStatus_busy (w : Word) (s : State) : (writeStatus w s).busy = s.busy := rfl
@[simp] theorem writeStatus_err (w : Word) (s : State) : (writeStatus w s).err = s.err := rfl
@[simp] theorem writeStatus_phase (w : Word) (s : State) : (writeStatus w s).phase = s.phase := rfl
@[simp] theorem writeStatus_lastop (w : Word) (s : State) : (writeStatus w s).lastop = s.lastop := rfl
@[simp] theorem writeStatus_statStep (w : Word) (s : State) : (writeStatus w s).statStep = s.statStep := rfl
@[simp] theorem writeStatus_reject (w : Word) (s : State) :
    (writeStatus w s).reject = (s.reject && !w.getLsbD 24) := rfl
@[simp] theorem writeStatus_rstline (w : Word) (s : State) : (writeStatus w s).rstline = s.rstline := rfl
@[simp] theorem writeStatus_fbd (w : Word) (s : State) : (writeStatus w s).fbd = s.fbd := rfl
@[simp] theorem writeStatus_prd (w : Word) (s : State) : (writeStatus w s).prd = s.prd := rfl
@[simp] theorem writeStatus_frs (w : Word) (s : State) : (writeStatus w s).frs = s.frs := rfl
@[simp] theorem writeStatus_valid (w : Word) (s : State) : (writeStatus w s).valid = s.valid := rfl
@[simp] theorem writeStatus_pllFreq (w : Word) (s : State) : (writeStatus w s).pllFreq = s.pllFreq := rfl
@[simp] theorem writeStatus_pllBitclk (w : Word) (s : State) : (writeStatus w s).pllBitclk = s.pllBitclk := rfl
@[simp] theorem writeStatus_pllRefclk (w : Word) (s : State) : (writeStatus w s).pllRefclk = s.pllRefclk := rfl
@[simp] theorem writeStatus_target (w : Word) (s : State) : (writeStatus w s).target = s.target := rfl
@[simp] theorem writeStatus_timHsync (w : Word) (s : State) : (writeStatus w s).timHsync = s.timHsync := rfl
@[simp] theorem writeStatus_timVsync (w : Word) (s : State) : (writeStatus w s).timVsync = s.timVsync := rfl
@[simp] theorem writeStatus_rdData (w : Word) (s : State) : (writeStatus w s).rdData = s.rdData := rfl
@[simp] theorem writeStatus_acfg (w : Word) (s : State) : (writeStatus w s).acfg = s.acfg := rfl
@[simp] theorem writeStatus_arg (w : Word) (s : State) : (writeStatus w s).arg = s.arg := rfl
@[simp] theorem writeStatus_op (w : Word) (s : State) : (writeStatus w s).op = s.op := rfl
@[simp] theorem writeStatus_rom (w : Word) (s : State) : (writeStatus w s).rom = s.rom := rfl
@[simp] theorem writeStatus_romStep (w : Word) (s : State) : (writeStatus w s).romStep = s.romStep := rfl
@[simp] theorem writeStatus_search (w : Word) (s : State) : (writeStatus w s).search = s.search := rfl
@[simp] theorem writeStatus_solveDone (w : Word) (s : State) : (writeStatus w s).solveDone = s.solveDone := rfl
@[simp] theorem writeStatus_bus (w : Word) (s : State) : (writeStatus w s).bus = s.bus := rfl
@[simp] theorem writeStatus_response (w : Word) (s : State) : (writeStatus w s).response = s.response := rfl
@[simp] theorem writeStatus_sub (w : Word) (s : State) : (writeStatus w s).sub = s.sub := rfl
@[simp] theorem writeStatus_readData (w : Word) (s : State) : (writeStatus w s).readData = s.readData := rfl
@[simp] theorem writeStatus_waiting (w : Word) (s : State) : (writeStatus w s).waiting = s.waiting := rfl
@[simp] theorem writeStatus_waitStart (w : Word) (s : State) : (writeStatus w s).waitStart = s.waitStart := rfl
@[simp] theorem writeStatus_now (w : Word) (s : State) : (writeStatus w s).now = s.now := rfl
@[simp] theorem writeStatus_inputs (w : Word) (s : State) : (writeStatus w s).inputs = s.inputs := rfl
@[simp] theorem writeStatus_log (w : Word) (s : State) : (writeStatus w s).log = s.log := rfl
@[simp] theorem writeStatus_reply (w : Word) (s : State) : (writeStatus w s).reply = s.reply := rfl

/-! ## respond -/

@[simp] theorem respond_build (r : HostReply) (s : State) : (respond r s).build = s.build := rfl
@[simp] theorem respond_cfg (r : HostReply) (s : State) : (respond r s).cfg = s.cfg := rfl
@[simp] theorem respond_argData (r : HostReply) (s : State) : (respond r s).argData = s.argData := rfl
@[simp] theorem respond_argMask (r : HostReply) (s : State) : (respond r s).argMask = s.argMask := rfl
@[simp] theorem respond_busy (r : HostReply) (s : State) : (respond r s).busy = s.busy := rfl
@[simp] theorem respond_err (r : HostReply) (s : State) : (respond r s).err = s.err := rfl
@[simp] theorem respond_phase (r : HostReply) (s : State) : (respond r s).phase = s.phase := rfl
@[simp] theorem respond_lastop (r : HostReply) (s : State) : (respond r s).lastop = s.lastop := rfl
@[simp] theorem respond_statStep (r : HostReply) (s : State) : (respond r s).statStep = s.statStep := rfl
@[simp] theorem respond_reject (r : HostReply) (s : State) : (respond r s).reject = s.reject := rfl
@[simp] theorem respond_rstline (r : HostReply) (s : State) : (respond r s).rstline = s.rstline := rfl
@[simp] theorem respond_fbd (r : HostReply) (s : State) : (respond r s).fbd = s.fbd := rfl
@[simp] theorem respond_prd (r : HostReply) (s : State) : (respond r s).prd = s.prd := rfl
@[simp] theorem respond_frs (r : HostReply) (s : State) : (respond r s).frs = s.frs := rfl
@[simp] theorem respond_valid (r : HostReply) (s : State) : (respond r s).valid = s.valid := rfl
@[simp] theorem respond_pllFreq (r : HostReply) (s : State) : (respond r s).pllFreq = s.pllFreq := rfl
@[simp] theorem respond_pllBitclk (r : HostReply) (s : State) : (respond r s).pllBitclk = s.pllBitclk := rfl
@[simp] theorem respond_pllRefclk (r : HostReply) (s : State) : (respond r s).pllRefclk = s.pllRefclk := rfl
@[simp] theorem respond_target (r : HostReply) (s : State) : (respond r s).target = s.target := rfl
@[simp] theorem respond_timHsync (r : HostReply) (s : State) : (respond r s).timHsync = s.timHsync := rfl
@[simp] theorem respond_timVsync (r : HostReply) (s : State) : (respond r s).timVsync = s.timVsync := rfl
@[simp] theorem respond_rdData (r : HostReply) (s : State) : (respond r s).rdData = s.rdData := rfl
@[simp] theorem respond_acfg (r : HostReply) (s : State) : (respond r s).acfg = s.acfg := rfl
@[simp] theorem respond_arg (r : HostReply) (s : State) : (respond r s).arg = s.arg := rfl
@[simp] theorem respond_op (r : HostReply) (s : State) : (respond r s).op = s.op := rfl
@[simp] theorem respond_rom (r : HostReply) (s : State) : (respond r s).rom = s.rom := rfl
@[simp] theorem respond_romStep (r : HostReply) (s : State) : (respond r s).romStep = s.romStep := rfl
@[simp] theorem respond_search (r : HostReply) (s : State) : (respond r s).search = s.search := rfl
@[simp] theorem respond_solveDone (r : HostReply) (s : State) : (respond r s).solveDone = s.solveDone := rfl
@[simp] theorem respond_bus (r : HostReply) (s : State) : (respond r s).bus = s.bus := rfl
@[simp] theorem respond_response (r : HostReply) (s : State) : (respond r s).response = s.response := rfl
@[simp] theorem respond_sub (r : HostReply) (s : State) : (respond r s).sub = s.sub := rfl
@[simp] theorem respond_readData (r : HostReply) (s : State) : (respond r s).readData = s.readData := rfl
@[simp] theorem respond_waiting (r : HostReply) (s : State) : (respond r s).waiting = s.waiting := rfl
@[simp] theorem respond_waitStart (r : HostReply) (s : State) : (respond r s).waitStart = s.waitStart := rfl
@[simp] theorem respond_now (r : HostReply) (s : State) : (respond r s).now = s.now := rfl
@[simp] theorem respond_inputs (r : HostReply) (s : State) : (respond r s).inputs = s.inputs := rfl
@[simp] theorem respond_log (r : HostReply) (s : State) : (respond r s).log = s.log := rfl
@[simp] theorem respond_reply (r : HostReply) (s : State) : (respond r s).reply = some r := rfl

/-! ## mirrorStep -/

@[simp] theorem mirrorStep_build (s : State) : (mirrorStep s).build = s.build := rfl
@[simp] theorem mirrorStep_cfg (s : State) : (mirrorStep s).cfg = s.cfg := rfl
@[simp] theorem mirrorStep_argData (s : State) : (mirrorStep s).argData = s.argData := rfl
@[simp] theorem mirrorStep_argMask (s : State) : (mirrorStep s).argMask = s.argMask := rfl
@[simp] theorem mirrorStep_busy (s : State) : (mirrorStep s).busy = s.busy := rfl
@[simp] theorem mirrorStep_err (s : State) : (mirrorStep s).err = s.err := rfl
@[simp] theorem mirrorStep_phase (s : State) : (mirrorStep s).phase = s.phase := rfl
@[simp] theorem mirrorStep_lastop (s : State) : (mirrorStep s).lastop = s.lastop := rfl
@[simp] theorem mirrorStep_statStep (s : State) : (mirrorStep s).statStep = s.romStep := rfl
@[simp] theorem mirrorStep_reject (s : State) : (mirrorStep s).reject = s.reject := rfl
@[simp] theorem mirrorStep_rstline (s : State) : (mirrorStep s).rstline = s.rstline := rfl
@[simp] theorem mirrorStep_fbd (s : State) : (mirrorStep s).fbd = s.fbd := rfl
@[simp] theorem mirrorStep_prd (s : State) : (mirrorStep s).prd = s.prd := rfl
@[simp] theorem mirrorStep_frs (s : State) : (mirrorStep s).frs = s.frs := rfl
@[simp] theorem mirrorStep_valid (s : State) : (mirrorStep s).valid = s.valid := rfl
@[simp] theorem mirrorStep_pllFreq (s : State) : (mirrorStep s).pllFreq = s.pllFreq := rfl
@[simp] theorem mirrorStep_pllBitclk (s : State) : (mirrorStep s).pllBitclk = s.pllBitclk := rfl
@[simp] theorem mirrorStep_pllRefclk (s : State) : (mirrorStep s).pllRefclk = s.pllRefclk := rfl
@[simp] theorem mirrorStep_target (s : State) : (mirrorStep s).target = s.target := rfl
@[simp] theorem mirrorStep_timHsync (s : State) : (mirrorStep s).timHsync = s.timHsync := rfl
@[simp] theorem mirrorStep_timVsync (s : State) : (mirrorStep s).timVsync = s.timVsync := rfl
@[simp] theorem mirrorStep_rdData (s : State) : (mirrorStep s).rdData = s.rdData := rfl
@[simp] theorem mirrorStep_acfg (s : State) : (mirrorStep s).acfg = s.acfg := rfl
@[simp] theorem mirrorStep_arg (s : State) : (mirrorStep s).arg = s.arg := rfl
@[simp] theorem mirrorStep_op (s : State) : (mirrorStep s).op = s.op := rfl
@[simp] theorem mirrorStep_rom (s : State) : (mirrorStep s).rom = s.rom := rfl
@[simp] theorem mirrorStep_romStep (s : State) : (mirrorStep s).romStep = s.romStep := rfl
@[simp] theorem mirrorStep_search (s : State) : (mirrorStep s).search = s.search := rfl
@[simp] theorem mirrorStep_solveDone (s : State) : (mirrorStep s).solveDone = s.solveDone := rfl
@[simp] theorem mirrorStep_bus (s : State) : (mirrorStep s).bus = s.bus := rfl
@[simp] theorem mirrorStep_response (s : State) : (mirrorStep s).response = s.response := rfl
@[simp] theorem mirrorStep_sub (s : State) : (mirrorStep s).sub = s.sub := rfl
@[simp] theorem mirrorStep_readData (s : State) : (mirrorStep s).readData = s.readData := rfl
@[simp] theorem mirrorStep_waiting (s : State) : (mirrorStep s).waiting = s.waiting := rfl
@[simp] theorem mirrorStep_waitStart (s : State) : (mirrorStep s).waitStart = s.waitStart := rfl
@[simp] theorem mirrorStep_now (s : State) : (mirrorStep s).now = s.now := rfl
@[simp] theorem mirrorStep_inputs (s : State) : (mirrorStep s).inputs = s.inputs := rfl
@[simp] theorem mirrorStep_log (s : State) : (mirrorStep s).log = s.log := rfl
@[simp] theorem mirrorStep_reply (s : State) : (mirrorStep s).reply = s.reply := rfl

/-! ## elapse -/

@[simp] theorem elapse_build (us : Nat) (s : State) : (elapse us s).build = s.build := rfl
@[simp] theorem elapse_cfg (us : Nat) (s : State) : (elapse us s).cfg = s.cfg := rfl
@[simp] theorem elapse_argData (us : Nat) (s : State) : (elapse us s).argData = s.argData := rfl
@[simp] theorem elapse_argMask (us : Nat) (s : State) : (elapse us s).argMask = s.argMask := rfl
@[simp] theorem elapse_busy (us : Nat) (s : State) : (elapse us s).busy = s.busy := rfl
@[simp] theorem elapse_err (us : Nat) (s : State) : (elapse us s).err = s.err := rfl
@[simp] theorem elapse_phase (us : Nat) (s : State) : (elapse us s).phase = s.phase := rfl
@[simp] theorem elapse_lastop (us : Nat) (s : State) : (elapse us s).lastop = s.lastop := rfl
@[simp] theorem elapse_statStep (us : Nat) (s : State) : (elapse us s).statStep = s.statStep := rfl
@[simp] theorem elapse_reject (us : Nat) (s : State) : (elapse us s).reject = s.reject := rfl
@[simp] theorem elapse_rstline (us : Nat) (s : State) : (elapse us s).rstline = s.rstline := rfl
@[simp] theorem elapse_fbd (us : Nat) (s : State) : (elapse us s).fbd = s.fbd := rfl
@[simp] theorem elapse_prd (us : Nat) (s : State) : (elapse us s).prd = s.prd := rfl
@[simp] theorem elapse_frs (us : Nat) (s : State) : (elapse us s).frs = s.frs := rfl
@[simp] theorem elapse_valid (us : Nat) (s : State) : (elapse us s).valid = s.valid := rfl
@[simp] theorem elapse_pllFreq (us : Nat) (s : State) : (elapse us s).pllFreq = s.pllFreq := rfl
@[simp] theorem elapse_pllBitclk (us : Nat) (s : State) : (elapse us s).pllBitclk = s.pllBitclk := rfl
@[simp] theorem elapse_pllRefclk (us : Nat) (s : State) : (elapse us s).pllRefclk = s.pllRefclk := rfl
@[simp] theorem elapse_target (us : Nat) (s : State) : (elapse us s).target = s.target := rfl
@[simp] theorem elapse_timHsync (us : Nat) (s : State) : (elapse us s).timHsync = s.timHsync := rfl
@[simp] theorem elapse_timVsync (us : Nat) (s : State) : (elapse us s).timVsync = s.timVsync := rfl
@[simp] theorem elapse_rdData (us : Nat) (s : State) : (elapse us s).rdData = s.rdData := rfl
@[simp] theorem elapse_acfg (us : Nat) (s : State) : (elapse us s).acfg = s.acfg := rfl
@[simp] theorem elapse_arg (us : Nat) (s : State) : (elapse us s).arg = s.arg := rfl
@[simp] theorem elapse_op (us : Nat) (s : State) : (elapse us s).op = s.op := rfl
@[simp] theorem elapse_rom (us : Nat) (s : State) : (elapse us s).rom = s.rom := rfl
@[simp] theorem elapse_romStep (us : Nat) (s : State) : (elapse us s).romStep = s.romStep := rfl
@[simp] theorem elapse_search (us : Nat) (s : State) : (elapse us s).search = s.search := rfl
@[simp] theorem elapse_solveDone (us : Nat) (s : State) : (elapse us s).solveDone = s.solveDone := rfl
@[simp] theorem elapse_bus (us : Nat) (s : State) : (elapse us s).bus = s.bus := rfl
@[simp] theorem elapse_response (us : Nat) (s : State) : (elapse us s).response = s.response := rfl
@[simp] theorem elapse_sub (us : Nat) (s : State) : (elapse us s).sub = s.sub := rfl
@[simp] theorem elapse_readData (us : Nat) (s : State) : (elapse us s).readData = s.readData := rfl
@[simp] theorem elapse_waiting (us : Nat) (s : State) : (elapse us s).waiting = s.waiting := rfl
@[simp] theorem elapse_waitStart (us : Nat) (s : State) : (elapse us s).waitStart = s.waitStart := rfl
@[simp] theorem elapse_now (us : Nat) (s : State) : (elapse us s).now = s.now + us := rfl
@[simp] theorem elapse_inputs (us : Nat) (s : State) : (elapse us s).inputs = s.inputs := rfl
@[simp] theorem elapse_log (us : Nat) (s : State) : (elapse us s).log = s.log := rfl
@[simp] theorem elapse_reply (us : Nat) (s : State) : (elapse us s).reply = s.reply := rfl

/-! ## dropInput -/

@[simp] theorem dropInput_build (s : State) : (dropInput s).build = s.build := rfl
@[simp] theorem dropInput_cfg (s : State) : (dropInput s).cfg = s.cfg := rfl
@[simp] theorem dropInput_argData (s : State) : (dropInput s).argData = s.argData := rfl
@[simp] theorem dropInput_argMask (s : State) : (dropInput s).argMask = s.argMask := rfl
@[simp] theorem dropInput_busy (s : State) : (dropInput s).busy = s.busy := rfl
@[simp] theorem dropInput_err (s : State) : (dropInput s).err = s.err := rfl
@[simp] theorem dropInput_phase (s : State) : (dropInput s).phase = s.phase := rfl
@[simp] theorem dropInput_lastop (s : State) : (dropInput s).lastop = s.lastop := rfl
@[simp] theorem dropInput_statStep (s : State) : (dropInput s).statStep = s.statStep := rfl
@[simp] theorem dropInput_reject (s : State) : (dropInput s).reject = s.reject := rfl
@[simp] theorem dropInput_rstline (s : State) : (dropInput s).rstline = s.rstline := rfl
@[simp] theorem dropInput_fbd (s : State) : (dropInput s).fbd = s.fbd := rfl
@[simp] theorem dropInput_prd (s : State) : (dropInput s).prd = s.prd := rfl
@[simp] theorem dropInput_frs (s : State) : (dropInput s).frs = s.frs := rfl
@[simp] theorem dropInput_valid (s : State) : (dropInput s).valid = s.valid := rfl
@[simp] theorem dropInput_pllFreq (s : State) : (dropInput s).pllFreq = s.pllFreq := rfl
@[simp] theorem dropInput_pllBitclk (s : State) : (dropInput s).pllBitclk = s.pllBitclk := rfl
@[simp] theorem dropInput_pllRefclk (s : State) : (dropInput s).pllRefclk = s.pllRefclk := rfl
@[simp] theorem dropInput_target (s : State) : (dropInput s).target = s.target := rfl
@[simp] theorem dropInput_timHsync (s : State) : (dropInput s).timHsync = s.timHsync := rfl
@[simp] theorem dropInput_timVsync (s : State) : (dropInput s).timVsync = s.timVsync := rfl
@[simp] theorem dropInput_rdData (s : State) : (dropInput s).rdData = s.rdData := rfl
@[simp] theorem dropInput_acfg (s : State) : (dropInput s).acfg = s.acfg := rfl
@[simp] theorem dropInput_arg (s : State) : (dropInput s).arg = s.arg := rfl
@[simp] theorem dropInput_op (s : State) : (dropInput s).op = s.op := rfl
@[simp] theorem dropInput_rom (s : State) : (dropInput s).rom = s.rom := rfl
@[simp] theorem dropInput_romStep (s : State) : (dropInput s).romStep = s.romStep := rfl
@[simp] theorem dropInput_search (s : State) : (dropInput s).search = s.search := rfl
@[simp] theorem dropInput_solveDone (s : State) : (dropInput s).solveDone = s.solveDone := rfl
@[simp] theorem dropInput_bus (s : State) : (dropInput s).bus = s.bus := rfl
@[simp] theorem dropInput_response (s : State) : (dropInput s).response = s.response := rfl
@[simp] theorem dropInput_sub (s : State) : (dropInput s).sub = s.sub := rfl
@[simp] theorem dropInput_readData (s : State) : (dropInput s).readData = s.readData := rfl
@[simp] theorem dropInput_waiting (s : State) : (dropInput s).waiting = s.waiting := rfl
@[simp] theorem dropInput_waitStart (s : State) : (dropInput s).waitStart = s.waitStart := rfl
@[simp] theorem dropInput_now (s : State) : (dropInput s).now = s.now := rfl
@[simp] theorem dropInput_inputs (s : State) : (dropInput s).inputs = s.inputs.tail := rfl
@[simp] theorem dropInput_log (s : State) : (dropInput s).log = s.log := rfl
@[simp] theorem dropInput_reply (s : State) : (dropInput s).reply = s.reply := rfl

/-! ## driveResetLine -/

@[simp] theorem driveResetLine_build (l : Bool) (s : State) : (driveResetLine l s).build = s.build := by
  unfold driveResetLine; split <;> rfl
@[simp] theorem driveResetLine_cfg (l : Bool) (s : State) : (driveResetLine l s).cfg = s.cfg := by
  unfold driveResetLine; split <;> rfl
@[simp] theorem driveResetLine_argData (l : Bool) (s : State) : (driveResetLine l s).argData = s.argData := by
  unfold driveResetLine; split <;> rfl
@[simp] theorem driveResetLine_argMask (l : Bool) (s : State) : (driveResetLine l s).argMask = s.argMask := by
  unfold driveResetLine; split <;> rfl
@[simp] theorem driveResetLine_busy (l : Bool) (s : State) : (driveResetLine l s).busy = s.busy := by
  unfold driveResetLine; split <;> rfl
@[simp] theorem driveResetLine_err (l : Bool) (s : State) : (driveResetLine l s).err = s.err := by
  unfold driveResetLine; split <;> rfl
@[simp] theorem driveResetLine_phase (l : Bool) (s : State) : (driveResetLine l s).phase = s.phase := by
  unfold driveResetLine; split <;> rfl
@[simp] theorem driveResetLine_lastop (l : Bool) (s : State) : (driveResetLine l s).lastop = s.lastop := by
  unfold driveResetLine; split <;> rfl
@[simp] theorem driveResetLine_statStep (l : Bool) (s : State) : (driveResetLine l s).statStep = s.statStep := by
  unfold driveResetLine; split <;> rfl
@[simp] theorem driveResetLine_reject (l : Bool) (s : State) : (driveResetLine l s).reject = s.reject := by
  unfold driveResetLine; split <;> rfl
@[simp] theorem driveResetLine_fbd (l : Bool) (s : State) : (driveResetLine l s).fbd = s.fbd := by
  unfold driveResetLine; split <;> rfl
@[simp] theorem driveResetLine_prd (l : Bool) (s : State) : (driveResetLine l s).prd = s.prd := by
  unfold driveResetLine; split <;> rfl
@[simp] theorem driveResetLine_frs (l : Bool) (s : State) : (driveResetLine l s).frs = s.frs := by
  unfold driveResetLine; split <;> rfl
@[simp] theorem driveResetLine_valid (l : Bool) (s : State) : (driveResetLine l s).valid = s.valid := by
  unfold driveResetLine; split <;> rfl
@[simp] theorem driveResetLine_pllFreq (l : Bool) (s : State) : (driveResetLine l s).pllFreq = s.pllFreq := by
  unfold driveResetLine; split <;> rfl
@[simp] theorem driveResetLine_pllBitclk (l : Bool) (s : State) : (driveResetLine l s).pllBitclk = s.pllBitclk := by
  unfold driveResetLine; split <;> rfl
@[simp] theorem driveResetLine_pllRefclk (l : Bool) (s : State) : (driveResetLine l s).pllRefclk = s.pllRefclk := by
  unfold driveResetLine; split <;> rfl
@[simp] theorem driveResetLine_target (l : Bool) (s : State) : (driveResetLine l s).target = s.target := by
  unfold driveResetLine; split <;> rfl
@[simp] theorem driveResetLine_timHsync (l : Bool) (s : State) : (driveResetLine l s).timHsync = s.timHsync := by
  unfold driveResetLine; split <;> rfl
@[simp] theorem driveResetLine_timVsync (l : Bool) (s : State) : (driveResetLine l s).timVsync = s.timVsync := by
  unfold driveResetLine; split <;> rfl
@[simp] theorem driveResetLine_rdData (l : Bool) (s : State) : (driveResetLine l s).rdData = s.rdData := by
  unfold driveResetLine; split <;> rfl
@[simp] theorem driveResetLine_acfg (l : Bool) (s : State) : (driveResetLine l s).acfg = s.acfg := by
  unfold driveResetLine; split <;> rfl
@[simp] theorem driveResetLine_arg (l : Bool) (s : State) : (driveResetLine l s).arg = s.arg := by
  unfold driveResetLine; split <;> rfl
@[simp] theorem driveResetLine_op (l : Bool) (s : State) : (driveResetLine l s).op = s.op := by
  unfold driveResetLine; split <;> rfl
@[simp] theorem driveResetLine_rom (l : Bool) (s : State) : (driveResetLine l s).rom = s.rom := by
  unfold driveResetLine; split <;> rfl
@[simp] theorem driveResetLine_romStep (l : Bool) (s : State) : (driveResetLine l s).romStep = s.romStep := by
  unfold driveResetLine; split <;> rfl
@[simp] theorem driveResetLine_search (l : Bool) (s : State) : (driveResetLine l s).search = s.search := by
  unfold driveResetLine; split <;> rfl
@[simp] theorem driveResetLine_solveDone (l : Bool) (s : State) : (driveResetLine l s).solveDone = s.solveDone := by
  unfold driveResetLine; split <;> rfl
@[simp] theorem driveResetLine_bus (l : Bool) (s : State) : (driveResetLine l s).bus = s.bus := by
  unfold driveResetLine; split <;> rfl
@[simp] theorem driveResetLine_response (l : Bool) (s : State) : (driveResetLine l s).response = s.response := by
  unfold driveResetLine; split <;> rfl
@[simp] theorem driveResetLine_sub (l : Bool) (s : State) : (driveResetLine l s).sub = s.sub := by
  unfold driveResetLine; split <;> rfl
@[simp] theorem driveResetLine_readData (l : Bool) (s : State) : (driveResetLine l s).readData = s.readData := by
  unfold driveResetLine; split <;> rfl
@[simp] theorem driveResetLine_waiting (l : Bool) (s : State) : (driveResetLine l s).waiting = s.waiting := by
  unfold driveResetLine; split <;> rfl
@[simp] theorem driveResetLine_waitStart (l : Bool) (s : State) : (driveResetLine l s).waitStart = s.waitStart := by
  unfold driveResetLine; split <;> rfl
@[simp] theorem driveResetLine_now (l : Bool) (s : State) : (driveResetLine l s).now = s.now := by
  unfold driveResetLine; split <;> rfl
@[simp] theorem driveResetLine_inputs (l : Bool) (s : State) : (driveResetLine l s).inputs = s.inputs := by
  unfold driveResetLine; split <;> rfl
@[simp] theorem driveResetLine_reply (l : Bool) (s : State) : (driveResetLine l s).reply = s.reply := by
  unfold driveResetLine; split <;> rfl

/-! ## deliverAnswer -/

@[simp] theorem deliverAnswer_build (a : Answer) (s : State) : (deliverAnswer a s).build = s.build := by
  unfold deliverAnswer; split <;> rfl
@[simp] theorem deliverAnswer_cfg (a : Answer) (s : State) : (deliverAnswer a s).cfg = s.cfg := by
  unfold deliverAnswer; split <;> rfl
@[simp] theorem deliverAnswer_argData (a : Answer) (s : State) : (deliverAnswer a s).argData = s.argData := by
  unfold deliverAnswer; split <;> rfl
@[simp] theorem deliverAnswer_argMask (a : Answer) (s : State) : (deliverAnswer a s).argMask = s.argMask := by
  unfold deliverAnswer; split <;> rfl
@[simp] theorem deliverAnswer_busy (a : Answer) (s : State) : (deliverAnswer a s).busy = s.busy := by
  unfold deliverAnswer; split <;> rfl
@[simp] theorem deliverAnswer_err (a : Answer) (s : State) : (deliverAnswer a s).err = s.err := by
  unfold deliverAnswer; split <;> rfl
@[simp] theorem deliverAnswer_phase (a : Answer) (s : State) : (deliverAnswer a s).phase = s.phase := by
  unfold deliverAnswer; split <;> rfl
@[simp] theorem deliverAnswer_lastop (a : Answer) (s : State) : (deliverAnswer a s).lastop = s.lastop := by
  unfold deliverAnswer; split <;> rfl
@[simp] theorem deliverAnswer_statStep (a : Answer) (s : State) : (deliverAnswer a s).statStep = s.statStep := by
  unfold deliverAnswer; split <;> rfl
@[simp] theorem deliverAnswer_reject (a : Answer) (s : State) : (deliverAnswer a s).reject = s.reject := by
  unfold deliverAnswer; split <;> rfl
@[simp] theorem deliverAnswer_rstline (a : Answer) (s : State) : (deliverAnswer a s).rstline = s.rstline := by
  unfold deliverAnswer; split <;> rfl
@[simp] theorem deliverAnswer_fbd (a : Answer) (s : State) : (deliverAnswer a s).fbd = s.fbd := by
  unfold deliverAnswer; split <;> rfl
@[simp] theorem deliverAnswer_prd (a : Answer) (s : State) : (deliverAnswer a s).prd = s.prd := by
  unfold deliverAnswer; split <;> rfl
@[simp] theorem deliverAnswer_frs (a : Answer) (s : State) : (deliverAnswer a s).frs = s.frs := by
  unfold deliverAnswer; split <;> rfl
@[simp] theorem deliverAnswer_valid (a : Answer) (s : State) : (deliverAnswer a s).valid = s.valid := by
  unfold deliverAnswer; split <;> rfl
@[simp] theorem deliverAnswer_pllFreq (a : Answer) (s : State) : (deliverAnswer a s).pllFreq = s.pllFreq := by
  unfold deliverAnswer; split <;> rfl
@[simp] theorem deliverAnswer_pllBitclk (a : Answer) (s : State) : (deliverAnswer a s).pllBitclk = s.pllBitclk := by
  unfold deliverAnswer; split <;> rfl
@[simp] theorem deliverAnswer_pllRefclk (a : Answer) (s : State) : (deliverAnswer a s).pllRefclk = s.pllRefclk := by
  unfold deliverAnswer; split <;> rfl
@[simp] theorem deliverAnswer_target (a : Answer) (s : State) : (deliverAnswer a s).target = s.target := by
  unfold deliverAnswer; split <;> rfl
@[simp] theorem deliverAnswer_timHsync (a : Answer) (s : State) : (deliverAnswer a s).timHsync = s.timHsync := by
  unfold deliverAnswer; split <;> rfl
@[simp] theorem deliverAnswer_timVsync (a : Answer) (s : State) : (deliverAnswer a s).timVsync = s.timVsync := by
  unfold deliverAnswer; split <;> rfl
@[simp] theorem deliverAnswer_rdData (a : Answer) (s : State) : (deliverAnswer a s).rdData = s.rdData := by
  unfold deliverAnswer; split <;> rfl
@[simp] theorem deliverAnswer_acfg (a : Answer) (s : State) : (deliverAnswer a s).acfg = s.acfg := by
  unfold deliverAnswer; split <;> rfl
@[simp] theorem deliverAnswer_arg (a : Answer) (s : State) : (deliverAnswer a s).arg = s.arg := by
  unfold deliverAnswer; split <;> rfl
@[simp] theorem deliverAnswer_op (a : Answer) (s : State) : (deliverAnswer a s).op = s.op := by
  unfold deliverAnswer; split <;> rfl
@[simp] theorem deliverAnswer_rom (a : Answer) (s : State) : (deliverAnswer a s).rom = s.rom := by
  unfold deliverAnswer; split <;> rfl
@[simp] theorem deliverAnswer_romStep (a : Answer) (s : State) : (deliverAnswer a s).romStep = s.romStep := by
  unfold deliverAnswer; split <;> rfl
@[simp] theorem deliverAnswer_search (a : Answer) (s : State) : (deliverAnswer a s).search = s.search := by
  unfold deliverAnswer; split <;> rfl
@[simp] theorem deliverAnswer_solveDone (a : Answer) (s : State) : (deliverAnswer a s).solveDone = s.solveDone := by
  unfold deliverAnswer; split <;> rfl
@[simp] theorem deliverAnswer_sub (a : Answer) (s : State) : (deliverAnswer a s).sub = s.sub := by
  unfold deliverAnswer; split <;> rfl
@[simp] theorem deliverAnswer_readData (a : Answer) (s : State) : (deliverAnswer a s).readData = s.readData := by
  unfold deliverAnswer; split <;> rfl
@[simp] theorem deliverAnswer_waiting (a : Answer) (s : State) : (deliverAnswer a s).waiting = s.waiting := by
  unfold deliverAnswer; split <;> rfl
@[simp] theorem deliverAnswer_waitStart (a : Answer) (s : State) : (deliverAnswer a s).waitStart = s.waitStart := by
  unfold deliverAnswer; split <;> rfl
@[simp] theorem deliverAnswer_now (a : Answer) (s : State) : (deliverAnswer a s).now = s.now := by
  unfold deliverAnswer; split <;> rfl
@[simp] theorem deliverAnswer_inputs (a : Answer) (s : State) : (deliverAnswer a s).inputs = s.inputs := by
  unfold deliverAnswer; split <;> rfl
@[simp] theorem deliverAnswer_reply (a : Answer) (s : State) : (deliverAnswer a s).reply = s.reply := by
  unfold deliverAnswer; split <;> rfl

end Sys2Proof.Machine
end

