-- ==== Sys2Proof/Laws/Ops.lean ====
section
/-! SUPPORT. What each shared operation can do, said once: the operations of Machine/Ops.lean and Machine/Solver.lean,
and, for each meaning, the next states it answers. -/

namespace Sys2Proof.Machine

/-! ## Commands -/

/-- A direct command's three cases. -/
theorem direct_cases (kind : OpKind) (accept : State → State) (run : State → Result) (s : State) :
    (s.busy = true ∧ s.op = kind ∧ direct kind accept run s = run s) ∨
    (s.busy = true ∧ s.op ≠ kind ∧ direct kind accept run s = .next (rejectCmd s)) ∨
    (s.busy = false ∧ direct kind accept run s = .next (accept s)) := by
  unfold direct
  by_cases hb : s.busy = true <;> by_cases hk : s.op = kind <;> simp_all

/-- Taking an exception always answers the aborted state. -/
theorem raise_next (e : ErrKind) (s : State) : raise e s = .next (abort e s) := rfl

/-! ## Micro-ops -/

/-- A wait's three cases. -/
theorem wait_cases (m : Nat) (s : State) (k : State → Result) :
    (s.waiting = false ∧ wait m s k = .next (startWait s)) ∨
    (s.waiting = true ∧ m ≤ s.now - s.waitStart ∧ wait m s k = k (endWait s)) ∨
    (s.waiting = true ∧ s.now - s.waitStart < m ∧ wait m s k = .next s) := by
  unfold wait
  by_cases hw : s.waiting = true
  · by_cases hm : m ≤ s.now - s.waitStart
    · exact .inr (.inl ⟨hw, hm, by simp [hw, hm]⟩)
    · exact .inr (.inr ⟨hw, by omega, by simp [hw, hm]⟩)
  · exact .inl ⟨by simpa using hw, by simp [hw]⟩

/-- Driving the reset line changes the level if there is a line and the level differs, and then records it. -/
theorem driveResetLine_cases (l : Bool) (s : State) :
    (s.build.hasResetLine = true ∧ s.rstline ≠ l ∧
      driveResetLine l s = { s with rstline := l, log := s.log ++ [.resetLine l s.now] }) ∨
    ((s.build.hasResetLine = false ∨ s.rstline = l) ∧ driveResetLine l s = s) := by
  unfold driveResetLine
  cases h : s.build.hasResetLine <;> by_cases hl : s.rstline = l <;> simp_all

/-! ## Transactions -/

/-- Two states that differ at most in what a register access writes. -/
def AccessFrame (s t : State) : Prop :=
  t = { s with bus := t.bus, response := t.response, sub := t.sub, readData := t.readData, log := t.log }

theorem AccessFrame.refl (s : State) : AccessFrame s s := rfl

theorem AccessFrame.trans {s t u : State} (h : AccessFrame s t) (h' : AccessFrame t u) : AccessFrame s u := by
  unfold AccessFrame at *
  rw [h'] ; conv => lhs ; rw [h]

theorem AccessFrame.build {s t : State} (h : AccessFrame s t) : t.build = s.build := by rw [h]
theorem AccessFrame.cfg {s t : State} (h : AccessFrame s t) : t.cfg = s.cfg := by rw [h]
theorem AccessFrame.argData {s t : State} (h : AccessFrame s t) : t.argData = s.argData := by rw [h]
theorem AccessFrame.argMask {s t : State} (h : AccessFrame s t) : t.argMask = s.argMask := by rw [h]
theorem AccessFrame.busy {s t : State} (h : AccessFrame s t) : t.busy = s.busy := by rw [h]
theorem AccessFrame.err {s t : State} (h : AccessFrame s t) : t.err = s.err := by rw [h]
theorem AccessFrame.phase {s t : State} (h : AccessFrame s t) : t.phase = s.phase := by rw [h]
theorem AccessFrame.lastop {s t : State} (h : AccessFrame s t) : t.lastop = s.lastop := by rw [h]
theorem AccessFrame.statStep {s t : State} (h : AccessFrame s t) : t.statStep = s.statStep := by rw [h]
theorem AccessFrame.reject {s t : State} (h : AccessFrame s t) : t.reject = s.reject := by rw [h]
theorem AccessFrame.rstline {s t : State} (h : AccessFrame s t) : t.rstline = s.rstline := by rw [h]
theorem AccessFrame.fbd {s t : State} (h : AccessFrame s t) : t.fbd = s.fbd := by rw [h]
theorem AccessFrame.prd {s t : State} (h : AccessFrame s t) : t.prd = s.prd := by rw [h]
theorem AccessFrame.frs {s t : State} (h : AccessFrame s t) : t.frs = s.frs := by rw [h]
theorem AccessFrame.valid {s t : State} (h : AccessFrame s t) : t.valid = s.valid := by rw [h]
theorem AccessFrame.pllFreq {s t : State} (h : AccessFrame s t) : t.pllFreq = s.pllFreq := by rw [h]
theorem AccessFrame.pllBitclk {s t : State} (h : AccessFrame s t) : t.pllBitclk = s.pllBitclk := by rw [h]
theorem AccessFrame.pllRefclk {s t : State} (h : AccessFrame s t) : t.pllRefclk = s.pllRefclk := by rw [h]
theorem AccessFrame.target {s t : State} (h : AccessFrame s t) : t.target = s.target := by rw [h]
theorem AccessFrame.timHsync {s t : State} (h : AccessFrame s t) : t.timHsync = s.timHsync := by rw [h]
theorem AccessFrame.timVsync {s t : State} (h : AccessFrame s t) : t.timVsync = s.timVsync := by rw [h]
theorem AccessFrame.rdData {s t : State} (h : AccessFrame s t) : t.rdData = s.rdData := by rw [h]
theorem AccessFrame.acfg {s t : State} (h : AccessFrame s t) : t.acfg = s.acfg := by rw [h]
theorem AccessFrame.arg {s t : State} (h : AccessFrame s t) : t.arg = s.arg := by rw [h]
theorem AccessFrame.op {s t : State} (h : AccessFrame s t) : t.op = s.op := by rw [h]
theorem AccessFrame.rom {s t : State} (h : AccessFrame s t) : t.rom = s.rom := by rw [h]
theorem AccessFrame.romStep {s t : State} (h : AccessFrame s t) : t.romStep = s.romStep := by rw [h]
theorem AccessFrame.search {s t : State} (h : AccessFrame s t) : t.search = s.search := by rw [h]
theorem AccessFrame.solveDone {s t : State} (h : AccessFrame s t) : t.solveDone = s.solveDone := by rw [h]
theorem AccessFrame.waiting {s t : State} (h : AccessFrame s t) : t.waiting = s.waiting := by rw [h]
theorem AccessFrame.waitStart {s t : State} (h : AccessFrame s t) : t.waitStart = s.waitStart := by rw [h]
theorem AccessFrame.now {s t : State} (h : AccessFrame s t) : t.now = s.now := by rw [h]
theorem AccessFrame.inputs {s t : State} (h : AccessFrame s t) : t.inputs = s.inputs := by rw [h]
theorem AccessFrame.reply {s t : State} (h : AccessFrame s t) : t.reply = s.reply := by rw [h]

theorem issueTx_frame (x : Tx) (s : State) : AccessFrame s (issueTx x s) := rfl

theorem receive_frame (a : Answer) (s : State) : AccessFrame s (receive a s) := rfl

theorem takeResponse_frame (s : State) : AccessFrame s (takeResponse s) := rfl

theorem stepAccess_frame (access : Access) (d : Half) (s : State) : AccessFrame s (stepAccess access d s) := rfl

theorem beginAccess_frame (s : State) : AccessFrame s (beginAccess s) := rfl

theorem txAt_eq {access : Access} {s : State} {data : List Half} {n : Nat} (hd : s.readData = data) (hn : s.sub = n) :
    txAt access s = (access data)[n]? := by rw [txAt, hd, hn]

theorem keepRead_some (x : Tx) (d : Half) (data : List Half) : keepRead (some x) d data = data ++ readsGiven [(x, d)] := by
  cases x <;> simp [keepRead, readsGiven]

/-- The state in which a turn of an access issues its next transaction or completes: the access begins, or an OK answer
is taken. -/
inductive Ready (access : Access) (s : State) : State → Prop where
  | begins : s.bus = .idle → s.response = none → Ready access s (beginAccess s)
  | takes (d : Half) : s.bus = .idle → s.response = some (.ok d) → Ready access s (stepAccess access d s)

theorem Ready.frame {access : Access} {s m : State} (h : Ready access s m) : AccessFrame s m := by
  cases h <;> rfl

theorem Ready.bus {access : Access} {s m : State} (h : Ready access s m) : m.bus = .idle := by
  cases h <;> simp [*]

theorem Ready.response {access : Access} {s m : State} (h : Ready access s m) : m.response = none := by
  cases h <;> simp [*]

theorem Ready.log {access : Access} {s m : State} (h : Ready access s m) : m.log = s.log := by
  cases h <;> rfl

/-- Everything one turn in an access can do. -/
theorem runAccess_cases (access : Access) (s : State) (k : State → Result) :
    (∃ x, s.bus = .pending x ∧ runAccess access s k = .next s) ∨
    (∃ m x, Ready access s m ∧ txAt access m = some x ∧ runAccess access s k = .next (issueTx x m)) ∨
    (∃ m, Ready access s m ∧ txAt access m = none ∧ runAccess access s k = k m) ∨
    (s.bus = .idle ∧ s.response = some .err ∧
      runAccess access s k = .next (abort .busError (takeResponse s))) := by
  have go : ∀ m, Ready access s m → runAccess access s k = issueNext access m k →
      (∃ m x, Ready access s m ∧ txAt access m = some x ∧ runAccess access s k = .next (issueTx x m)) ∨
      (∃ m, Ready access s m ∧ txAt access m = none ∧ runAccess access s k = k m) := by
    intro m hm hr
    cases hx : txAt access m with
    | some x => exact .inl ⟨m, x, hm, hx, by rw [hr, issueNext, hx]⟩
    | none => exact .inr ⟨m, hm, hx, by rw [hr, issueNext, hx]⟩
  cases hb : s.bus with
  | pending x => exact .inl ⟨x, rfl, by simp [runAccess, hb]⟩
  | idle =>
    cases hr : s.response with
    | none =>
      obtain h | h := go _ (.begins hb hr) (by simp [runAccess, hb, hr])
      · exact .inr (.inl h)
      · exact .inr (.inr (.inl h))
    | some a =>
      cases a with
      | err => exact .inr (.inr (.inr ⟨rfl, rfl, by simp [runAccess, hb, hr, raise_next]⟩))
      | ok d =>
        obtain h | h := go _ (.takes d hb hr) (by simp [runAccess, hb, hr])
        · exact .inr (.inl h)
        · exact .inr (.inr (.inl h))

/-- The first turn of an access issues its first transaction. -/
theorem runAccess_begin {access : Access} {s : State} {k : State → Result} {x : Tx} (hb : s.bus = .idle)
    (hr : s.response = none) (hx : (access [])[0]? = some x) :
    runAccess access s k = .next (issueTx x (beginAccess s)) := by
  simp [runAccess, issueNext, txAt, hb, hr, hx]

/-- With a transaction outstanding a turn changes nothing. -/
theorem runAccess_wait {access : Access} {s : State} {k : State → Result} {x : Tx} (hb : s.bus = .pending x) :
    runAccess access s k = .next s := by simp [runAccess, hb]

/-- An OK answer with a transaction to follow: it is issued. -/
theorem runAccess_ok {access : Access} {s : State} {k : State → Result} {x : Tx} {d : Half} (hb : s.bus = .idle)
    (hr : s.response = some (.ok d)) (hx : txAt access (stepAccess access d s) = some x) :
    runAccess access s k = .next (issueTx x (stepAccess access d s)) := by
  simp [runAccess, issueNext, hb, hr, hx]

/-- An OK answer to the last transaction: the access completes. -/
theorem runAccess_done {access : Access} {s : State} {k : State → Result} {d : Half} (hb : s.bus = .idle)
    (hr : s.response = some (.ok d)) (hx : txAt access (stepAccess access d s) = none) :
    runAccess access s k = k (stepAccess access d s) := by
  simp [runAccess, issueNext, hb, hr, hx]

/-- An ERR answer: BUS_ERROR. -/
theorem runAccess_err {access : Access} {s : State} {k : State → Result} (hb : s.bus = .idle)
    (hr : s.response = some .err) : runAccess access s k = .next (abort .busError (takeResponse s)) := by
  simp [runAccess, hb, hr, raise_next]

theorem busOfLog_append (l es : List LogEntry) : busOfLog (l ++ es) = es.foldl busAfter (busOfLog l) := by
  simp [busOfLog]

/-! ## Width classes -/

theorem widthClass_w16 {a : Addr} (h : a.toNat < 0x100 ∨ 0x600 ≤ a.toNat) : widthClass a = .w16 := if_pos h

theorem widthClass_w32 {a : Addr} (h1 : 0x100 ≤ a.toNat) (h2 : a.toNat < 0x600) : widthClass a = .w32 :=
  if_neg fun h => h.elim (fun h => absurd h (Nat.not_lt.2 h1)) (fun h => absurd h (Nat.not_le.2 h2))

/-- A short packet is an access, or the profile is refused. -/
theorem sendShort_cases (c p0 p1 : Byte) (s : State) (k : State → Result) :
    (∃ addrs, shortAddrs s.build.profile = some addrs ∧
      sendShort c p0 p1 s k = runAccess (fun _ => sendShortTxs s.build.profile addrs c p0 p1) s k) ∨
    (shortAddrs s.build.profile = none ∧ sendShort c p0 p1 s k = .refused .illFormedProfile) := by
  unfold sendShort
  cases h : shortAddrs s.build.profile <;> simp

/-! ## Solver -/

/-- A solve's four cases. -/
theorem solve_cases (s : State) (k : State → Result) :
    (configOk s.acfg = false ∧ solve s k = .refused .configNotLatched) ∨
    (configOk s.acfg = true ∧ bracket (targetFreq s.acfg) = none ∧
      solve s k = .next (abort .outOfRange (beginSolve (targetFreq s.acfg) s))) ∨
    ∃ frs, configOk s.acfg = true ∧ bracket (targetFreq s.acfg) = some frs ∧
      (((searchPll s.acfg.refclk.toNat frs (targetFreq s.acfg)).found = true ∧
        solve s k = k (commitSolution frs (recordSearch (searchPll s.acfg.refclk.toNat frs (targetFreq s.acfg))
          (beginSolve (targetFreq s.acfg) s)))) ∨
      ((searchPll s.acfg.refclk.toNat frs (targetFreq s.acfg)).found = false ∧
        solve s k = .next (abort .noSolution (recordSearch
          (searchPll s.acfg.refclk.toNat frs (targetFreq s.acfg)) (beginSolve (targetFreq s.acfg) s))))) := by
  unfold solve
  cases hc : configOk s.acfg
  · exact .inl ⟨rfl, by simp⟩
  · cases hb : bracket (targetFreq s.acfg) with
    | none => exact .inr (.inl ⟨rfl, rfl, by simp [raise_next, hb]⟩)
    | some frs =>
      refine .inr (.inr ⟨frs, rfl, rfl, ?_⟩)
      cases hf : (searchPll s.acfg.refclk.toNat frs (targetFreq s.acfg)).found
      · exact .inr ⟨rfl, by simp [hb, hf, raise_next]⟩
      · exact .inl ⟨rfl, by simp [hb, hf]⟩

/-- A derivation's three cases. -/
theorem derive_cases (s : State) (k : State → Result) :
    (s.valid = false ∧ derive s k = .refused (.deriveWithoutSolution s.rom s.romStep)) ∨
    (s.valid = true ∧ configOk s.acfg = false ∧ derive s k = .refused .configNotLatched) ∨
    (s.valid = true ∧ configOk s.acfg = true ∧ derive s k = k (writeTiming s)) := by
  unfold derive
  cases hv : s.valid <;> cases hc : configOk s.acfg <;> simp

/-! ## Block reset -/

/-- Block reset leaves the reset state of the build, in an environment that goes on. -/
theorem blockReset_eq (s : State) : blockReset s = { State.resetOf s.build with
    now := s.now, inputs := s.inputs, log := (blockReset s).log } := rfl

/-! ## The environment's moves -/

/-- An answer arrives if a transaction is outstanding; else nothing happens. -/
theorem deliverAnswer_cases (a : Answer) (s : State) :
    (∃ x, s.bus = .pending x ∧ deliverAnswer a s = receive a s) ∨ (s.bus = .idle ∧ deliverAnswer a s = s) := by
  unfold deliverAnswer
  cases hb : s.bus <;> simp

theorem deliverAnswer_frame (a : Answer) (s : State) : AccessFrame s (deliverAnswer a s) := by
  unfold deliverAnswer AccessFrame
  split <;> rfl

/-- A step is a turn of the Engine, or the move of the first input. -/
theorem step_cases (s : State) :
    (s.inputs = [] ∧ step s = engineTurn s) ∨
    ∃ i rest, s.inputs = i :: rest ∧ step s = applyInput i (dropInput s) := by
  unfold step
  cases h : s.inputs with
  | nil => exact .inl ⟨rfl, rfl⟩
  | cons i rest => exact .inr ⟨i, rest, rfl, rfl⟩

/-- A turn of the Engine runs the current instruction, a ROM's after its fetch. -/
theorem engineTurn_cases (s : State) :
    (s.busy = false ∧ engineTurn s = .next s) ∨
    (s.busy = true ∧ s.op = .none ∧ engineTurn s = .next s) ∨
    (s.busy = true ∧ romRunning s ∧ engineTurn s = romTurn s) ∨
    ∃ i, s.busy = true ∧ ¬ romRunning s ∧ currentInstr s = some i ∧ engineTurn s = exec i s := by
  unfold engineTurn currentInstr romRunning
  cases hb : s.busy <;> cases ho : s.op <;> simp

/-- A turn of the ROM interpreter: the fetched word's instruction, or a stop. -/
theorem romTurn_cases (s : State) :
    (fetchWord s = none ∧ romTurn s = .fault (.fetchOutsideRom s.rom s.romStep)) ∨
    (∃ w e, fetchWord s = some w ∧ decodeUop w = .error e ∧
      romTurn s = .refused (.illFormedMicroOp s.rom s.romStep)) ∨
    ∃ w i, fetchWord s = some w ∧ decodeUop w = .ok i ∧ romTurn s = exec i (mirrorStep s) := by
  unfold romTurn
  cases hf : fetchWord s with
  | none => simp
  | some w => cases hd : decodeUop w <;> simp [hd]

/-! ## A search without a candidate -/

/-- The inner loop finds nothing where no candidate is inside the bracket (R157). -/
theorem scanFbd_found_of_outside {refclk frs target prd : Nat}
    (h : ∀ fbd, fbd < 512 →
      candidate refclk frs prd fbd < frsLimit (frs + 1) ∨ frsLimit frs ≤ candidate refclk frs prd fbd) :
    ∀ (left : Nat) (r : Search), (scanFbd refclk frs target prd left r).found = r.found
  | 0, _ => rfl
  | left + 1, r => by
    have hb : fbdCount - (left + 1) < 512 := by simp only [fbdCount]; omega
    have he : (evalPair refclk frs target prd (fbdCount - (left + 1)) r).found = r.found := by
      simp [evalPair, h _ hb]
    unfold scanFbd
    dsimp only
    split
    · exact he
    · rw [scanFbd_found_of_outside h left, he]

/-- The search finds nothing where no candidate is inside the bracket (R157). -/
theorem searchPll_found_of_outside {refclk frs target : Nat}
    (h : ∀ prd fbd, prd < 16 → fbd < 512 →
      candidate refclk frs prd fbd < frsLimit (frs + 1) ∨ frsLimit frs ≤ candidate refclk frs prd fbd) :
    (searchPll refclk frs target).found = false := by
  have go : ∀ (left : Nat) (r : Search), (scanPrd refclk frs target left r).found = r.found := by
    intro left
    induction left with
    | zero => intro r; rfl
    | succ left ih =>
      intro r
      have hb : prdCount - (left + 1) < 16 := by simp only [prdCount]; omega
      unfold scanPrd
      dsimp only
      split
      · exact scanFbd_found_of_outside (fun f => h _ f hb) _ r
      · rw [ih, scanFbd_found_of_outside (fun f => h _ f hb)]
  exact go _ _

end Sys2Proof.Machine
end

