-- ==== Sys2Proof/Laws/Exec.lean ====
section
/-! SUPPORT. The next states each meaning answers, one lemma per instruction, in terms of the shared operations: the
provers cite these instead of unfolding a meaning. -/

namespace Sys2Proof.Machine

/-- The next states of a turn in an access, `done` being what completes it: the Engine waits, issues the next
transaction, completes the access, or raises BUS_ERROR. -/
inductive AccessNext (access : Access) (done : State → State) (s : State) : State → Prop where
  | waits (x : Tx) : s.bus = .pending x → AccessNext access done s s
  | issues (m : State) (x : Tx) : Ready access s m → txAt access m = some x → AccessNext access done s (issueTx x m)
  | completes (m : State) : Ready access s m → txAt access m = none → AccessNext access done s (done m)
  | fails : s.bus = .idle → s.response = some .err → AccessNext access done s (abort .busError (takeResponse s))

theorem runAccess_next {access : Access} {done : State → State} {s t : State}
    (h : runAccess access s (fun m => .next (done m)) = .next t) : AccessNext access done s t := by
  obtain ⟨x, hb, hr⟩ | ⟨m, x, hm, hx, hr⟩ | ⟨m, hm, hx, hr⟩ | ⟨hb, ha, hr⟩ :=
    runAccess_cases access s (fun m => .next (done m))
  all_goals rw [hr] at h; cases h
  · exact .waits x hb
  · exact .issues m x hm hx
  · exact .completes m hm hx
  · exact .fails hb ha

/-- An access's turn writes nothing but the bus port, the access's position and the observation, besides what its
completion or its failure writes. -/
theorem AccessNext.frame {access : Access} {done : State → State} {s t : State} (h : AccessNext access done s t) :
    ∃ m, AccessFrame s m ∧ (t = m ∨ t = done m ∨ t = abort .busError m) := by
  cases h with
  | waits x _ => exact ⟨s, .refl s, .inl rfl⟩
  | issues m x hm _ => exact ⟨issueTx x m, hm.frame.trans (issueTx_frame x m), .inl rfl⟩
  | completes m hm _ => exact ⟨m, hm.frame, .inr (.inl rfl)⟩
  | fails _ _ => exact ⟨takeResponse s, takeResponse_frame s, .inr (.inr rfl)⟩

/-- The next states of a direct command, `running` being those of a turn of its own operation. -/
def DirectNext (kind : OpKind) (accepted : State) (running : State → Prop) (s t : State) : Prop :=
  (s.busy = true ∧ s.op = kind ∧ running t) ∨ (s.busy = true ∧ s.op ≠ kind ∧ t = rejectCmd s) ∨
    (s.busy = false ∧ t = accepted)

theorem direct_next {kind : OpKind} {accept : State → State} {run : State → Result} {running : State → Prop}
    {s t : State} (hrun : run s = .next t → running t) (h : direct kind accept run s = .next t) :
    DirectNext kind (accept s) running s t := by
  obtain ⟨hb, hk, hd⟩ | ⟨hb, hk, hd⟩ | ⟨hb, hd⟩ := direct_cases kind accept run s
  · exact .inl ⟨hb, hk, hrun (hd ▸ h)⟩
  · rw [hd] at h; cases h; exact .inr (.inl ⟨hb, hk, rfl⟩)
  · rw [hd] at h; cases h; exact .inr (.inr ⟨hb, rfl⟩)

/-! ## The sequencer -/

theorem enable_next {s t : State} (h : exec .enable s = .next t) :
    (s.busy = true ∧ t = rejectCmd s) ∨
    (s.busy = false ∧ configOk s.cfg = false ∧ t = refuseCommand .badConfig (beginCommand 0x1 s)) ∨
    (s.busy = false ∧ configOk s.cfg = true ∧
      t = selectRom .bringup (startOp .enable (latchConfig (beginCommand 0x1 s)))) := by
  simp only [exec, execEnable] at h
  cases hb : s.busy <;> cases hc : configOk s.cfg <;> simp [hb, hc] at h <;> simp [h]

theorem disable_next {s t : State} (h : exec .disable s = .next t) :
    (s.busy = true ∧ t = rejectCmd s) ∨
    (s.busy = false ∧ t = selectRom .teardown (startOp .disable (beginCommand 0x2 s))) := by
  simp only [exec, execDisable] at h
  cases hb : s.busy <;> simp [hb] at h <;> simp [h]

theorem uEnd_next {s t : State} (h : exec .uEnd s = .next t) : t = finish s := by
  simp only [exec, execUEnd] at h; cases h; rfl

theorem uPhase_next {p : Phase} {s t : State} (h : exec (.uPhase p) s = .next t) : t = advance (enterPhase p s) := by
  simp only [exec, execUPhase] at h; cases h; rfl

theorem uWait_next {d : Delay} {s t : State} (h : exec (.uWait d) s = .next t) :
    (s.waiting = false ∧ t = startWait s) ∨
    (s.waiting = true ∧ delayMinUs d ≤ s.now - s.waitStart ∧ t = advance (endWait s)) ∨
    (s.waiting = true ∧ s.now - s.waitStart < delayMinUs d ∧ t = s) := by
  simp only [exec, execUWait] at h
  obtain ⟨hw, hr⟩ | ⟨hw, hm, hr⟩ | ⟨hw, hm, hr⟩ := wait_cases (delayMinUs d) s fun t => .next (advance t)
  all_goals rw [hr] at h; cases h; simp [*]

theorem uRstline_next {l : Bool} {s t : State} (h : exec (.uRstline l) s = .next t) :
    t = advance (driveResetLine l s) := by
  simp only [exec, execURstline] at h; cases h; rfl

/-! ## Register accesses and short packets -/

theorem uWr_next {reg : Byte} {v : Src} {s t : State} (h : exec (.uWr reg v) s = .next t) :
    ∃ access, accessOf s (.uWr reg v) = some access ∧ AccessNext access advance s t := by
  simp only [exec, execUWr] at h
  simp only [accessOf]
  split at h
  · rename_i ha hv
    exact ⟨_, by simp only [ha, hv], runAccess_next h⟩
  · cases h

theorem uUpd_next {reg : Byte} {m v : Src} {s t : State} (h : exec (.uUpd reg m v) s = .next t) :
    ∃ access, accessOf s (.uUpd reg m v) = some access ∧ AccessNext access advance s t := by
  simp only [exec, execUUpd] at h
  simp only [accessOf]
  split at h
  · rename_i ha hm hv
    exact ⟨_, by simp only [ha, hm, hv], runAccess_next h⟩
  · cases h

theorem uShort_next {c p0 p1 : Byte} {s t : State} (h : exec (.uShort c p0 p1) s = .next t) :
    ∃ access, accessOf s (.uShort c p0 p1) = some access ∧ AccessNext access advance s t := by
  simp only [exec, execUShort] at h
  obtain ⟨addrs, ha, hr⟩ | ⟨_, hr⟩ := sendShort_cases c p0 p1 s fun t => .next (advance t)
  · exact ⟨_, by simp [accessOf, ha], runAccess_next (hr ▸ h)⟩
  · rw [hr] at h; cases h

theorem hRegwr_next {a : Addr} {s t : State} (h : exec (.hRegwr a) s = .next t) :
    DirectNext .regwr (startOp .regwr (latchAccess a (beginCommand 0x4 s)))
      (fun t => ∃ access, accessOf s (.hRegwr a) = some access ∧ AccessNext access finish s t) s t := by
  simp only [exec, execHRegwr] at h
  exact direct_next (fun h => ⟨_, rfl, runAccess_next h⟩) h

theorem hRegrd_next {a : Addr} {s t : State} (h : exec (.hRegrd a) s = .next t) :
    DirectNext .regrd (startOp .regrd (latchAccess a (beginCommand 0x5 s)))
      (fun t => ∃ access, accessOf s (.hRegrd a) = some access ∧
        AccessNext access (fun m => finish (writeRdData (regReadValue m.arg.addr m.readData) m)) s t) s t := by
  simp only [exec, execHRegrd] at h
  exact direct_next (fun h => ⟨_, rfl, runAccess_next h⟩) h

theorem hRegupd_next {a : Addr} {s t : State} (h : exec (.hRegupd a) s = .next t) :
    DirectNext .regupd (startOp .regupd (latchAccess a (beginCommand 0x6 s)))
      (fun t => ∃ access, accessOf s (.hRegupd a) = some access ∧ AccessNext access finish s t) s t := by
  simp only [exec, execHRegupd] at h
  exact direct_next (fun h => ⟨_, rfl, runAccess_next h⟩) h

theorem hShort_next {c p0 p1 : Byte} {s t : State} (h : exec (.hShort c p0 p1) s = .next t) :
    DirectNext .short (startOp .short (latchShort c p0 p1 (beginCommand 0x7 s)))
      (fun t => ∃ access, accessOf s (.hShort c p0 p1) = some access ∧ AccessNext access finish s t) s t := by
  simp only [exec, execHShort] at h
  refine direct_next (fun h => ?_) h
  obtain ⟨addrs, ha, hr⟩ | ⟨_, hr⟩ :=
    sendShort_cases s.arg.commandId s.arg.param0 s.arg.param1 s fun t => .next (finish t)
  · exact ⟨_, by simp [accessOf, ha], runAccess_next (hr ▸ h)⟩
  · rw [hr] at h; cases h

/-! ## Solve and derivation -/

/-- The next states of a solve, `done` being what follows its success. -/
def SolveNext (done : State → State) (s t : State) : Prop :=
  configOk s.acfg = true ∧
    ((bracket (targetFreq s.acfg) = none ∧ t = abort .outOfRange (beginSolve (targetFreq s.acfg) s)) ∨
     ∃ frs, bracket (targetFreq s.acfg) = some frs ∧
      ∃ r, r = searchPll s.acfg.refclk.toNat frs (targetFreq s.acfg) ∧
       ((r.found = true ∧ t = done (commitSolution frs (recordSearch r (beginSolve (targetFreq s.acfg) s)))) ∨
        (r.found = false ∧ t = abort .noSolution (recordSearch r (beginSolve (targetFreq s.acfg) s)))))

theorem solve_next {done : State → State} {s t : State} (h : solve s (fun m => .next (done m)) = .next t) :
    SolveNext done s t := by
  obtain ⟨_, hr⟩ | ⟨hc, hb, hr⟩ | ⟨frs, hc, hb, ⟨hf, hr⟩ | ⟨hf, hr⟩⟩ :=
    solve_cases s (fun m => .next (done m))
  all_goals rw [hr] at h; cases h
  · exact ⟨hc, .inl ⟨hb, rfl⟩⟩
  · exact ⟨hc, .inr ⟨frs, hb, _, rfl, .inl ⟨hf, rfl⟩⟩⟩
  · exact ⟨hc, .inr ⟨frs, hb, _, rfl, .inr ⟨hf, rfl⟩⟩⟩

theorem derive_next {done : State → State} {s t : State} (h : derive s (fun m => .next (done m)) = .next t) :
    s.valid = true ∧ configOk s.acfg = true ∧ t = done (writeTiming s) := by
  obtain ⟨_, hr⟩ | ⟨_, _, hr⟩ | ⟨hv, hc, hr⟩ := derive_cases s (fun m => .next (done m))
  all_goals rw [hr] at h; cases h
  exact ⟨hv, hc, rfl⟩

theorem uSolve_next {s t : State} (h : exec .uSolve s = .next t) : SolveNext advance s t := solve_next h

theorem uDerive_next {s t : State} (h : exec .uDerive s = .next t) :
    s.valid = true ∧ configOk s.acfg = true ∧ t = advance (writeTiming s) := derive_next h

theorem hSolve_next {s t : State} (h : exec .hSolve s = .next t) :
    DirectNext .solve (acceptHSolve s)
      (fun t => (s.solveDone = true ∧ s.valid = true ∧ configOk s.acfg = true ∧ t = finish (writeTiming s)) ∨
        (s.solveDone = false ∧ SolveNext markSolved s t)) s t := by
  simp only [exec, execHSolve] at h
  refine direct_next (fun h => ?_) h
  cases hd : s.solveDone
  · simp only [hd, Bool.false_eq_true, if_false] at h
    exact .inr ⟨rfl, solve_next h⟩
  · simp only [hd, if_true] at h
    exact .inl ⟨rfl, derive_next h⟩

/-! ## All instructions -/

/-- What completes an instruction's register access: a micro-op goes on to the next one, a direct command ends. -/
def afterAccess : Instr → State → State
  | .hRegrd _, m => finish (writeRdData (regReadValue m.arg.addr m.readData) m)
  | .hRegwr _, m | .hRegupd _, m | .hShort _ _ _, m => finish m
  | .enable, m | .disable, m | .hSolve, m => m
  | .uEnd, m | .uPhase _, m | .uWr _ _, m | .uUpd _ _ _, m | .uWait _, m | .uSolve, m | .uDerive, m
  | .uShort _ _ _, m | .uRstline _, m => advance m

/-- The operation a host command starts; none for a micro-op. -/
def startedOp : Instr → OpKind
  | .enable => .enable
  | .disable => .disable
  | .hSolve => .solve
  | .hRegwr _ => .regwr
  | .hRegrd _ => .regrd
  | .hRegupd _ => .regupd
  | .hShort _ _ _ => .short
  | .uEnd | .uPhase _ | .uWr _ _ | .uUpd _ _ _ | .uWait _ | .uSolve | .uDerive | .uShort _ _ _ | .uRstline _ => .none

/-- All next states of all instructions: `Turn i s t` says what one turn of `i` makes of `s`. -/
inductive Turn : Instr → State → State → Prop where
  | rejected (i : Instr) (s : State) : i.isHost = true → s.busy = true →
      i = .enable ∨ i = .disable ∨ s.op ≠ startedOp i → Turn i s (rejectCmd s)
  | badConfig (i : Instr) (c : BitVec 4) (s : State) : i.isHost = true → s.busy = false → configOk s.cfg = false →
      Turn i s (refuseCommand .badConfig (beginCommand c s))
  | enable (s : State) : s.busy = false → configOk s.cfg = true →
      Turn .enable s (selectRom .bringup (startOp .enable (latchConfig (beginCommand 0x1 s))))
  | disable (s : State) : s.busy = false →
      Turn .disable s (selectRom .teardown (startOp .disable (beginCommand 0x2 s)))
  | hSolve (s : State) : s.busy = false → configOk s.cfg = true →
      Turn .hSolve s { startOp .solve (latchConfig (beginCommand 0x3 s)) with solveDone := false }
  | hAccess (i : Instr) (c : BitVec 4) (a : Addr) (s : State) : s.busy = false →
      i = .hRegwr a ∨ i = .hRegrd a ∨ i = .hRegupd a →
      Turn i s (startOp (startedOp i) (latchAccess a (beginCommand c s)))
  | hShort (c p0 p1 : Byte) (s : State) : s.busy = false →
      Turn (.hShort c p0 p1) s (startOp .short (latchShort c p0 p1 (beginCommand 0x7 s)))
  | access (i : Instr) (access : Access) (s t : State) : (i.isHost = true → s.busy = true ∧ s.op = startedOp i) →
      accessOf s i = some access → AccessNext access (afterAccess i) s t → Turn i s t
  | ended (s : State) : Turn .uEnd s (finish s)
  | phase (p : Phase) (s : State) : Turn (.uPhase p) s (advance (enterPhase p s))
  | waitStart (d : Delay) (s : State) : s.waiting = false → Turn (.uWait d) s (startWait s)
  | waitEnd (d : Delay) (s : State) : s.waiting = true → delayMinUs d ≤ s.now - s.waitStart →
      Turn (.uWait d) s (advance (endWait s))
  | waitHold (d : Delay) (s : State) : s.waiting = true → s.now - s.waitStart < delayMinUs d → Turn (.uWait d) s s
  | rstline (l : Bool) (s : State) : Turn (.uRstline l) s (advance (driveResetLine l s))
  | uSolve (s t : State) : SolveNext advance s t → Turn .uSolve s t
  | solving (s t : State) : s.busy = true → s.op = .solve → s.solveDone = false → SolveNext markSolved s t →
      Turn .hSolve s t
  | uDerive (s : State) : s.valid = true → configOk s.acfg = true → Turn .uDerive s (advance (writeTiming s))
  | derived (s : State) : s.busy = true → s.op = .solve → s.solveDone = true → s.valid = true →
      configOk s.acfg = true → Turn .hSolve s (finish (writeTiming s))

theorem exec_turn {i : Instr} {s t : State} (h : exec i s = .next t) : Turn i s t := by
  cases i with
  | enable =>
    obtain ⟨hb, rfl⟩ | ⟨hb, hc, rfl⟩ | ⟨hb, hc, rfl⟩ := enable_next h
    · exact .rejected _ s rfl hb (.inl rfl)
    · exact .badConfig _ _ s rfl hb hc
    · exact .enable s hb hc
  | disable =>
    obtain ⟨hb, rfl⟩ | ⟨hb, rfl⟩ := disable_next h
    · exact .rejected _ s rfl hb (.inr (.inl rfl))
    · exact .disable s hb
  | hSolve =>
    obtain ⟨hb, ho, ⟨hd, hv, hc, rfl⟩ | ⟨hd, hs⟩⟩ | ⟨hb, hn, rfl⟩ | ⟨hb, rfl⟩ := hSolve_next h
    · exact .derived s hb ho hd hv hc
    · exact .solving s t hb ho hd hs
    · exact .rejected _ s rfl hb (.inr (.inr hn))
    · cases hc : configOk s.cfg
      · simp only [acceptHSolve, hc, Bool.false_eq_true, if_false]; exact .badConfig _ _ s rfl hb hc
      · simp only [acceptHSolve, hc, if_true]; exact .hSolve s hb hc
  | hRegwr a =>
    obtain ⟨hb, ho, access, ha, hx⟩ | ⟨hb, hn, rfl⟩ | ⟨hb, rfl⟩ := hRegwr_next h
    · exact .access _ access s t (fun _ => ⟨hb, ho⟩) ha hx
    · exact .rejected _ s rfl hb (.inr (.inr hn))
    · exact .hAccess _ _ a s hb (.inl rfl)
  | hRegrd a =>
    obtain ⟨hb, ho, access, ha, hx⟩ | ⟨hb, hn, rfl⟩ | ⟨hb, rfl⟩ := hRegrd_next h
    · exact .access _ access s t (fun _ => ⟨hb, ho⟩) ha hx
    · exact .rejected _ s rfl hb (.inr (.inr hn))
    · exact .hAccess _ _ a s hb (.inr (.inl rfl))
  | hRegupd a =>
    obtain ⟨hb, ho, access, ha, hx⟩ | ⟨hb, hn, rfl⟩ | ⟨hb, rfl⟩ := hRegupd_next h
    · exact .access _ access s t (fun _ => ⟨hb, ho⟩) ha hx
    · exact .rejected _ s rfl hb (.inr (.inr hn))
    · exact .hAccess _ _ a s hb (.inr (.inr rfl))
  | hShort c p0 p1 =>
    obtain ⟨hb, ho, access, ha, hx⟩ | ⟨hb, hn, rfl⟩ | ⟨hb, rfl⟩ := hShort_next h
    · exact .access _ access s t (fun _ => ⟨hb, ho⟩) ha hx
    · exact .rejected _ s rfl hb (.inr (.inr hn))
    · exact .hShort c p0 p1 s hb
  | uEnd => rw [uEnd_next h]; exact .ended s
  | uPhase p => rw [uPhase_next h]; exact .phase p s
  | uWr reg v =>
    obtain ⟨access, ha, hx⟩ := uWr_next h
    exact .access _ access s t (fun hh => by cases hh) ha hx
  | uUpd reg m v =>
    obtain ⟨access, ha, hx⟩ := uUpd_next h
    exact .access _ access s t (fun hh => by cases hh) ha hx
  | uWait d =>
    obtain ⟨hw, rfl⟩ | ⟨hw, hm, rfl⟩ | ⟨hw, hm, rfl⟩ := uWait_next h
    · exact .waitStart d s hw
    · exact .waitEnd d s hw hm
    · exact .waitHold d _ hw hm
  | uSolve => exact .uSolve s t (uSolve_next h)
  | uDerive =>
    obtain ⟨hv, hc, rfl⟩ := uDerive_next h
    exact .uDerive s hv hc
  | uShort c p0 p1 =>
    obtain ⟨access, ha, hx⟩ := uShort_next h
    exact .access _ access s t (fun hh => by cases hh) ha hx
  | uRstline l => rw [uRstline_next h]; exact .rstline l s

end Sys2Proof.Machine
end

