-- ==== Sys2Proof/Laws/PerInstr.lean ====
section
/-! SUPPORT. Statements per instruction. -/

namespace Sys2Proof.Laws

/-- The low nibble of an instruction's word says which of the two decoders it belongs to: it is 0 for a micro-op
(R104) and the opcode 1..7 for a host command (R101). -/
def WordKind.Statement (i : Instr) : Prop := (encode i).extractLsb' 0 4 = 0 ↔ i.isHost = false

/-- The low nibble of a micro-op's word. -/
theorem encUop_low (op : BitVec 4) (a b c : Byte) : (encUop op a b c).extractLsb' 0 4 = 0 := by
  ext k hk
  have h1 : k < 28 := by omega
  have h2 : k < 20 := by omega
  have h3 : k < 12 := by omega
  simp [encUop, hk, h1, h2, h3]

/-- The low nibble of an HA word. -/
theorem encHostHA_low (op : BitVec 4) (a : Addr) : (encHostHA op a).extractLsb' 0 4 = op := by
  ext k hk
  have h1 : k < 16 := by omega
  have h2 : k < 32 := by omega
  simp [encHostHA, hk, h1, h2]

/-- The low nibble of an HS word. -/
theorem encHostHS_low (op : BitVec 4) (c p q : Byte) : (encHostHS op c p q).extractLsb' 0 4 = op := by
  ext k hk
  have h1 : k < 8 := by omega
  have h2 : k < 16 := by omega
  have h3 : k < 24 := by omega
  have h4 : k < 32 := by omega
  simp [encHostHS, hk, h1, h2, h3, h4]

theorem WordKind.enable : WordKind.Statement .enable := by
  unfold WordKind.Statement; decide
theorem WordKind.disable : WordKind.Statement .disable := by
  unfold WordKind.Statement; decide
theorem WordKind.hSolve : WordKind.Statement .hSolve := by
  unfold WordKind.Statement; decide
theorem WordKind.hRegwr (a : Addr) : WordKind.Statement (.hRegwr a) := by
  simp [WordKind.Statement, encode, encHostHA_low, Instr.isHost]
theorem WordKind.hRegrd (a : Addr) : WordKind.Statement (.hRegrd a) := by
  simp [WordKind.Statement, encode, encHostHA_low, Instr.isHost]
theorem WordKind.hRegupd (a : Addr) : WordKind.Statement (.hRegupd a) := by
  simp [WordKind.Statement, encode, encHostHA_low, Instr.isHost]
theorem WordKind.hShort (c p q : Byte) : WordKind.Statement (.hShort c p q) := by
  simp [WordKind.Statement, encode, encHostHS_low, Instr.isHost]
theorem WordKind.uEnd : WordKind.Statement .uEnd := by
  unfold WordKind.Statement; decide
theorem WordKind.uPhase (p : Phase) : WordKind.Statement (.uPhase p) := by
  simp [WordKind.Statement, encode, encUop_low, Instr.isHost]
theorem WordKind.uWr (r : Byte) (v : Src) : WordKind.Statement (.uWr r v) := by
  simp [WordKind.Statement, encode, encUop_low, Instr.isHost]
theorem WordKind.uUpd (r : Byte) (m v : Src) : WordKind.Statement (.uUpd r m v) := by
  simp [WordKind.Statement, encode, encUop_low, Instr.isHost]
theorem WordKind.uWait (d : Delay) : WordKind.Statement (.uWait d) := by
  simp [WordKind.Statement, encode, encUop_low, Instr.isHost]
theorem WordKind.uSolve : WordKind.Statement .uSolve := by
  unfold WordKind.Statement; decide
theorem WordKind.uDerive : WordKind.Statement .uDerive := by
  unfold WordKind.Statement; decide
theorem WordKind.uShort (c p q : Byte) : WordKind.Statement (.uShort c p q) := by
  simp [WordKind.Statement, encode, encUop_low, Instr.isHost]
theorem WordKind.uRstline (l : Bool) : WordKind.Statement (.uRstline l) := by
  simp [WordKind.Statement, encode, encUop_low, Instr.isHost]

end Sys2Proof.Laws
end

