-- ==== Sys2Proof/Laws/Step.lean ====
section
/-! SUPPORT. Everything one step can do, said once: `Move i s t` lists the next states of input `i`, and every step is
one of them. -/

namespace Sys2Proof.Machine

/-- The state a running instruction's meaning starts from: a ROM's turn mirrors S.step first. -/
def turnStart (s : State) : State :=
  match s.op with
  | .enable | .disable => mirrorStep s
  | .none | .solve | .regwr | .regrd | .regupd | .short => s

@[simp] theorem turnStart_build (s : State) : (turnStart s).build = s.build := by unfold turnStart; split <;> rfl
@[simp] theorem turnStart_cfg (s : State) : (turnStart s).cfg = s.cfg := by unfold turnStart; split <;> rfl
@[simp] theorem turnStart_argData (s : State) : (turnStart s).argData = s.argData := by unfold turnStart; split <;> rfl
@[simp] theorem turnStart_argMask (s : State) : (turnStart s).argMask = s.argMask := by unfold turnStart; split <;> rfl
@[simp] theorem turnStart_busy (s : State) : (turnStart s).busy = s.busy := by unfold turnStart; split <;> rfl
@[simp] theorem turnStart_err (s : State) : (turnStart s).err = s.err := by unfold turnStart; split <;> rfl
@[simp] theorem turnStart_phase (s : State) : (turnStart s).phase = s.phase := by unfold turnStart; split <;> rfl
@[simp] theorem turnStart_lastop (s : State) : (turnStart s).lastop = s.lastop := by unfold turnStart; split <;> rfl
@[simp] theorem turnStart_reject (s : State) : (turnStart s).reject = s.reject := by unfold turnStart; split <;> rfl
@[simp] theorem turnStart_rstline (s : State) : (turnStart s).rstline = s.rstline := by unfold turnStart; split <;> rfl
@[simp] theorem turnStart_fbd (s : State) : (turnStart s).fbd = s.fbd := by unfold turnStart; split <;> rfl
@[simp] theorem turnStart_prd (s : State) : (turnStart s).prd = s.prd := by unfold turnStart; split <;> rfl
@[simp] theorem turnStart_frs (s : State) : (turnStart s).frs = s.frs := by unfold turnStart; split <;> rfl
@[simp] theorem turnStart_valid (s : State) : (turnStart s).valid = s.valid := by unfold turnStart; split <;> rfl
@[simp] theorem turnStart_pllFreq (s : State) : (turnStart s).pllFreq = s.pllFreq := by unfold turnStart; split <;> rfl
@[simp] theorem turnStart_pllBitclk (s : State) : (turnStart s).pllBitclk = s.pllBitclk := by unfold turnStart; split <;> rfl
@[simp] theorem turnStart_pllRefclk (s : State) : (turnStart s).pllRefclk = s.pllRefclk := by unfold turnStart; split <;> rfl
@[simp] theorem turnStart_target (s : State) : (turnStart s).target = s.target := by unfold turnStart; split <;> rfl
@[simp] theorem turnStart_timHsync (s : State) : (turnStart s).timHsync = s.timHsync := by unfold turnStart; split <;> rfl
@[simp] theorem turnStart_timVsync (s : State) : (turnStart s).timVsync = s.timVsync := by unfold turnStart; split <;> rfl
@[simp] theorem turnStart_rdData (s : State) : (turnStart s).rdData = s.rdData := by unfold turnStart; split <;> rfl
@[simp] theorem turnStart_acfg (s : State) : (turnStart s).acfg = s.acfg := by unfold turnStart; split <;> rfl
@[simp] theorem turnStart_arg (s : State) : (turnStart s).arg = s.arg := by unfold turnStart; split <;> rfl
@[simp] theorem turnStart_op (s : State) : (turnStart s).op = s.op := by unfold turnStart; split <;> rfl
@[simp] theorem turnStart_rom (s : State) : (turnStart s).rom = s.rom := by unfold turnStart; split <;> rfl
@[simp] theorem turnStart_romStep (s : State) : (turnStart s).romStep = s.romStep := by unfold turnStart; split <;> rfl
@[simp] theorem turnStart_search (s : State) : (turnStart s).search = s.search := by unfold turnStart; split <;> rfl
@[simp] theorem turnStart_solveDone (s : State) : (turnStart s).solveDone = s.solveDone := by unfold turnStart; split <;> rfl
@[simp] theorem turnStart_bus (s : State) : (turnStart s).bus = s.bus := by unfold turnStart; split <;> rfl
@[simp] theorem turnStart_response (s : State) : (turnStart s).response = s.response := by unfold turnStart; split <;> rfl
@[simp] theorem turnStart_sub (s : State) : (turnStart s).sub = s.sub := by unfold turnStart; split <;> rfl
@[simp] theorem turnStart_readData (s : State) : (turnStart s).readData = s.readData := by unfold turnStart; split <;> rfl
@[simp] theorem turnStart_waiting (s : State) : (turnStart s).waiting = s.waiting := by unfold turnStart; split <;> rfl
@[simp] theorem turnStart_waitStart (s : State) : (turnStart s).waitStart = s.waitStart := by unfold turnStart; split <;> rfl
@[simp] theorem turnStart_now (s : State) : (turnStart s).now = s.now := by unfold turnStart; split <;> rfl
@[simp] theorem turnStart_inputs (s : State) : (turnStart s).inputs = s.inputs := by unfold turnStart; split <;> rfl
@[simp] theorem turnStart_log (s : State) : (turnStart s).log = s.log := by unfold turnStart; split <;> rfl
@[simp] theorem turnStart_reply (s : State) : (turnStart s).reply = s.reply := by unfold turnStart; split <;> rfl

theorem turnStart_running {s : State} (h : romRunning s) : turnStart s = mirrorStep s := by
  obtain h | h := h <;> simp [turnStart, h]

theorem turnStart_direct {s : State} (h : ¬ romRunning s) : turnStart s = s := by
  cases ho : s.op <;> simp [romRunning, ho] at h <;> simp [turnStart, ho]

/-! ## The decoders give their own kind of instruction -/

theorem decodeHost_isHost {w : Word} {i : Instr} (h : decodeHost w = .ok i) : i.isHost = true := by
  unfold decodeHost at h
  split at h <;> (try simp only [formatHN, formatHA, formatHS] at h) <;> (try split at h) <;> cases h <;> rfl

theorem decodeUop_isHost {w : Word} {i : Instr} (h : decodeUop w = .ok i) : i.isHost = false := by
  unfold decodeUop at h
  split at h
  · unfold decodeUopFields at h
    split at h <;> (try simp only [whenZero, Except.map, Except.bind] at h) <;> (repeat' split at h) <;> cases h <;>
      rfl
  · cases h

/-- The current instruction is a micro-op exactly while a ROM runs; else it is that of the running command. -/
theorem currentInstr_kind {s : State} {i : Instr} (h : currentInstr s = some i) :
    (i.isHost = true → s.op = startedOp i ∧ ¬ romRunning s ∧ i ≠ .enable ∧ i ≠ .disable) ∧
    (i.isHost = false → romRunning s) := by
  unfold currentInstr at h
  split at h
  case h_1 => cases h
  case h_2 | h_3 =>
    all_goals
    cases hf : fetchWord s with
    | none => simp [hf] at h
    | some w =>
      simp only [hf, Option.bind_some] at h
      cases hd : decodeUop w with
      | error e => simp [hd, Except.toOption] at h
      | ok j =>
        simp only [hd, Except.toOption, Option.some.injEq] at h
        subst h
        have := decodeUop_isHost hd
        refine ⟨fun h => by simp [this] at h, fun _ => ?_⟩
        unfold romRunning; simp [*]
  all_goals
    cases h
    refine ⟨fun _ => ⟨?_, ?_, ?_, ?_⟩, fun h => by cases h⟩ <;> (try unfold romRunning) <;> simp [*, startedOp]

/-! ## The Engine's turn -/

/-- What one turn of the Engine makes of a running operation. -/
inductive Progress : Instr → State → State → Prop where
  | access (i : Instr) (access : Access) (s t : State) : (i.isHost = true → s.op = startedOp i) →
      accessOf s i = some access → AccessNext access (afterAccess i) (turnStart s) t → Progress i s t
  | ended (s : State) : romRunning s → Progress .uEnd s (finish (turnStart s))
  | phase (p : Phase) (s : State) : romRunning s → Progress (.uPhase p) s (advance (enterPhase p (turnStart s)))
  | waitStart (d : Delay) (s : State) : romRunning s → s.waiting = false →
      Progress (.uWait d) s (startWait (turnStart s))
  | waitEnd (d : Delay) (s : State) : romRunning s → s.waiting = true → delayMinUs d ≤ s.now - s.waitStart →
      Progress (.uWait d) s (advance (endWait (turnStart s)))
  | waitHold (d : Delay) (s : State) : romRunning s → s.waiting = true → s.now - s.waitStart < delayMinUs d →
      Progress (.uWait d) s (turnStart s)
  | rstline (l : Bool) (s : State) : romRunning s →
      Progress (.uRstline l) s (advance (driveResetLine l (turnStart s)))
  | uSolve (s t : State) : romRunning s → SolveNext advance (turnStart s) t → Progress .uSolve s t
  | hSolve (s t : State) : s.op = .solve → s.solveDone = false → SolveNext markSolved s t → Progress .hSolve s t
  | uDerive (s : State) : romRunning s → s.valid = true → configOk s.acfg = true →
      Progress .uDerive s (advance (writeTiming (turnStart s)))
  | hDerive (s : State) : s.op = .solve → s.solveDone = true → s.valid = true → configOk s.acfg = true →
      Progress .hSolve s (finish (writeTiming s))

theorem accessOf_turnStart (s : State) (i : Instr) : accessOf (turnStart s) i = accessOf s i := by
  unfold turnStart; split <;> rfl

theorem engine_progress {i : Instr} {s t : State} (hb : s.busy = true) (hi : currentInstr s = some i)
    (h : exec i (turnStart s) = .next t) : Progress i s t := by
  have hk := currentInstr_kind hi
  have hnb : (turnStart s).busy = false → False := by simp [hb]
  have direct : i.isHost = true → turnStart s = s := fun h => turnStart_direct (hk.1 h).2.1
  have turn := exec_turn h
  cases turn with
  | rejected _ _ hh _ hr =>
    obtain ⟨ho, _, h1, h2⟩ := hk.1 hh
    rw [turnStart_op] at hr
    obtain hr | hr | hr := hr <;> contradiction
  | badConfig _ _ _ _ hn => exact (hnb hn).elim
  | enable _ hn => exact (hnb hn).elim
  | disable _ hn => exact (hnb hn).elim
  | hSolve _ hn => exact (hnb hn).elim
  | hAccess _ _ _ _ hn => exact (hnb hn).elim
  | hShort _ _ _ _ hn => exact (hnb hn).elim
  | access _ access _ _ ho ha hn =>
    exact .access i access s t (fun h => by simpa using (ho h).2) (accessOf_turnStart s i ▸ ha) hn
  | ended => exact .ended s (hk.2 rfl)
  | phase p => exact .phase p s (hk.2 rfl)
  | waitStart d _ hw => exact .waitStart d s (hk.2 rfl) (by simpa using hw)
  | waitEnd d _ hw hm => exact .waitEnd d s (hk.2 rfl) (by simpa using hw) (by simpa using hm)
  | waitHold d _ hw hm => exact .waitHold d s (hk.2 rfl) (by simpa using hw) (by simpa using hm)
  | rstline l => exact .rstline l s (hk.2 rfl)
  | uSolve _ _ hs => exact .uSolve s t (hk.2 rfl) hs
  | solving _ _ _ ho hd hs =>
    exact .hSolve s t (by simpa using ho) (by simpa using hd) (by rwa [direct rfl] at hs)
  | uDerive _ hv hc => exact .uDerive s (hk.2 rfl) (by simpa using hv) (by simpa using hc)
  | derived _ _ ho hd hv hc =>
    rw [direct rfl]
    exact .hDerive s (by simpa using ho) (by simpa using hd) (by simpa using hv) (by simpa using hc)

/-- What a command that passes the busy check makes of an idle Engine. -/
inductive Accepted : Instr → State → State → Prop where
  | badConfig (i : Instr) (c : BitVec 4) (s : State) : i = .enable ∨ i = .hSolve → configOk s.cfg = false →
      Accepted i s (refuseCommand .badConfig (beginCommand c s))
  | enable (s : State) : configOk s.cfg = true →
      Accepted .enable s (selectRom .bringup (startOp .enable (latchConfig (beginCommand 0x1 s))))
  | disable (s : State) : Accepted .disable s (selectRom .teardown (startOp .disable (beginCommand 0x2 s)))
  | hSolve (s : State) : configOk s.cfg = true →
      Accepted .hSolve s { startOp .solve (latchConfig (beginCommand 0x3 s)) with solveDone := false }
  | hAccess (i : Instr) (c : BitVec 4) (a : Addr) (s : State) : i = .hRegwr a ∨ i = .hRegrd a ∨ i = .hRegupd a →
      Accepted i s (startOp (startedOp i) (latchAccess a (beginCommand c s)))
  | hShort (c p0 p1 : Byte) (s : State) :
      Accepted (.hShort c p0 p1) s (startOp .short (latchShort c p0 p1 (beginCommand 0x7 s)))

theorem exec_accepted {i : Instr} {s t : State} (hb : s.busy = false) (hh : i.isHost = true)
    (h : exec i s = .next t) : Accepted i s t := by
  cases i with
  | enable =>
    obtain ⟨h, _⟩ | ⟨_, hc, rfl⟩ | ⟨_, hc, rfl⟩ := enable_next h
    · simp [hb] at h
    · exact .badConfig _ _ s (.inl rfl) hc
    · exact .enable s hc
  | disable =>
    obtain ⟨h, _⟩ | ⟨_, rfl⟩ := disable_next h
    · simp [hb] at h
    · exact .disable s
  | hSolve =>
    obtain ⟨h, _⟩ | ⟨h, _⟩ | ⟨_, rfl⟩ := hSolve_next h
    · simp [hb] at h
    · simp [hb] at h
    · cases hc : configOk s.cfg
      · simp only [acceptHSolve, hc, Bool.false_eq_true, if_false]; exact .badConfig _ _ s (.inr rfl) hc
      · simp only [acceptHSolve, hc, if_true]; exact .hSolve s hc
  | hRegwr a =>
    obtain ⟨h, _⟩ | ⟨h, _⟩ | ⟨_, rfl⟩ := hRegwr_next h
    · simp [hb] at h
    · simp [hb] at h
    · exact .hAccess _ _ a s (.inl rfl)
  | hRegrd a =>
    obtain ⟨h, _⟩ | ⟨h, _⟩ | ⟨_, rfl⟩ := hRegrd_next h
    · simp [hb] at h
    · simp [hb] at h
    · exact .hAccess _ _ a s (.inr (.inl rfl))
  | hRegupd a =>
    obtain ⟨h, _⟩ | ⟨h, _⟩ | ⟨_, rfl⟩ := hRegupd_next h
    · simp [hb] at h
    · simp [hb] at h
    · exact .hAccess _ _ a s (.inr (.inr rfl))
  | hShort c p0 p1 =>
    obtain ⟨h, _⟩ | ⟨h, _⟩ | ⟨_, rfl⟩ := hShort_next h
    · simp [hb] at h
    · simp [hb] at h
    · exact .hShort c p0 p1 s
  | uEnd | uPhase | uWr | uUpd | uWait | uSolve | uDerive | uShort | uRstline => cases hh

/-! ## Moves -/

/-- The moves of a state under an input. -/
inductive Move : Input → State → State → Prop where
  /-- The Engine is idle, or (in no reachable state) busy with no operation. -/
  | still (s : State) : (s.busy = false ∨ s.op = .none) → Move .engine s s
  /-- The Engine goes on with the current instruction. -/
  | run (s t : State) (i : Instr) : s.busy = true → currentInstr s = some i → Progress i s t → Move .engine s t
  /-- A read, or a refused access: only the response. -/
  | replied (s : State) (a : HostAccess) (r : HostReply) : Move (.host a) s (respond r s)
  /-- A write to CFG_*. -/
  | wroteCfg (s : State) (a : HostAccess) (c : DevConfig) : Move (.host a) s { respond .done s with cfg := c }
  /-- A write to ARG_DATA. -/
  | wroteArgData (s : State) (a : HostAccess) (w : Word) : Move (.host a) s { respond .done s with argData := w }
  /-- A write to ARG_MASK. -/
  | wroteArgMask (s : State) (a : HostAccess) (w : Word) : Move (.host a) s { respond .done s with argMask := w }
  /-- A write to STATUS. -/
  | wroteStatus (s : State) (w : Word) : Move (.host (.write 0x20 4 w)) s (writeStatus w (respond .done s))
  /-- A CMD write while BUSY = 1. -/
  | rejected (s : State) (w : Word) : s.busy = true →
      Move (.host (.write 0x14 4 w)) s (rejectCmd (respond .done s))
  /-- An illegal word. -/
  | illegal (s : State) (w : Word) (e : DecodeError) : s.busy = false → decodeHost w = .error e →
      Move (.host (.write 0x14 4 w)) s (refuseCommand .illegalCommand (beginCommand (hostOp w) (respond .done s)))
  /-- A command that passes the busy check and decodes. -/
  | accepted (s t : State) (w : Word) (i : Instr) : s.busy = false → decodeHost w = .ok i →
      Accepted i (respond .done s) t → Move (.host (.write 0x14 4 w)) s t
  /-- The transport's answer. -/
  | answered (s : State) (a : Answer) : Move (.answer a) s (deliverAnswer a s)
  /-- Time. -/
  | elapsed (s : State) (us : Nat) : Move (.elapse us) s (elapse us s)
  /-- Block reset. -/
  | reset (s : State) : Move .blockReset s (blockReset s)

theorem engineTurn_move {s t : State} (h : engineTurn s = .next t) : Move .engine s t := by
  obtain ⟨hb, hr⟩ | ⟨hb, ho, hr⟩ | ⟨hb, hrun, hr⟩ | ⟨i, hb, hrun, hi, hr⟩ := engineTurn_cases s
  · rw [hr] at h; cases h; exact .still s (.inl hb)
  · rw [hr] at h; cases h; exact .still s (.inr ho)
  · rw [hr] at h
    obtain ⟨_, hr⟩ | ⟨w, e, _, _, hr⟩ | ⟨w, i, hw, hi, hr⟩ := romTurn_cases s
    · rw [hr] at h; cases h
    · rw [hr] at h; cases h
    · rw [hr] at h
      have hc : currentInstr s = some i := by
        obtain ho | ho := hrun <;> simp [currentInstr, ho, hw, hi, Except.toOption]
      exact .run s t i hb hc (engine_progress hb hc (by rwa [turnStart_running hrun]))
  · rw [hr] at h
    exact .run s t i hb hi (engine_progress hb hi (by rwa [turnStart_direct hrun]))

theorem hostAccess_move {a : HostAccess} {s t : State} (h : hostAccess a s = .next t) : Move (.host a) s t := by
  cases a with
  | read o n =>
    simp only [hostAccess] at h
    split at h <;> cases h <;> exact .replied s _ _
  | write o n w =>
    simp only [hostAccess] at h
    split at h
    case isFalse => cases h; exact .replied s _ _
    rename_i hok
    have hn : n = 4 := by
      simp only [accessOk, Bool.and_eq_true, beq_iff_eq] at hok
      exact hok.1
    subst hn
    have hoff : ∀ k : Byte, o.toNat = k.toNat → o = k := fun k hk => BitVec.eq_of_toNat_eq hk
    unfold windowWrite at h
    split at h
    case h_6 ho =>
      rw [hoff 0x14 ho]
      unfold onCmdWrite at h
      split at h
      · rename_i hb
        cases h
        exact .rejected s w (by simpa using hb)
      · rename_i hb
        have hb : s.busy = false := by simpa using hb
        cases hd : decodeHost w with
        | error e => simp only [hd] at h; cases h; exact .illegal s w e hb hd
        | ok i => simp only [hd] at h; exact .accepted s t w i hb hd (exec_accepted (by simpa using hb) (decodeHost_isHost hd) h)
    case h_7 => cases h; exact .wroteArgData s _ w
    case h_8 => cases h; exact .wroteArgMask s _ w
    case h_9 ho => rw [hoff 0x20 ho]; cases h; exact .wroteStatus s w
    case h_10 => cases h; exact .replied s _ _
    all_goals cases h; exact .wroteCfg s _ _

theorem applyInput_move {i : Input} {s t : State} (h : applyInput i s = .next t) : Move i s t := by
  cases i with
  | engine => exact engineTurn_move h
  | host a => exact hostAccess_move h
  | answer a => cases h; exact .answered s a
  | elapse us => cases h; exact .elapsed s us
  | blockReset => cases h; exact .reset s

/-- Every step with a next state is a move of the first input, or of the Engine where there is none. -/
theorem step_move {s t : State} (h : step s = .next t) :
    (s.inputs = [] ∧ Move .engine s t) ∨ ∃ i rest, s.inputs = i :: rest ∧ Move i (dropInput s) t := by
  obtain ⟨hi, hr⟩ | ⟨i, rest, hi, hr⟩ := step_cases s
  · exact .inl ⟨hi, engineTurn_move (hr ▸ h)⟩
  · exact .inr ⟨i, rest, hi, applyInput_move (hr ▸ h)⟩

/-! ## Accesses by steps -/

/-- An access leaves the running instruction and its access as they are. -/
theorem currentInstr_frame {s t : State} (h : AccessFrame s t) : currentInstr t = currentInstr s := by rw [h]; rfl

theorem accessOf_frame {s t : State} (h : AccessFrame s t) (i : Instr) : accessOf t i = accessOf s i := by
  rw [h]; rfl

/-- An instruction with an access is that access's turn, and `afterAccess` when it completes. -/
theorem exec_access {s : State} {i : Instr} {access : Access} (ha : accessOf s i = some access)
    (hrun : i.isHost = true → s.busy = true ∧ s.op = startedOp i) :
    exec i s = runAccess access s fun m => .next (afterAccess i m) := by
  cases i with
  | enable | disable | hSolve | uEnd | uPhase | uWait | uSolve | uDerive | uRstline => cases ha
  | hRegwr a | hRegrd a | hRegupd a =>
    cases ha
    obtain ⟨hb, ho⟩ := hrun rfl
    simp [startedOp] at ho
    simp [exec, execHRegwr, execHRegrd, execHRegupd, direct, hb, ho, afterAccess]
  | hShort c p0 p1 =>
    obtain ⟨hb, ho⟩ := hrun rfl
    simp [startedOp] at ho
    cases h : shortAddrs s.build.profile with
    | none => simp [accessOf, h] at ha
    | some addrs =>
      simp [accessOf, h] at ha
      simp [exec, execHShort, direct, hb, ho, sendShort, h, ← ha, afterAccess]
  | uShort c p0 p1 =>
    cases h : shortAddrs s.build.profile with
    | none => simp [accessOf, h] at ha
    | some addrs =>
      simp [accessOf, h] at ha
      simp [exec, execUShort, sendShort, h, ← ha, afterAccess]
  | uWr r v =>
    simp only [accessOf] at ha
    split at ha
    · rename_i h1 h2
      cases ha
      simp [exec, execUWr, h1, h2, afterAccess]
    · cases ha
  | uUpd r m v =>
    simp only [accessOf] at ha
    split at ha
    · rename_i h1 h2 h3
      cases ha
      simp [exec, execUUpd, h1, h2, h3, afterAccess]
    · cases ha

/-- A step that is the Engine's turn runs the current instruction from `turnStart`. -/
theorem step_engine {s : State} {i : Instr} {rest : List Input} (hb : s.busy = true) (hi : currentInstr s = some i)
    (hin : s.inputs = .engine :: rest) : step s = exec i (turnStart (dropInput s)) := by
  have hs : step s = engineTurn (dropInput s) := by simp [step, hin, applyInput]
  rw [hs]
  have hi' : currentInstr (dropInput s) = some i := hi
  have hb' : (dropInput s).busy = true := hb
  generalize dropInput s = u at *
  obtain ⟨h, _⟩ | ⟨_, ho, _⟩ | ⟨_, hr, he⟩ | ⟨j, _, hr, hj, he⟩ := engineTurn_cases u
  · simp [hb'] at h
  · simp [currentInstr, ho] at hi'
  · rw [he, turnStart_running hr]
    obtain ⟨hn, _⟩ | ⟨w, e, hw, hd, _⟩ | ⟨w, j, hw, hd, he⟩ := romTurn_cases u
    · obtain h | h := hr <;> simp [currentInstr, h, hn] at hi'
    · obtain h | h := hr <;> simp [currentInstr, h, hw, hd, Except.toOption] at hi'
    · have : j = i := by obtain h | h := hr <;> simpa [currentInstr, h, hw, hd, Except.toOption] using hi'
      rw [he, this]
  · rw [he, turnStart_direct hr]
    rw [hj] at hi'; cases hi'; rfl

/-- A step that is the Engine's turn in an access is that access's turn. -/
theorem step_access {s : State} {i : Instr} {access : Access} {rest : List Input} (hb : s.busy = true)
    (hi : currentInstr s = some i) (ha : accessOf s i = some access) (hin : s.inputs = .engine :: rest) :
    step s = runAccess access (turnStart (dropInput s)) fun m => .next (afterAccess i m) := by
  rw [step_engine hb hi hin]
  refine exec_access ?_ fun h => ⟨by simpa using hb, by simpa using ((currentInstr_kind hi).1 h).1⟩
  rw [accessOf_turnStart]; exact ha

/-- A run's first step. -/
theorem run_next {n : Nat} {s t : State} (h : step s = .next t) :
    Host.Core.run core (n + 1) s = Host.Core.run core n t := by
  have hc : core.step s = .next t := h
  simp only [Host.Core.run, hc]

theorem run_one (s : State) : Host.Core.run core 1 s = step s := by
  cases h : step s <;> simp [Host.Core.run, core, h]

/-- A run of `n` steps and then `m` more. -/
theorem run_add {n m : Nat} {s t : State} (h : Host.Core.run core n s = .next t) :
    Host.Core.run core (n + m) s = Host.Core.run core m t := by
  induction n generalizing s with
  | zero => cases h; simp
  | succ n ih =>
    cases hs : step s with
    | next u =>
      rw [run_next hs] at h
      rw [show n + 1 + m = (n + m) + 1 by omega, run_next hs, ih h]
    | fault e => simp [Host.Core.run, core, hs] at h
    | refused e => simp [Host.Core.run, core, hs] at h

/-- A running access from the arrival of an OK answer, with the moves `ins` to come. -/
def midAccess (s : State) (d : Half) (n : Nat) (data : List Half) (es : List LogEntry) (ins : List Input) : State :=
  { turnStart s with inputs := ins, bus := .idle, response := some (.ok d), sub := n, readData := data,
                     log := s.log ++ es }

theorem turnStart_idem (s : State) : turnStart (turnStart s) = turnStart s := by
  cases h : s.op <;> simp [turnStart, h, mirrorStep]

theorem midAccess_turn (s : State) (d n data es ins) :
    turnStart (dropInput (midAccess s d n data es ins)) = midAccess s d n data es ins.tail := by
  cases h : s.op <;> simp [turnStart, h, mirrorStep, midAccess, dropInput]

theorem currentInstr_mid (s : State) (d n data es ins) :
    currentInstr (midAccess s d n data es ins) = currentInstr s := by
  cases h : s.op <;> simp [currentInstr, turnStart, h, mirrorStep, midAccess, fetchWord]

theorem accessOf_mid (s : State) (d n data es ins i) : accessOf (midAccess s d n data es ins) i = accessOf s i := by
  have : accessOf (midAccess s d n data es ins) i = accessOf (turnStart s) i := rfl
  rw [this, accessOf_turnStart]

/-- The rest of an access by steps, from the answer `d` to its transaction `x`, each later answer right after its
issue: the last turn issues the transaction after those, or completes the access. -/
theorem mid_access_run {s : State} {i : Instr} {access : Access} (hb : s.busy = true) (hi : currentInstr s = some i)
    (ha : accessOf s i = some access) (rest : List Input) (tail : List (Tx × Half)) :
    ∀ (x : Tx) (d : Half) (n : Nat) (data : List Half) (es : List LogEntry),
      (access data)[n]? = some x →
      (∀ k, k < tail.length →
        (access (data ++ readsGiven ((x, d) :: tail.take k)))[n + 1 + k]? = tail[k]?.map Prod.fst) →
      Host.Core.run core (2 * tail.length + 1)
          (midAccess s d n data es (okTurns (tail.map Prod.snd) ++ .engine :: rest)) =
        issueNext access { turnStart s with
          inputs := rest, bus := .idle, response := none, sub := n + 1 + tail.length,
          readData := data ++ readsGiven ((x, d) :: tail), log := s.log ++ es ++ okEvents s.now tail }
          fun m => .next (afterAccess i m) := by
  have turn : ∀ (x : Tx) (d : Half) (n : Nat) (data : List Half) (es : List LogEntry) (ins : List Input),
      (access data)[n]? = some x →
      step (midAccess s d n data es (.engine :: ins)) = issueNext access { turnStart s with
        inputs := ins, bus := .idle, response := none, sub := n + 1, readData := data ++ readsGiven [(x, d)],
        log := s.log ++ es } fun m => .next (afterAccess i m) := by
    intro x d n data es ins hx
    rw [step_access (s := midAccess s d n data es (.engine :: ins)) (rest := ins)
      (by simpa [midAccess] using hb) (by rw [currentInstr_mid]; exact hi) (by rw [accessOf_mid]; exact ha) rfl,
      midAccess_turn, ← keepRead_some, ← hx]
    rfl
  induction tail with
  | nil =>
    intro x d n data es hx _
    have h := turn x d n data es rest hx
    rw [show 2 * ([] : List (Tx × Half)).length + 1 = 1 from rfl, run_one, List.map_nil, okTurns, List.nil_append, h, okEvents,
      List.append_nil]
    rfl
  | cons p tail ih =>
    intro x d n data es hx hall
    obtain ⟨y, e⟩ := p
    have h := turn x d n data es (.answer (.ok e) :: okTurns (tail.map Prod.snd) ++ .engine :: rest) hx
    have hy : (access (data ++ readsGiven [(x, d)]))[n + 1]? = some y := by
      simpa using hall 0 (by simp)
    have he : txAt access { turnStart s with
        inputs := .answer (.ok e) :: okTurns (tail.map Prod.snd) ++ .engine :: rest, bus := .idle, response := none,
        sub := n + 1, readData := data ++ readsGiven [(x, d)], log := s.log ++ es } = some y := hy
    rw [issueNext, he] at h
    have hcons : ∀ l : List (Tx × Half), readsGiven ((x, d) :: l) = readsGiven [(x, d)] ++ readsGiven l := by
      intro l; cases x <;> rfl
    have := ih y e (n + 1) (data ++ readsGiven [(x, d)]) (es ++ [.issue y s.now, .answer (.ok e) s.now]) hy
      (by
        intro k hk
        have := hall (k + 1) (by simpa using hk)
        rw [List.take_succ_cons, hcons] at this
        rw [List.append_assoc, show n + 1 + 1 + k = n + 1 + (k + 1) by omega]
        simpa using this)
    rw [show 2 * ((y, e) :: tail).length + 1 = (2 * tail.length + 1) + 1 + 1 by simp; omega]
    refine (run_next h).trans ?_
    refine (run_next (t := midAccess s e (n + 1) (data ++ readsGiven [(x, d)])
      (es ++ [.issue y s.now, .answer (.ok e) s.now]) (okTurns (tail.map Prod.snd) ++ .engine :: rest)) ?_).trans ?_
    · simp [step, issueTx, applyInput, deliverAnswer, receive, dropInput, midAccess]
    · have e1 : n + 1 + 1 + tail.length = n + 1 + ((y, e) :: tail).length := by simp; omega
      rw [this, hcons ((y, e) :: tail), e1]
      simp only [okEvents, List.append_assoc, List.cons_append, List.nil_append]
      rfl

/-- An access by steps, each answer right after its issue: after the OK answers in `pairs` the last turn issues the
transaction after those, or completes the access. -/
theorem access_run {s : State} {i : Instr} {access : Access} (hb : s.busy = true) (hi : currentInstr s = some i)
    (ha : accessOf s i = some access) (hbus : s.bus = .idle) (hr : s.response = none) (rest : List Input)
    (pairs : List (Tx × Half)) (hin : s.inputs = okTurns (pairs.map Prod.snd) ++ .engine :: rest)
    (h : ∀ k, k < pairs.length → (access (readsGiven (pairs.take k)))[k]? = pairs[k]?.map Prod.fst) :
    Host.Core.run core (2 * pairs.length + 1) s = issueNext access { turnStart s with
      inputs := rest, sub := pairs.length, readData := readsGiven pairs, log := s.log ++ okEvents s.now pairs }
      fun m => .next (afterAccess i m) := by
  have h0 : step s = runAccess access (turnStart (dropInput s)) fun m => .next (afterAccess i m) := by
    cases pairs with
    | nil => exact step_access hb hi ha hin
    | cons p tail => exact step_access hb hi ha hin
  cases pairs with
  | nil =>
    rw [show 2 * ([] : List (Tx × Half)).length + 1 = 1 from rfl, run_one, h0]
    cases ho : s.op <;>
    simp [runAccess, beginAccess, hbus, hr, turnStart, ho, mirrorStep, dropInput, hin, okTurns, okEvents, readsGiven] <;>
    rfl
  | cons p tail =>
    obtain ⟨x, d⟩ := p
    have hx : (access [])[0]? = some x := by simpa [readsGiven] using h 0 (by simp)
    rw [runAccess_begin (by simpa using hbus) (by simpa using hr) hx] at h0
    rw [show 2 * ((x, d) :: tail).length + 1 = (2 * tail.length + 1) + 1 + 1 by simp; omega]
    refine (run_next h0).trans ?_
    refine (run_next (t := midAccess s d 0 [] [.issue x s.now, .answer (.ok d) s.now]
      (okTurns (tail.map Prod.snd) ++ .engine :: rest)) ?_).trans ?_
    · cases ho : s.op <;>
      simp [step, issueTx, beginAccess, applyInput, deliverAnswer, receive, dropInput, midAccess, hin, okTurns,
        turnStart, ho, mirrorStep]
    · rw [mid_access_run hb hi ha rest tail x d 0 [] _ hx
        (fun k hk => by simpa [Nat.add_comm] using h (k + 1) (by simpa using hk))]
      simp [hbus, hr, okEvents, Nat.add_comm]
      rfl

/-- An access whose transactions are all answered OK, by steps: it completes. -/
theorem access_run_done {s : State} {i : Instr} {access : Access} (hb : s.busy = true) (hi : currentInstr s = some i)
    (ha : accessOf s i = some access) (hbus : s.bus = .idle) (hr : s.response = none) (rest : List Input)
    (pairs : List (Tx × Half)) (hin : s.inputs = okTurns (pairs.map Prod.snd) ++ .engine :: rest)
    (h : ∀ k, k < pairs.length → (access (readsGiven (pairs.take k)))[k]? = pairs[k]?.map Prod.fst)
    (hend : (access (readsGiven pairs))[pairs.length]? = none) :
    Host.Core.run core (2 * pairs.length + 1) s = .next (afterAccess i { turnStart s with
      inputs := rest, sub := pairs.length, readData := readsGiven pairs, log := s.log ++ okEvents s.now pairs }) := by
  rw [access_run hb hi ha hbus hr rest pairs hin h, issueNext]
  simp only [txAt, hend]
  rfl

end Sys2Proof.Machine
end

