-- ==== Sys2Proof/Tests/Slice0.lean ====
section
/-! SUPPORT. Small tests: words written out from 30_encoding.md, ill-formed terms, single steps against the vectors of
95_test_vectors.md. -/

namespace Sys2Proof.Tests

/-! The tests run one after another: all at once, their threads' stacks pass the check's memory limit. -/

set_option Elab.async false

open Sys2Proof.Machine

/-! ## Helpers -/

/-- The state a step answered, tested by `f`; false for a fault or a refusal. -/
def nextSat (r : Result) (f : State → Bool) : Bool :=
  match r with
  | .next t => f t
  | .fault _ => false
  | .refused _ => false

/-- A step refused with this reason. -/
def refusedWith (r : Result) (e : Refusal) : Bool :=
  match r with
  | .refused e' => e' == e
  | .next _ => false
  | .fault _ => false

/-- Whether a decoder answered this instruction. -/
def decodesTo (r : Except DecodeError Instr) (i : Instr) : Bool :=
  match r with
  | .ok j => j == i
  | .error _ => false

/-- Whether a decoder refused with this reason. -/
def decodeFails (r : Except DecodeError Instr) (e : DecodeError) : Bool :=
  match r with
  | .ok _ => false
  | .error e' => e' == e

/-- ENABLE running profile T's bring-up at an index, with configuration C0 latched. -/
def atStep (k : Byte) : State :=
  { State.reset with busy := true, op := .enable, lastop := 1, rom := some .bringup, romStep := k, statStep := k,
                     acfg := configC0 }

/-- A direct command running, with these operands. -/
def directRun (kind : OpKind) (arg : Arg) : State := { State.reset with busy := true, op := kind, arg := arg }

/-- The access of a state at transaction `n`, whose answer has arrived; the reads before gave `data`. -/
def answered (a : Answer) (n : Nat) (data : List Half) (s : State) : State :=
  { s with response := some a, sub := n, readData := data }

/-! ## Well-formedness -/

theorem test_wf_reg_outside : (Instr.uWr 28 .zero).wf profileT = false := by decide
theorem test_wf_lit_outside : (Instr.uWr 0 (.lit 20)).wf profileT = false := by decide
theorem test_wf_upd_reg_outside : (Instr.uUpd 28 .zero .zero).wf profileT = false := by decide
theorem test_wf_upd_mask_outside : (Instr.uUpd 0 (.lit 20) .zero).wf profileT = false := by decide
theorem test_wf_upd_value_outside : (Instr.uUpd 0 .zero (.lit 20)).wf profileT = false := by decide
theorem test_wf_setb : (Instr.uUpd 23 (.lit 19) (.lit 19)).wf profileT = true := by decide

/-! ## Decoding, every constructor (words of 30_encoding.md and 95_test_vectors.md) -/

theorem test_decode_enable : decodesTo (decodeHost 0x00000001) .enable = true := by decide
theorem test_decode_disable : decodesTo (decodeHost 0x00000002) .disable = true := by decide
theorem test_decode_hSolve : decodesTo (decodeHost 0x00000003) .hSolve = true := by decide
theorem test_decode_hRegwr : decodesTo (decodeHost 0x03000004) (.hRegwr 0x0300) = true := by decide
theorem test_decode_hRegrd : decodesTo (decodeHost 0x03000005) (.hRegrd 0x0300) = true := by decide
theorem test_decode_hRegupd : decodesTo (decodeHost 0x00320006) (.hRegupd 0x0032) = true := by decide
theorem test_decode_hShort : decodesTo (decodeHost 0x08361507) (.hShort 0x15 0x36 0x08) = true := by decide
theorem test_decode_uEnd : decodesTo (decodeUop 0x00000000) .uEnd = true := by decide
theorem test_decode_uPhase : decodesTo (decodeUop 0x10A00000) (.uPhase .pointerReset) = true := by decide
theorem test_decode_uWr : decodesTo (decodeUop 0x2130C000) (.uWr 0x13 (.lit 12)) = true := by decide
theorem test_decode_uWr_plldiv : decodesTo (decodeUop 0x20181000) (.uWr 1 .plldiv) = true := by decide
theorem test_decode_uUpd : decodesTo (decodeUop 0x31610800) (.uUpd 0x16 (.lit 16) .zero) = true := by decide
theorem test_decode_uWait : decodesTo (decodeUop 0x40100000) (.uWait .frame) = true := by decide
theorem test_decode_uSolve : decodesTo (decodeUop 0x50000000) .uSolve = true := by decide
theorem test_decode_uDerive : decodesTo (decodeUop 0x60000000) .uDerive = true := by decide
theorem test_decode_uShort : decodesTo (decodeUop 0x70511000) (.uShort 0x05 0x11 0x00) = true := by decide
theorem test_decode_uRstline : decodesTo (decodeUop 0x80100000) (.uRstline true) = true := by decide

/-! Illegal words: vectors E4 to E8, and R113. -/

theorem test_illegal_e4 : decodeFails (decodeHost 0x00000000) (.reservedOpcode 0) = true := by decide
theorem test_illegal_e5 : decodeFails (decodeHost 0x00000009) (.reservedOpcode 9) = true := by decide
theorem test_illegal_e6 : decodeFails (decodeHost 0x00000011) .reservedBits = true := by decide
theorem test_illegal_e7 : decodeFails (decodeHost 0x03000014) .reservedBits = true := by decide
theorem test_illegal_e8 : decodeFails (decodeHost 0x08361517) .reservedBits = true := by decide
theorem test_uop_phase_11 : decodeFails (decodeUop 0x10B00000) (.reservedPhase 11) = true := by decide
theorem test_uop_delay_2 : decodeFails (decodeUop 0x40200000) (.reservedDelay 2) = true := by decide
theorem test_uop_source_86 : decodeFails (decodeUop 0x20086000) (.reservedSource 0x86) = true := by decide
theorem test_uop_rstline_bit1 : decodeFails (decodeUop 0x80200000) .operandNotZero = true := by decide
theorem test_uop_op_9 : decodeFails (decodeUop 0x90000000) (.reservedOpcode 9) = true := by decide
theorem test_uop_low_bits : decodeFails (decodeUop 0x50000008) .reservedBits = true := by decide

theorem test_table_word_uWr : decodeTableWord 32 0x20000000 = some (.uWr 0 (.lit 0)) := by decide
theorem test_table_word_short_row : decodeTableWord 16 0xFFFF0005 = some (.hRegrd 0) := by decide

/-! ## Profile T (R202 to R204) and the building of a DBBE (R201) -/

theorem test_bringup_head : (bringupRom profileT).take 9 =
    [0x80000000, 0x20000000, 0x20001000, 0x10100000, 0x50000000, 0x20181000, 0x20282000, 0x40000000,
      0x20283000] := by decide
theorem test_bringup_length : (bringupRom profileT).length = 40 := by decide
theorem test_buildT : buildWf buildT = true := by decide +kernel

/-- R201 item 2 fails. -/
theorem test_build_frame_bits : (match buildOf { profileT with frmstopRstptr := 19 } true 1 with
    | .error e => e == .frameBitsDiffer
    | .ok _ => false) = true := by decide +kernel

/-! ## Solver and derivation (vectors B, S1, S9, D1, D5) -/

theorem test_bracket_b1 : bracket 999999992 = some 0 := by decide
theorem test_bracket_b2 : bracket 1000000000 = none := by decide
theorem test_bracket_b3 : bracket 500000000 = some 0 := by decide
theorem test_bracket_b9 : bracket 62500000 = some 3 := by decide
theorem test_bracket_b10 : bracket 62499992 = none := by decide
theorem test_target_b13 : targetFreq { configC0 with pclk := 0xFFFFFFFF, dpiLanes := 255, dsiLanes := 1 } =
    1095216660224 := by decide
theorem test_solve_s9 : (let r := searchPll 2000000 3 63250000
    r.found && r.bestFbd == 252 && r.bestPrd == 0 && r.bestPll == 63250000) = true := by decide +kernel
theorem test_hsync_d3 : hsyncValue ⟨154900000, 0, 24, 4, 44, 148, 5, 36⟩ 464640000 = 575 := by decide
theorem test_roundtrip_t4 : pllToPclk ⟨154900005, 1, 3, 1, 0, 0, 0, 0⟩ 464700008 = 154900002 := by decide

/-! ## One step of each instruction -/

/-- E9: an ENABLE from reset has no configuration. -/
theorem test_enable_bad_config : nextSat (step { State.reset with inputs := [.host (.write 0x14 4 0x00000001)] })
    (fun t => statusWord t == 0x02001040) = true := by decide +kernel

theorem test_enable_accepts : nextSat (exec .enable { State.reset with cfg := configC0 })
    (fun t => t.busy && t.op == .enable && t.rom == some .bringup && t.acfg == configC0) = true := by decide +kernel

theorem test_disable_accepts : nextSat (exec .disable { State.reset with romStep := 7 })
    (fun t => t.busy && t.rom == some .teardown && t.romStep == 0 && t.lastop == 2) = true := by decide +kernel

/-- P1's solve: PLL_RES 0x80000017. -/
theorem test_hSolve_solves : nextSat
    (exec .hSolve { State.reset with busy := true, op := .solve, acfg := configC0 })
    (fun t => pllResWord t == 0x80000017 && t.pllFreq == 929400000 && t.pllBitclk == 464700000
      && t.target == 929400000 && t.solveDone) = true := by decide +kernel

/-- P1's derivation: 180 and 20, then idle. -/
theorem test_hSolve_derives : nextSat
    (exec .hSolve { State.reset with busy := true, op := .solve, acfg := configC0, solveDone := true, valid := true, pllBitclk := 464700000 })
    (fun t => t.timHsync == 180 && t.timVsync == 20 && !t.busy && t.op == .none) = true := by decide +kernel

/-- A1, R77: after the low half the high half. -/
theorem test_hRegwr_a1 : nextSat
    (exec (.hRegwr 0x0300) (answered (.ok 0) 0 [] (directRun .regwr ⟨0x0300, 0x12345678, 0, 0, 0, 0⟩)))
    (fun t => t.log == [.issue (.write 0x0302 0x1234) 0] && t.sub == 1 && t.busy) = true := by decide +kernel

/-- A8: the high half answered ERR. -/
theorem test_hRegwr_a8 : nextSat
    (exec (.hRegwr 0x0300) (answered .err 1 [] (directRun .regwr ⟨0x0300, 0x12345678, 0, 0, 0, 0⟩)))
    (fun t => t.log == [] && t.err == .busError && !t.busy) = true := by decide +kernel

/-- A2. -/
theorem test_hRegrd_a2 : nextSat
    (exec (.hRegrd 0x0300) (answered (.ok 0x1234) 1 [0x5678] (directRun .regrd ⟨0x0300, 0, 0, 0, 0, 0⟩)))
    (fun t => t.rdData == 0x12345678 && !t.busy && t.err == .none) = true := by decide +kernel

/-- A3. -/
theorem test_hRegupd_a3 : nextSat
    (exec (.hRegupd 0x0300)
      (answered (.ok 0x1234) 1 [0x5678] (directRun .regupd ⟨0x0300, 0x0000AB00, 0x0000FF00, 0, 0, 0⟩)))
    (fun t => t.log == [.issue (.write 0x0300 0xAB78) 0] && t.busy) = true := by decide +kernel

/-- A6: the W16 mask truncates to 0, so no write follows the read. -/
theorem test_hRegupd_a6 : nextSat
    (exec (.hRegupd 0x0032) (answered (.ok 0xBEEF) 0 [] (directRun .regupd ⟨0x0032, 0x00010000, 0x00010000, 0, 0, 0⟩)))
    (fun t => t.log == [] && !t.busy && t.err == .none) = true := by decide +kernel

/-- K4: the third transaction answered ERR, no trigger write. -/
theorem test_hShort_k4 : nextSat
    (exec (.hShort 0x15 0x36 0x08) (answered .err 2 [] (directRun .short ⟨0, 0, 0, 0x15, 0x36, 0x08⟩)))
    (fun t => t.log == [] && t.err == .busError && !t.busy) = true := by decide +kernel

theorem test_uEnd_idles : nextSat (step (atStep 39))
    (fun t => !t.busy && t.op == .none && t.statStep == 39) = true := by decide +kernel

theorem test_uPhase_reset : nextSat (step (atStep 3))
    (fun t => t.phase == .reset && t.romStep == 4) = true := by decide +kernel

theorem test_uPhase_off_discards : nextSat
    (exec (.uPhase .off) { State.reset with valid := true, fbd := 23 })
    (fun t => !t.valid && t.fbd == 23) = true := by decide +kernel

/-- A10: `WR PLLCTL0, PLLDIV` after S1. -/
theorem test_uWr_a10 : nextSat (step { atStep 5 with fbd := 23 })
    (fun t => t.log == [.issue (.write 0x0016 0x0017) 0] && t.romStep == 5) = true := by decide +kernel

/-- A transaction not answered leaves the Engine waiting. -/
theorem test_uWr_waits : nextSat (step { atStep 10 with bus := .pending (.write 0x0142 0), sub := 1 })
    (fun t => t.bus == .pending (.write 0x0142 0) && t.sub == 1 && t.romStep == 10 && t.busy && t.log == []) = true := by
  decide +kernel

/-- A12: the bit is set already, so no write. -/
theorem test_uUpd_a12 : nextSat (step (answered (.ok 0x0040) 0 [] (atStep 37)))
    (fun t => t.log == [] && t.romStep == 38) = true := by decide +kernel

/-- A11. -/
theorem test_uUpd_a11 : nextSat (step (answered (.ok 0) 0 [] (atStep 37)))
    (fun t => t.log == [.issue (.write 0x0004 0x0040) 0] && t.romStep == 37) = true := by decide +kernel

/-- An answer is an event when it arrives (R80), and the Engine has not moved. -/
theorem test_answer_arrives : nextSat
    (step { atStep 5 with bus := .pending (.write 0x0016 0), now := 7, inputs := [.answer .err] })
    (fun t => t.log == [.answer .err 7] && t.bus == .idle && t.response == some .err && t.busy) = true := by
  decide +kernel

/-- R84, R250: block reset between the answer to the low half and the issue of the high half. -/
theorem test_reset_between_halves : nextSat
    (step { answered (.ok 0) 0 [] (directRun .regwr ⟨0x0300, 0x12345678, 0, 0, 0, 0⟩) with inputs := [.blockReset] })
    (fun t => t.log == [.blockReset 0] && t.response == none && !t.busy) = true := by decide +kernel

theorem test_uWait_holds : nextSat
    (exec (.uWait .pllSettle) { atStep 7 with waiting := true, waitStart := 5, now := 1004 })
    (fun t => t.romStep == 7 && t.waiting) = true := by decide +kernel

theorem test_uWait_ends : nextSat
    (exec (.uWait .pllSettle) { atStep 7 with waiting := true, waitStart := 5, now := 1005 })
    (fun t => t.romStep == 8 && !t.waiting) = true := by decide +kernel

theorem test_uSolve_s1 : nextSat (step (atStep 4))
    (fun t => pllResWord t == 0x80000017 && t.romStep == 5 && t.pllFreq == 929400000) = true := by decide +kernel

/-- P5a: OUT_OF_RANGE, target 60000000, STEP 4. -/
theorem test_uSolve_out_of_range : nextSat (step { atStep 4 with acfg := { configC0 with pclk := 10000000 }, phase := .reset, rstline := false })
    (fun t => statusWord t == 0x00041110 && t.target == 60000000 && !t.valid) = true := by decide +kernel

/-- D1. -/
theorem test_uDerive_d1 : nextSat (step { atStep 16 with valid := true, pllBitclk := 464700000 })
    (fun t => t.timHsync == 180 && t.timVsync == 20 && t.romStep == 17) = true := by decide +kernel

/-- R175: a U.DERIVE with VALID = 0 is refused. -/
theorem test_uDerive_invalid : refusedWith (step (atStep 16))
    (.deriveWithoutSolution (some .bringup) 16) = true := by decide +kernel

/-- K1: the trigger comes last. -/
theorem test_uShort_k1 : nextSat (step (answered (.ok 0) 2 [] (atStep 31)))
    (fun t => t.log == [.issue (.write 0x0600 1) 0] && t.romStep == 31) = true := by decide +kernel

theorem test_uShort_ends : nextSat (step (answered (.ok 0) 3 [] (atStep 31)))
    (fun t => t.log == [] && t.romStep == 32) = true := by decide +kernel

theorem test_uRstline_releases : nextSat (step (atStep 0))
    (fun t => !t.rstline && t.log == [.resetLine false 0] && t.romStep == 1) = true := by decide +kernel

theorem test_uRstline_absent : nextSat
    (exec (.uRstline true) { State.reset with build := { buildT with hasResetLine := false }, rstline := false })
    (fun t => !t.rstline && t.log == [] && t.romStep == 1) = true := by decide +kernel

/-! ## The window and block reset -/

/-- E11: a CMD write while BUSY only sets REJECT. -/
theorem test_reject : nextSat
    (step { atStep 7 with phase := .reset, rstline := false, waiting := true, inputs := [.host (.write 0x14 4 0x00000011)] })
    (fun t => statusWord t == 0x01071101) = true := by decide +kernel

theorem test_reset_status : statusWord State.reset = 0x02000000 := by decide
theorem test_misaligned : nextSat (step { State.reset with inputs := [.host (.write 0x01 4 5)] })
    (fun t => t.reply == some .error && t.cfg == DevConfig.zero) = true := by decide +kernel

/-- R251: block reset with a transaction outstanding. -/
theorem test_block_reset : nextSat
    (step { atStep 5 with bus := .pending (.read 4), rstline := false, inputs := [.blockReset] })
    (fun t => !t.busy && t.bus == .idle && t.rstline && t.phase == .off) = true := by
  decide +kernel

/-- A row's word placed by `withFetchWord` runs in the next step. -/
theorem test_withFetchWord_uWr : nextSat (step (State.reset.withFetchWord 32 0x20000000))
    (fun t => t.bus == .pending (.write 0x0002 0x0001)) = true := by decide +kernel
theorem test_withFetchWord_uUpd : nextSat (step (State.reset.withFetchWord 32 0x3FF7F850))
    (fun t => t.bus == .pending (.read 0x0000)) = true := by decide +kernel
theorem test_withFetchWord_hShort : nextSat (step (State.reset.withFetchWord 32 0x00000007))
    (fun t => t.busy && t.op == .short) = true := by decide +kernel

/-! ## Witnesses: the hypotheses of the statements of Obligations.lean hold together, clause by clause -/

/-- What `nextSat` says. -/
theorem nextSat_spec {r : Result} {f : State → Bool} (h : nextSat r f = true) :
    ∃ t, r = .next t ∧ f t = true := by
  cases r with
  | next t => exact ⟨t, rfl, h⟩
  | fault e => cases h
  | refused e => cases h

theorem witness_words : (Instr.hShort 0xFF 0xFF 0xFF).isHost = true ∧ (Instr.uUpd 0xFF (.lit 127) .vsync).isHost = false
    ∧ decodeHost 0xFFFF0004 = .ok (.hRegwr 0xFFFF) ∧ decodeUop 0x20085000 = .ok (.uWr 0 .vsync) := by decide

theorem witness_IllegalCommandWords : State.reset.busy = false ∧ (atStep 0).busy = true ∧
    decodeHost 0x00000000 = .error (.reservedOpcode 0) ∧ decodeHost 0x80000008 = .error (.reservedOpcode 8) := by
  decide +kernel

theorem witness_WellFormedMicroOpWords : (Instr.uWr 28 .zero).wf State.reset.build.profile = false ∧
    (Instr.uUpd 27 .zero (.lit 20)).wf State.reset.build.profile = false ∧ wordOk profileT 0x21B13000 = true ∧
    wordOk profileT 0x21C13000 = false ∧ wordOk profileT 0x21B14000 = false := by decide +kernel

theorem witness_EveryAdmissibleProfileBuilds : profileT.regmap.length ≤ 256 ∧ profileT.lit.length ≤ 128 ∧
    rolesOk profileT = true ∧ frameBitsOk profileT = true ∧ nonZeroBitsOk profileT = true ∧
    28 + profileT.phyLanes.length + profileT.timingFixed.length ≤ 256 := by decide +kernel

theorem witness_WidthClasses : widthClass 0x00FF = .w16 ∧ widthClass 0x0600 = .w16 ∧ widthClass 0x0100 = .w32 ∧
    widthClass 0x05FF = .w32 := by decide

theorem witness_SearchKeepsFirst : (searchPll 38725000 0 929400000).found = true := by decide +kernel

/-- A running ENABLE at its U.SOLVE and a running H.SOLVE, with a configuration. -/
def solving (kind : OpKind) (c : DevConfig) : State := { atStep 4 with op := kind, acfg := c }

/-- A reference clock of 1 Hz reaches no bracket. -/
theorem witness_no_solution : (solving .solve { configC0 with refclk := 1 }).busy = true ∧
    configOk { configC0 with refclk := 1 } = true ∧ bracket (targetFreq { configC0 with refclk := 1 }) = some 0 ∧
    (searchPll 1 0 929400000).found = false ∧ targetFreq configC0 = 929400000 := by
  refine ⟨by decide +kernel, by decide +kernel, by decide +kernel,
    searchPll_found_of_outside fun prd fbd _ h => .inl ?_, by decide +kernel⟩
  have := Nat.div_le_self (1 * (fbd + 1)) ((prd + 1) <<< 0)
  simp only [candidate, frsLimit]
  omega

theorem witness_out_of_range : configOk { configC0 with pclk := 10416666 } = true ∧
    targetFreq { configC0 with pclk := 10416666 } < 62500000 ∧
    bracket (targetFreq { configC0 with pclk := 10416666 }) = none ∧
    configOk { configC0 with pclk := 166666667 } = true ∧
    1000000000 ≤ targetFreq { configC0 with pclk := 166666667 } ∧
    (solving .solve configC0).op = .solve ∧ (solving .solve configC0).solveDone = false := by decide +kernel

theorem witness_solution : configOk configC0 = true ∧ bracket (targetFreq configC0) = some 0 ∧
    (searchPll configC0.refclk.toNat 0 (targetFreq configC0)).found = true ∧
    (solving .solve configC0).busy = true := by decide +kernel

theorem witness_SolveDependsOnFourFieldsOnly :
    ∃ s' t', exec .uSolve (solving .enable configC0) = .next s' ∧
      exec .uSolve (solving .enable { configC0 with hsw := 9 }) = .next t' := by
  obtain ⟨s', hs, -⟩ := nextSat_spec (r := exec .uSolve (solving .enable configC0)) (f := fun _ => true)
    (by decide +kernel)
  obtain ⟨t', ht, -⟩ := nextSat_spec (r := exec .uSolve (solving .enable { configC0 with hsw := 9 }))
    (f := fun _ => true) (by decide +kernel)
  exact ⟨s', t', hs, ht⟩

theorem witness_IntermediateRanges : frsLimit (0 + 1) ≤ 500000000 ∧ 999999999 < frsLimit 0 ∧
    0 < configC0.hsw.toNat + configC0.hbp.toNat ∧ configOk { configC0 with hsw := 0, hbp := 0 } = true := by
  decide +kernel

theorem witness_UDerive : (placeSolution (atStep 16)).valid = true ∧
    configOk (placeSolution (atStep 16)).acfg = true ∧ (atStep 16).valid = false := by decide +kernel

theorem witness_acceptance : State.reset.busy = false ∧ configOk (placeCfg State.reset).cfg = true ∧
    configOk State.reset.cfg = false ∧ (placeCfg State.reset).cfg.pclk ≠ 0 := by decide +kernel

/-- A derivation of H.SOLVE. -/
theorem witness_HSolveRuns_derives :
    let s := { placeSolution (solving .solve configC0) with solveDone := true }
    s.busy = true ∧ s.op = .solve ∧ s.valid = true ∧ configOk s.acfg = true := by decide +kernel

/-! Register accesses, at the addresses where the width class changes: `k` transactions are behind, the first reads gave
`data`, and the answer to the next one has arrived; or the whole access is to come. -/

theorem witness_direct_w16 (a : Addr) (k : OpKind) (ha : a = 0x00FF ∨ a = 0x0600)
    (hk : k = .regwr ∨ k = .regrd ∨ k = .regupd) :
    let s := directRun k ⟨a, 0x00000001, 0xFFFFFFFF, 0, 0, 0⟩
    s.busy = true ∧ s.op = k ∧ s.bus = .idle ∧ s.response = none ∧ (a.toNat < 0x100 ∨ 0x600 ≤ a.toNat) ∧
    (answered (.ok 1) 0 [] s).sub = 0 ∧ (answered (.ok 1) 0 [] s).readData = [] ∧
    (answered (.ok 9) 1 [2] s).response = some (.ok 9) ∧ (answered (.ok 9) 1 [2] s).bus = .idle ∧
    updatedValue a s.arg.mask s.arg.data ((1 : Half).setWidth 32) = (1 : Half).setWidth 32 ∧
    updatedValue a s.arg.mask s.arg.data ((2 : Half).setWidth 32) ≠ (2 : Half).setWidth 32 := by
  rcases ha with rfl | rfl <;> rcases hk with rfl | rfl | rfl <;> decide +kernel

theorem witness_direct_w32 (a : Addr) (k : OpKind) (ha : a = 0x0100 ∨ a = 0x05FF)
    (hk : k = .regwr ∨ k = .regrd ∨ k = .regupd) :
    let s := directRun k ⟨a, 0x00020001, 0xFFFFFFFF, 0, 0, 0⟩
    s.busy = true ∧ s.op = k ∧ s.bus = .idle ∧ s.response = none ∧ 0x100 ≤ a.toNat ∧ a.toNat < 0x600 ∧
    (answered (.ok 2) 1 [1] s).sub = 1 ∧ (answered (.ok 2) 1 [1] s).readData = [1] ∧
    (answered (.ok 9) 3 [2, 1] s).response = some (.ok 9) ∧ (answered (.ok 9) 3 [2, 1] s).bus = .idle ∧
    updatedValue a s.arg.mask s.arg.data ((2 : Half) ++ (1 : Half)) = (2 : Half) ++ (1 : Half) ∧
    updatedValue a s.arg.mask s.arg.data ((1 : Half) ++ (2 : Half)) ≠ (1 : Half) ++ (2 : Half) := by
  rcases ha with rfl | rfl <;> rcases hk with rfl | rfl | rfl <;> decide +kernel

/-- The moves of a whole access. -/
theorem witness_moves : okTurns [1, 2] ++ [.engine] =
    [.engine, .answer (.ok 1), .engine, .answer (.ok 2), .engine] := by decide

/-- A profile whose registers stand where the width class changes, and a bring-up of one micro-op. -/
def edgeState (i : Instr) : State :=
  { atStep 0 with
    build := { buildT with profile := { profileT with regmap := [0x00FF, 0x0600, 0x0100, 0x05FF] },
                           bringup := [encode i] } }

theorem witness_uop_access (reg : Byte) (h : reg = 0 ∨ reg = 1 ∨ reg = 2 ∨ reg = 3) :
    ((edgeState (.uWr reg (.lit 1))).build.profile.regmap.map fun a => widthClass a) = [.w16, .w16, .w32, .w32] ∧
    (edgeState (.uWr reg (.lit 1))).build.profile.regmap[reg.toNat]?.isSome = true ∧
    srcValue (edgeState (.uWr reg (.lit 1))) (.lit 1) = some 0 ∧
    srcValue (edgeState (.uWr reg (.lit 1))) (.lit 0) = some 1 ∧
    currentInstr (edgeState (.uWr reg (.lit 1))) = some (.uWr reg (.lit 1)) ∧
    currentInstr (edgeState (.uUpd reg (.lit 0) (.lit 1))) = some (.uUpd reg (.lit 0) (.lit 1)) ∧
    (edgeState (.uWr reg (.lit 1))).busy = true ∧ (edgeState (.uWr reg (.lit 1))).bus = .idle ∧
    (edgeState (.uWr reg (.lit 1))).response = none ∧
    ((edgeState .uEnd).build.profile.regmap.all fun a =>
      updatedValue a 1 0 0 == 0 && updatedValue a 1 0 1 != 1) = true := by
  rcases h with rfl | rfl | rfl | rfl <;> decide +kernel

theorem witness_ShortPackets : shortAddrs profileT = some (0x0602, 0x0604, 0x0610, 0x0600) ∧
    (sendShortTxs profileT (0x00FF, 0x0600, 0x0000, 0xFFFF) 5 17 0).length = 4 ∧
    (sendShortTxs profileT (0x0100, 0x05FF, 0x0000, 0xFFFF) 5 17 0).length = 6 ∧
    (sendShortTxs profileT (0x0602, 0x0604, 0x0610, 0x0600) 5 17 0).length = 3 + 1 ∧
    (answered (.ok 0) 3 [] (atStep 31)).sub = 3 ∧ (atStep 31).bus = .idle ∧ (atStep 31).response = none ∧
    currentInstr (atStep 31) = some (.uShort 0x05 0x11 0x00) ∧
    (directRun .short ⟨0, 0, 0, 5, 17, 0⟩).op = .short := by decide +kernel

/-- The last write of a short packet answered ERR, from its beginning. -/
theorem witness_BusErrorAborts_short :
    currentInstr (atStep 31) = some (.uShort 0x05 0x11 0x00) ∧ (atStep 31).busy = true ∧
    shortAddrs profileT = some (0x0602, 0x0604, 0x0610, 0x0600) ∧
    sendShortTxs profileT (0x0602, 0x0604, 0x0610, 0x0600) 5 17 0 =
      [.write 0x0602 0x1005, .write 0x0604 0, .write 0x0610 0x0011] ++ [.write 0x0600 1] ∧
    readsGiven [(.write 0x0602 0x1005, 0), (.write 0x0604 0, 0), (.write 0x0610 0x0011, 0)] = [] := by decide +kernel

/-- The read and the write of an update answered ERR, in the turn that takes the answer and with the write
outstanding. -/
theorem witness_BusErrorAborts_update :
    currentInstr (atStep 37) = some (.uUpd 23 (.lit 19) (.lit 19)) ∧ regAddr profileT 23 = some 0x0004 ∧
    srcValue (atStep 37) (.lit 19) = some 0x40 ∧
    (regUpdateTxs 0x0004 0x40 0x40 [])[0]? = some (.read 0x0004) ∧
    (regUpdateTxs 0x0004 0x40 0x40 (readsGiven [(.read 0x0004, 0)]))[1]? = some (.write 0x0004 0x40) ∧
    (answered .err 1 [0] (atStep 37)).response = some .err ∧ (answered .err 1 [0] (atStep 37)).bus = .idle ∧
    ({ atStep 37 with bus := .pending (.write 0x0004 0x40), sub := 1, readData := [0] } : State).busy = true := by
  decide +kernel

theorem witness_BusErrorAborts_pending :
    let s := { atStep 37 with bus := .pending (.write 0x0004 0x40), sub := 1, readData := [0],
                              inputs := [.answer .err, .engine] }
    ControlInv s ∧ currentInstr s = some (.uUpd 23 (.lit 19) (.lit 19)) ∧ s.busy = true ∧
      s.bus = .pending (.write 0x0004 0x40) ∧ s.inputs = .answer .err :: .engine :: [] :=
  ⟨⟨by decide, by decide, by decide, fun _ => by decide, fun _ => by decide, fun _ => by decide, by decide⟩,
    by decide +kernel, rfl, rfl, rfl⟩

theorem witness_UWait : ∀ n ∈ [999, 1000, 49999, 50000],
    let s := { atStep 7 with waiting := true, waitStart := 5, now := 5 + n }
    s.waiting = true ∧ s.now - s.waitStart = n ∧ 0 < s.build.clkHz ∧ (atStep 7).waiting = false := by decide +kernel

theorem witness_URstline : State.reset.build.hasResetLine = true ∧ State.reset.rstline ≠ false ∧
    State.reset.rstline = true ∧
    (State.resetOf { buildT with hasResetLine := false }).build.hasResetLine = false := by decide +kernel

theorem witness_StepRuns : (State.reset.withFetchWord 32 0x00000002).inputs = [.host (.write 0x14 4 0x00000002)] ∧
    decodeHost 0x00000002 = .ok .disable ∧ (atStep 39).busy = true ∧
    (romWords buildT .bringup)[39]? = some 0x00000000 ∧ decodeUop 0x00000000 = .ok .uEnd ∧
    currentInstr (directRun .regrd Arg.zero) = some (.hRegrd 0) := by decide +kernel

theorem witness_window : (0x40 : Byte).toNat = 0x40 ∧ (0xFC : Byte).toNat % 4 = 0 ∧ 0x40 ≤ (0xFC : Byte).toNat ∧
    (0x24 : Byte).toNat % 4 = 0 ∧ 0x24 ≤ (0x24 : Byte).toNat ∧ (0x01 : Byte).toNat % 4 ≠ 0 ∧ 2 ≠ 4 := by decide

theorem witness_BlockReset :
    let s := { atStep 5 with bus := .pending (.read 4), inputs := [.answer (.ok 1)] }
    s.bus = .pending (.read 4) ∧ s.inputs = .answer (.ok 1) :: [] := by decide +kernel

/-! Statements about a step. -/

theorem witness_phase : ∃ t, step (atStep 3) = .next t ∧ (t.phase != (atStep 3).phase) = true :=
  nextSat_spec (by decide +kernel)

theorem witness_phase_reset :
    let s := { atStep 3 with phase := .reset, rstline := false, inputs := [.blockReset] }
    ∃ t, step s = .next t ∧ (t.phase != s.phase && t.rstline != s.rstline) = true := nextSat_spec (by decide +kernel)

theorem witness_reject_set :
    let s := { atStep 3 with inputs := [.host (.write 0x14 4 1)] }
    ∃ t, step s = .next t ∧ (!s.reject && t.reject && s.busy) = true := nextSat_spec (by decide +kernel)

theorem witness_reject_cleared :
    let s := { atStep 3 with reject := true, inputs := [.host (.write 0x20 4 0x01000000)] }
    ∃ t, step s = .next t ∧ (s.reject && !t.reject) = true := nextSat_spec (by decide +kernel)

theorem witness_rstline : ∃ t, step (atStep 0) = .next t ∧ (t.rstline != (atStep 0).rstline) = true :=
  nextSat_spec (by decide +kernel)

theorem witness_solution_changes : ∃ t, step (atStep 4) = .next t ∧ (t.fbd != (atStep 4).fbd) = true :=
  nextSat_spec (by decide +kernel)

theorem witness_rdData :
    let s := answered (.ok 7) 0 [] (directRun .regrd ⟨0x00FF, 0, 0, 0, 0, 0⟩)
    ∃ t, step s = .next t ∧ (t.rdData != s.rdData) = true := nextSat_spec (by decide +kernel)

theorem witness_HostCannotDisturb :
    let s := { atStep 3 with inputs := [.host (.write 0x00 4 7)] }
    ∃ t, step s = .next t ∧ (s.busy && t.cfg.pclk == 7 && t.acfg == s.acfg) = true := nextSat_spec (by decide +kernel)

/-! Invariants. -/

/-- The bring-up waits for the answer to its first write. -/
def waitingState : State :=
  { atStep 1 with bus := .pending (.write 0x0002 0x0001), log := [.issue (.write 0x0002 0x0001) 0] }

theorem witness_AccessWaits : ControlInv waitingState ∧ AccessInv waitingState ∧
    waitingState.bus = .pending (.write 0x0002 0x0001) ∧ waitingState.inputs = [] := by
  refine ⟨⟨by decide, by decide, by decide, fun _ => by decide, fun _ => by decide, fun _ => by decide,
    by decide⟩, ⟨fun t h => ?_, nofun, nofun⟩, by decide, by decide⟩
  cases h
  exact ⟨rfl, .uWr 0 (.lit 0), fun _ => regWriteTxs 0x0002 0x0001, by decide +kernel, rfl, by decide +kernel⟩

/-- An access with a transaction to come, at its beginning and after an answer. -/
theorem witness_AccessWaits_turns : currentInstr (atStep 10) = some (.uWr 3 (.lit 2)) ∧ (atStep 10).busy = true ∧
    regWriteTxs 0x0140 0 = [.write 0x0140 0, .write 0x0142 0] ∧ regAddr profileT 3 = some 0x0140 ∧
    srcValue (atStep 10) (.lit 2) = some 0 ∧ (answered (.ok 5) 0 [] (atStep 10)).response = some (.ok 5) := by
  decide +kernel

theorem witness_StepKeeps : (∃ t, step waitingState = .next t ∧ t.busy = true) ∧
    ∃ t, step (placeSolution waitingState) = .next t ∧ t.valid = true :=
  ⟨nextSat_spec (by decide +kernel), nextSat_spec (by decide +kernel)⟩

theorem witness_LogInv : LogInv waitingState ∧ WaitInv waitingState ∧ PllInv (placeSolution waitingState) := by
  refine ⟨⟨by decide +kernel, by decide +kernel⟩, ⟨nofun, fun r d k _ _ h => nomatch h⟩,
    fun _ => by decide +kernel⟩

theorem witness_RomInv : RomInv waitingState ∧ RomInv (placeSolution (atStep 39)) :=
  ⟨⟨by decide +kernel, fun r _ h => by cases h; decide +kernel, fun _ => by decide⟩,
    ⟨by decide +kernel, fun r _ h => by cases h; decide +kernel, fun _ _ => rfl⟩⟩

/-- The bring-up right after its U.WAIT, at the first time the statement allows. -/
def settledState : State := { atStep 8 with now := 1000, log := [.issue (.write 0x0018 0) 0, .answer (.ok 0) 0] }

theorem witness_WaitSeparates : ControlInv settledState ∧ AccessInv settledState ∧ LogInv settledState ∧
    WaitInv settledState ∧ romRunning settledState ∧ settledState.rom = some .bringup ∧
    settledState.romStep.toNat = 7 + 1 ∧ (romWords buildT .bringup)[7]? = some (encode (.uWait .pllSettle)) ∧
    settledState.bus = .idle ∧ settledState.response = none ∧ LogEntry.answer (.ok 0) 0 ∈ settledState.log ∧
    ∃ s', step settledState = .next s' ∧
      (s'.log.drop settledState.log.length == [.issue (.write 0x0018 0x0213) 1000]) = true := by
  refine ⟨⟨by decide, by decide, by decide, fun _ => by decide, fun _ => by decide, fun _ => by decide, by decide⟩,
    ⟨fun _ => nofun, nofun, nofun⟩, ⟨by decide +kernel, by decide +kernel⟩, ⟨nofun, ?_⟩, .inl rfl, rfl,
    by decide, by decide +kernel, rfl, rfl, by decide +kernel, nextSat_spec (by decide +kernel)⟩
  intro r d k _ hr _ _ hk hw
  cases hr
  have hk7 : k = 7 := by
    have : settledState.romStep.toNat = 8 := by decide
    omega
  subst hk7
  cases d with
  | frame => exact absurd hw (by decide +kernel)
  | pllSettle =>
    refine ⟨by decide, fun a t h => ?_⟩
    simp [settledState] at h
    omega

theorem witness_whole_operation : ControlInv (placeCfg State.reset) ∧ buildWf (placeCfg State.reset).build = true ∧
    (placeCfg State.reset).busy = false ∧ (placeCfg State.reset).bus = .idle ∧
    (placeCfg State.reset).response = none ∧
    (placeCfg State.reset).waiting = false ∧ configOk (placeCfg State.reset).cfg = true ∧
    bracket (targetFreq (placeCfg State.reset).cfg) = some 0 ∧
    (searchPll 38725000 0 (targetFreq (placeCfg State.reset).cfg)).found = true ∧
    36 ≤ (List.replicate 174 (0 : Half)).length ∧
    114 + 5 * (profileT.phyLanes.length + profileT.timingFixed.length) ≤ (List.replicate 174 (0 : Half)).length :=
  ⟨⟨by decide, by decide, by decide, fun _ => by decide, by decide, fun _ => by decide, by decide⟩,
    by decide +kernel, by decide, by decide, by decide, by decide, by decide, by decide +kernel, by decide +kernel,
    by decide +kernel, by decide +kernel⟩

end Sys2Proof.Tests
end

section
/-! PROOFS. The ranges of the solver's and the derivation's intermediates (00_scope.md R16). -/

namespace Sys2Proof.Machine

/-! ## Solver -/

/-- The configuration check of R183 says that every divisor and lane count is positive. -/
theorem configOk_iff (c : DevConfig) :
    configOk c = true ↔
      0 < c.pclk.toNat ∧ 0 < c.refclk.toNat ∧ 0 < c.dpiLanes.toNat ∧ 0 < c.dsiLanes.toNat := by
  have pos : ∀ {n : Nat} (x : BitVec n), x ≠ 0 ↔ 0 < x.toNat := fun x => by
    rw [Nat.pos_iff_ne_zero, ne_eq, ne_eq, BitVec.toNat_eq, BitVec.ofNat_eq_ofNat, BitVec.toNat_ofNat, Nat.zero_mod]
  simp only [configOk, Bool.and_eq_true, bne_iff_ne, pos, and_assoc]

/-- The limits of R7 halve from one range selector to the next. -/
theorem frsLimit_eq_two_mul {frs : Nat} (h : frs < 4) : frsLimit frs = 2 * frsLimit (frs + 1) := by
  interval_cases frs <;> rfl

theorem frsLimit_le (frs : Nat) : frsLimit frs ≤ 1000000000 := by
  unfold frsLimit; split <;> decide

/-- The bracket of a target is one of the four intervals and holds it (R154). -/
theorem bracket_spec {target frs : Nat} (h : bracket target = some frs) :
    frs < 4 ∧ target < frsLimit frs ∧ frsLimit (frs + 1) ≤ target := by
  have hmem := List.mem_range.1 (List.mem_of_find?_eq_some h)
  have hin := List.find?_some h
  exact ⟨hmem, by simpa using hin⟩

/-- The division of R151 only rounds the target down. -/
theorem targetFreq_mul_dsiLanes_le (c : DevConfig) :
    targetFreq c * c.dsiLanes.toNat ≤ c.pclk.toNat * c.dpiLanes.toNat := by
  have h := Nat.div_mul_le_self (c.pclk.toNat * c.dpiLanes.toNat) (8 * c.dsiLanes.toNat)
  calc targetFreq c * c.dsiLanes.toNat
      = (c.pclk.toNat * c.dpiLanes.toNat) / (8 * c.dsiLanes.toNat) * (8 * c.dsiLanes.toNat) := by
        rw [targetFreq, byteClock]; ring
    _ ≤ c.pclk.toNat * c.dpiLanes.toNat := h

theorem targetFreq_le (c : DevConfig) : targetFreq c ≤ c.pclk.toNat * c.dpiLanes.toNat := by
  obtain h0 | hpos := Nat.eq_zero_or_pos c.dsiLanes.toNat
  · simp [targetFreq, byteClock, h0]
  · exact (Nat.le_mul_of_pos_right _ hpos).trans (targetFreq_mul_dsiLanes_le c)

theorem pclk_mul_dpiLanes_lt (c : DevConfig) : c.pclk.toNat * c.dpiLanes.toNat < 2 ^ 40 :=
  calc c.pclk.toNat * c.dpiLanes.toNat
      < 2 ^ 32 * 2 ^ 8 := Nat.mul_lt_mul'' c.pclk.isLt c.dpiLanes.isLt
    _ = 2 ^ 40 := by norm_num

/-- The dividend of a candidate (R155). -/
theorem refclk_mul_lt (c : DevConfig) {fbd : Nat} (h : fbd < 512) : c.refclk.toNat * (fbd + 1) < 2 ^ 41 :=
  calc c.refclk.toNat * (fbd + 1)
      < 2 ^ 32 * (fbd + 1) := Nat.mul_lt_mul_of_pos_right c.refclk.isLt (by omega)
    _ ≤ 2 ^ 32 * 2 ^ 9 := Nat.mul_le_mul_left _ (by omega)
    _ = 2 ^ 41 := by norm_num

/-- The divisor of a candidate (R155). -/
theorem prd_shiftLeft_frs_le {prd frs : Nat} (hp : prd < 16) (hf : frs < 4) : (prd + 1) <<< frs ≤ 128 :=
  calc (prd + 1) <<< frs
      = (prd + 1) * 2 ^ frs := Nat.shiftLeft_eq _ _
    _ ≤ 16 * 2 ^ 3 := Nat.mul_le_mul (by omega) (Nat.pow_le_pow_right (by omega) (by omega))
    _ = 128 := by norm_num

/-- Sync and back porch are two 16-bit fields (R35). -/
theorem hsw_add_hbp_le (c : DevConfig) : c.hsw.toNat + c.hbp.toNat ≤ 131070 := by
  have := c.hsw.isLt
  have := c.hbp.isLt
  omega

/-- The dividend of `hsync` (R171), for any bit clock below 500 MHz. -/
theorem hsync_dividend_lt (c : DevConfig) {bitclk : Nat} (h : bitclk < 500000000) :
    (c.hsw.toNat + c.hbp.toNat) * (bitclk / 4) * c.dsiLanes.toNat < 2 ^ 52 := by
  have hdsi : c.dsiLanes.toNat ≤ 255 := Nat.le_of_lt_succ c.dsiLanes.isLt
  calc (c.hsw.toNat + c.hbp.toNat) * (bitclk / 4) * c.dsiLanes.toNat
      ≤ 131070 * 124999999 * 255 :=
        Nat.mul_le_mul (Nat.mul_le_mul (hsw_add_hbp_le c) (by omega)) hdsi
    _ < 2 ^ 52 := by norm_num

/-- A bit clock inside the target's bracket is below the target: the bracket's ends are a factor 2 apart (R154), and
the bit clock is half the frequency. -/
theorem half_lt_target_of_bracket {target frs pll : Nat} (hb : bracket target = some frs) (hpll : pll < frsLimit frs) :
    pll / 2 < target := by
  obtain ⟨hfrs, -, hlow⟩ := bracket_spec hb
  have := frsLimit_eq_two_mul hfrs
  omega

/-- R16: with a bit clock below the configuration's target, `hsync` is below `(hsw + hbp) * dpi_lanes / 4`. -/
theorem four_mul_hsyncValue_lt {c : DevConfig} {bitclk : Nat} (hc : configOk c = true) (hbit : bitclk < targetFreq c)
    (hpos : 0 < c.hsw.toNat + c.hbp.toNat) :
    4 * hsyncValue c bitclk < (c.hsw.toNat + c.hbp.toNat) * c.dpiLanes.toNat := by
  obtain ⟨-, -, -, hdsi⟩ := (configOk_iff c).1 hc
  have hrate : 4 * (bitclk / 4) * c.dsiLanes.toNat < c.pclk.toNat * c.dpiLanes.toNat :=
    calc 4 * (bitclk / 4) * c.dsiLanes.toNat
        ≤ bitclk * c.dsiLanes.toNat := Nat.mul_le_mul_right _ (by omega)
      _ < targetFreq c * c.dsiLanes.toNat := Nat.mul_lt_mul_of_pos_right hbit hdsi
      _ ≤ c.pclk.toNat * c.dpiLanes.toNat := targetFreq_mul_dsiLanes_le c
  have hdiv := Nat.div_mul_le_self
    ((c.hsw.toNat + c.hbp.toNat) * (bitclk / 4) * c.dsiLanes.toNat) c.pclk.toNat
  refine Nat.lt_of_mul_lt_mul_right (a := c.pclk.toNat) ?_
  calc 4 * hsyncValue c bitclk * c.pclk.toNat
      = 4 * (hsyncValue c bitclk * c.pclk.toNat) := Nat.mul_assoc _ _ _
    _ ≤ 4 * ((c.hsw.toNat + c.hbp.toNat) * (bitclk / 4) * c.dsiLanes.toNat) := Nat.mul_le_mul_left 4 hdiv
    _ = (c.hsw.toNat + c.hbp.toNat) * (4 * (bitclk / 4) * c.dsiLanes.toNat) := by ring
    _ < (c.hsw.toNat + c.hbp.toNat) * (c.pclk.toNat * c.dpiLanes.toNat) := Nat.mul_lt_mul_of_pos_left hrate hpos
    _ = (c.hsw.toNat + c.hbp.toNat) * c.dpiLanes.toNat * c.pclk.toNat := by ring

theorem hsyncValue_eq_zero {c : DevConfig} (h : c.hsw.toNat + c.hbp.toNat = 0) (bitclk : Nat) :
    hsyncValue c bitclk = 0 := by simp [hsyncValue, h]

/-- With a bit clock below the configuration's target, `hsync` fits 24 bits. -/
theorem hsyncValue_lt {c : DevConfig} {bitclk : Nat} (hc : configOk c = true) (hbit : bitclk < targetFreq c) :
    hsyncValue c bitclk < 2 ^ 24 := by
  obtain h0 | hpos := Nat.eq_zero_or_pos (c.hsw.toNat + c.hbp.toNat)
  · rw [hsyncValue_eq_zero h0]; norm_num
  · have hdpi : c.dpiLanes.toNat ≤ 255 := Nat.le_of_lt_succ c.dpiLanes.isLt
    have hmax : (c.hsw.toNat + c.hbp.toNat) * c.dpiLanes.toNat ≤ 131070 * 255 :=
      Nat.mul_le_mul (hsw_add_hbp_le c) hdpi
    have := four_mul_hsyncValue_lt hc hbit hpos
    omega

/-- Settles O20: the datapath's bounds from the fields' widths, and those of `hsync` from the bit clock being below
the target (`half_lt_target_of_bracket`). -/
theorem intermediateRanges : Obligations.IntermediateRanges := by
  refine ⟨fun c => ⟨pclk_mul_dpiLanes_lt c, (targetFreq_le c).trans_lt (pclk_mul_dpiLanes_lt c),
    fun _ => refclk_mul_lt c, fun _ _ => prd_shiftLeft_frs_le,
    fun _ hbit => ⟨by omega, by omega, hsync_dividend_lt c hbit⟩⟩, ?_⟩
  intro c frs pll hc hb _ hpll
  have hbit := half_lt_target_of_bracket hb hpll
  have hlt := hsyncValue_lt hc hbit
  have hmax := frsLimit_le frs
  refine ⟨by omega, fun h0 => hsyncValue_eq_zero h0 _, four_mul_hsyncValue_lt hc hbit, hlt, ?_⟩
  exact (BitVec.toNat_ofNat _ 32).trans (Nat.mod_eq_of_lt (hlt.trans (by norm_num)))

end Sys2Proof.Machine
end

section
/-! PROOFS. Register accesses turn by turn: each transaction waits for its answer (20_memory.md R80, R83), and an ERR
answer aborts at once (41_register_access.md R135, 60_exceptions.md R224). -/

namespace Sys2Proof.Machine

/-! ## The running instruction's access -/

/-- The fetch writes nothing where STATUS.STEP already mirrors S.step (R57, R186). -/
theorem turnStart_eq_self {s : State} (h : romRunning s → s.statStep = s.romStep) : turnStart s = s := by
  by_cases hr : romRunning s
  · rw [turnStart_running hr]
    exact congrArg (fun n => { s with statStep := n }) (h hr).symm
  · exact turnStart_direct hr

/-- What the Engine's turn starts from when it is the next input, STATUS.STEP mirroring S.step. -/
theorem turnStart_dropInput {s : State} {j : Input} {rest : List Input} (h : romRunning s → s.statStep = s.romStep)
    (hin : s.inputs = j :: rest) : turnStart (dropInput s) = { s with inputs := rest } := by
  have hdrop : dropInput s = { s with inputs := rest } := by rw [dropInput, hin, List.tail_cons]
  rw [turnStart_eq_self (s := dropInput s) h, hdrop]

/-- While an operation runs, its instruction's turn is a turn of the access that the instruction makes. -/
theorem exec_current_access {s : State} {i : Instr} {access : Access} (hi : currentInstr s = some i)
    (hb : s.busy = true) (ha : accessOf s i = some access) :
    exec i s = runAccess access s fun m => .next (afterAccess i m) :=
  exec_access ha fun hh => ⟨hb, ((currentInstr_kind hi).1 hh).1⟩

/-- An OK answer to the transaction at S.sub moves the access one transaction on and keeps a READ's data (R82). -/
theorem stepAccess_eq {access : Access} {s : State} {x : Tx} (d : Half) (hx : txAt access s = some x) :
    stepAccess access d s =
      { s with response := none, sub := s.sub + 1, readData := s.readData ++ readsGiven [(x, d)] } := by
  rw [stepAccess, hx, keepRead_some]

/-- BUS_ERROR on taking an ERR answer, field by field (R135, R224). -/
theorem abort_takeResponse_eq {s : State} (hbus : s.bus = .idle) :
    abort .busError (takeResponse s) =
      { s with response := none, err := .busError, busy := false, op := .none } := by
  rw [abort, takeResponse, ← hbus]

/-! ## Steps -/

/-- The answer to the outstanding transaction arrives on its own (R80). -/
theorem step_answer_pending {s : State} {a : Answer} {x : Tx} {rest : List Input} (hin : s.inputs = .answer a :: rest)
    (hbus : s.bus = .pending x) :
    step s = .next { s with
      inputs := rest, bus := .idle, response := some a, log := s.log ++ [.answer a s.now] } := by
  simp [step, hin, applyInput, deliverAnswer, dropInput, hbus, receive]

/-- With no transaction outstanding no answer is noticed (R251). -/
theorem step_answer_idle {s : State} {a : Answer} {rest : List Input} (hin : s.inputs = .answer a :: rest)
    (hbus : s.bus = .idle) : step s = .next { s with inputs := rest } := by
  simp [step, hin, applyInput, deliverAnswer, dropInput, hbus]

/-- With no input left it is the Engine's turn (log 2). -/
theorem step_no_inputs {s : State} (hin : s.inputs = []) : step s = step { s with inputs := [.engine] } := by
  have hdrop : dropInput { s with inputs := [.engine] } = s := by rw [dropInput, List.tail_cons, ← hin]
  simp only [step, hin, applyInput, hdrop]

/-- The Engine's turn waits while a transaction is outstanding (R83). -/
theorem step_engine_pending {s : State} {i : Instr} {access : Access} {x : Tx} {rest : List Input}
    (hi : currentInstr s = some i) (hb : s.busy = true) (ha : accessOf s i = some access)
    (hm : romRunning s → s.statStep = s.romStep) (hbus : s.bus = .pending x) (hin : s.inputs = .engine :: rest) :
    step s = .next { s with inputs := rest } := by
  rw [step_access hb hi ha hin, turnStart_dropInput hm hin]
  exact runAccess_wait hbus

/-- The Engine's turn that takes an ERR answer ends the operation with BUS_ERROR (R135, R224). -/
theorem step_engine_err {s : State} {i : Instr} {access : Access} {rest : List Input} (hi : currentInstr s = some i)
    (hb : s.busy = true) (ha : accessOf s i = some access) (hm : romRunning s → s.statStep = s.romStep)
    (hbus : s.bus = .idle) (hr : s.response = some .err) (hin : s.inputs = .engine :: rest) :
    step s = .next { s with
      inputs := rest, response := none, err := .busError, busy := false, op := .none } := by
  rw [step_access hb hi ha hin, turnStart_dropInput hm hin, runAccess_err (s := { s with inputs := rest }) hbus hr,
    abort_takeResponse_eq (s := { s with inputs := rest }) hbus]

/-- An ERR answer to the outstanding transaction, and the turn after it. -/
theorem run_err_answer {s : State} {i : Instr} {access : Access} {x : Tx} {rest : List Input}
    (hi : currentInstr s = some i) (hb : s.busy = true) (ha : accessOf s i = some access)
    (hm : romRunning s → s.statStep = s.romStep) (hbus : s.bus = .pending x)
    (hin : s.inputs = .answer .err :: .engine :: rest) :
    Host.Core.run core 2 s = .next { s with
      inputs := rest, bus := .idle, response := none, err := .busError, busy := false, op := .none,
      log := s.log ++ [.answer .err s.now] } := by
  rw [run_next (step_answer_pending hin hbus), run_one]
  exact step_engine_err (i := i) (access := access) hi hb ha hm rfl rfl rfl

/-- An access from its beginning whose first transactions are answered OK: the turn after the last of these answers
issues the next transaction. -/
theorem run_oks_then_issue {s : State} {i : Instr} {access : Access} {txs : List Tx} {oks : List Half} {t : Tx}
    {rest : List Input} (hi : currentInstr s = some i) (hb : s.busy = true) (ha : accessOf s i = some access)
    (hm : romRunning s → s.statStep = s.romStep) (hbus : s.bus = .idle) (hr : s.response = none)
    (hlen : txs.length = oks.length)
    (htxs : ∀ k, k ≤ oks.length → (access (readsGiven ((txs.zip oks).take k)))[k]? = (txs ++ [t])[k]?)
    (hin : s.inputs = okTurns oks ++ .engine :: rest) :
    Host.Core.run core (2 * oks.length + 1) s = .next { s with
      inputs := rest, bus := .pending t, sub := oks.length, readData := readsGiven (txs.zip oks),
      log := s.log ++ okEvents s.now (txs.zip oks) ++ [.issue t s.now] } := by
  have hzip : (txs.zip oks).length = oks.length := by simp [hlen]
  have hsnd : (txs.zip oks).map Prod.snd = oks := List.map_snd_zip hlen.ge
  have hfst : (txs.zip oks).map Prod.fst = txs := List.map_fst_zip hlen.le
  have hoks : ∀ k, k < (txs.zip oks).length →
      (access (readsGiven ((txs.zip oks).take k)))[k]? = (txs.zip oks)[k]?.map Prod.fst := by
    intro k hk
    rw [htxs k (by omega), List.getElem?_append_left (by omega), ← List.getElem?_map, hfst]
  have hlast : (access (readsGiven (txs.zip oks)))[oks.length]? = some t := by
    have h := htxs oks.length le_rfl
    rwa [List.take_of_length_le hzip.le, ← hlen, List.getElem?_concat_length, hlen] at h
  have hrun := access_run hb hi ha hbus hr rest (txs.zip oks) (by rw [hsnd]; exact hin) hoks
  rw [hzip, turnStart_eq_self hm, issueNext, txAt_eq rfl rfl, hlast] at hrun
  exact hrun

/-! ## The obligations -/

/-- Settles O32: the turn that takes an ERR answer (`runAccess_err`), the answer with the turn after it
(`run_err_answer`), and the latter after the OK-answered beginning (`run_oks_then_issue`). -/
theorem busErrorAbortsAtOnce : Obligations.BusErrorAbortsAtOnce := by
  intro s i access hi hb ha
  refine ⟨fun hbus hr => ?_, fun t rest hinv hbus hin => run_err_answer hi hb ha hinv.step_mirror hbus hin, ?_⟩
  · rw [exec_current_access hi hb ha, runAccess_err hbus hr, abort_takeResponse_eq hbus]
  · intro txs oks t rest hinv hbus hr hlen htxs hin
    have hissued := run_oks_then_issue hi hb ha hinv.step_mirror hbus hr hlen htxs hin
    refine (run_add (m := 2) hissued).trans (Eq.trans (run_err_answer hi hb ha hinv.step_mirror rfl rfl) ?_)
    simp [hbus, hr]

/-- Settles O33: the turns of `runAccess` for the running instruction, the arrival of an answer, and the Engine's
wait, which no step of its own ends. -/
theorem accessWaitsForEachAnswer : Obligations.AccessWaitsForEachAnswer := by
  refine ⟨fun s i access hi hb ha => ?_, fun s a rest hin =>
    ⟨fun x hbus => step_answer_pending hin hbus, fun hbus => step_answer_idle hin hbus⟩, ?_⟩
  · rw [exec_current_access hi hb ha]
    refine ⟨fun x hbus hr hx => runAccess_begin hbus hr hx, ?_, fun x hbus => runAccess_wait hbus⟩
    intro x y d hbus hr hx data hy
    have hstep := stepAccess_eq (access := access) d hx
    rw [runAccess_ok hbus hr (x := y) (by rw [hstep]; exact hy), hstep]
    rfl
  · intro s t hinv hacc hbus
    obtain ⟨-, i, access, hi, ha, -⟩ := hacc.pending t hbus
    have hb : s.busy = true := hinv.busy_iff.2 fun ho => by simp [currentInstr, ho] at hi
    refine ⟨hb, fun hin => ?_, fun rest hin => step_engine_pending hi hb ha hinv.step_mirror hbus hin⟩
    rw [step_no_inputs hin,
      step_engine_pending (s := { s with inputs := [.engine] }) hi hb ha hinv.step_mirror hbus rfl, ← hin]

end Sys2Proof.Machine
end

section
/-! PROOFS. What a step changes outside the running operation, and what it changes of the phase, the reset line and the
results: the layer under the statements on the invariants and on what changes only by what. -/

namespace Sys2Proof.Machine

/-! ## The moves of a step, with what every agent but the Engine may write set aside -/

/-- Two states that differ at most in what the host writes, in the input taken and in the time. -/
def EnvFrame (s t : State) : Prop :=
  t = { s with cfg := t.cfg, argData := t.argData, argMask := t.argMask, reject := t.reject, reply := t.reply,
               now := t.now, inputs := t.inputs }

theorem EnvFrame.refl (s : State) : EnvFrame s s := rfl

theorem EnvFrame.trans {s u t : State} (h : EnvFrame s u) (h' : EnvFrame u t) : EnvFrame s t := by
  unfold EnvFrame at *
  rw [h']; conv => lhs; rw [h]

/-- What a step makes of a state `s`: the move starts from a state `u` in which the input is taken and the host has its
response. -/
inductive Effect (s : State) : State → Prop where
  | environment (t : State) : EnvFrame s t → Effect s t
  | runs (u t : State) (i : Instr) : EnvFrame s u → u.busy = true → currentInstr u = some i → Progress i u t →
      Effect s t
  | accepts (u t : State) (i : Instr) : EnvFrame s u → u.busy = false → Accepted i u t → Effect s t
  | illegal (u : State) (c : BitVec 4) : EnvFrame s u → u.busy = false →
      Effect s (refuseCommand .illegalCommand (beginCommand c u))
  | answers (u : State) (x : Tx) (a : Answer) : EnvFrame s u → u.bus = .pending x → Effect s (receive a u)
  | resets (u : State) (rest : List Input) : EnvFrame s u → s.inputs = .blockReset :: rest → Effect s (blockReset u)

theorem Move.effect {j : Input} {s u t : State} (hu : EnvFrame s u)
    (hreset : j = .blockReset → ∃ rest, s.inputs = .blockReset :: rest) (h : Move j u t) : Effect s t := by
  cases h with
  | still _ => exact .environment _ hu
  | run _ _ i hb hi hp => exact .runs u t i hu hb hi hp
  | replied | wroteCfg | wroteArgData | wroteArgMask | wroteStatus | rejected => exact .environment _ (hu.trans rfl)
  | illegal _ w _ hb _ => exact .illegal (respond .done u) _ (hu.trans rfl) hb
  | accepted _ _ w i hb _ ha => exact .accepts (respond .done u) t i (hu.trans rfl) hb ha
  | answered _ a =>
    obtain ⟨x, hx, he⟩ | ⟨_, he⟩ := deliverAnswer_cases a u
    · rw [he]; exact .answers u x a hu hx
    · rw [he]; exact .environment u hu
  | elapsed => exact .environment _ (hu.trans rfl)
  | reset =>
    obtain ⟨rest, hin⟩ := hreset rfl
    exact .resets u rest hu hin

/-- Every step has one of these effects. -/
theorem step_effect {s t : State} (h : step s = .next t) : Effect s t := by
  obtain ⟨_, hm⟩ | ⟨j, rest, hin, hm⟩ := step_move h
  · exact Move.effect (j := .engine) (.refl s) (fun hj => nomatch hj) hm
  · exact Move.effect (u := dropInput s) rfl (fun hj => ⟨rest, hj ▸ hin⟩) hm

theorem currentInstr_env {s t : State} (h : EnvFrame s t) : currentInstr t = currentInstr s := by rw [h]; rfl

/-- An access that completes goes on with the next micro-op, or ends the command, which has at most written RD_DATA. -/
theorem afterAccess_cases {s : State} {i : Instr} {access : Access} (ha : accessOf s i = some access) (m : State) :
    (i.isHost = false ∧ afterAccess i m = advance m) ∨
    (i.isHost = true ∧ ∃ v, afterAccess i m = finish (writeRdData v m) ∧
      ((∀ a, i ≠ .hRegrd a) → v = m.rdData)) := by
  cases i with
  | enable | disable | hSolve => cases ha
  | hRegrd a => exact .inr ⟨rfl, _, rfl, fun h => (h a rfl).elim⟩
  | hRegwr | hRegupd | hShort => exact .inr ⟨rfl, m.rdData, rfl, fun _ => rfl⟩
  | uEnd | uPhase | uWr | uUpd | uWait | uSolve | uDerive | uShort | uRstline => exact .inl ⟨rfl, rfl⟩

/-! ## The phase, the reset line and the results -/

/-- The part of the state that the host reads as the outcome of operations (R43, R47 to R54), and the record of R62. -/
structure Results where
  build : Build
  phase : Phase
  rstline : Bool
  fbd : BitVec 9
  prd : BitVec 4
  frs : BitVec 2
  valid : Bool
  pllFreq : Word
  pllBitclk : Word
  pllRefclk : Word
  target : Word
  timHsync : Word
  timVsync : Word
  rdData : Word

/-- The results that a state holds. -/
def resultsOf (s : State) : Results where
  build := s.build
  phase := s.phase
  rstline := s.rstline
  fbd := s.fbd
  prd := s.prd
  frs := s.frs
  valid := s.valid
  pllFreq := s.pllFreq
  pllBitclk := s.pllBitclk
  pllRefclk := s.pllRefclk
  target := s.target
  timHsync := s.timHsync
  timVsync := s.timVsync
  rdData := s.rdData

theorem resultsOf_env {s t : State} (h : EnvFrame s t) : resultsOf t = resultsOf s := by rw [h]; rfl

theorem resultsOf_access {s t : State} (h : AccessFrame s t) : resultsOf t = resultsOf s := by rw [h]; rfl

theorem resultsOf_turnStart (s : State) : resultsOf (turnStart s) = resultsOf s := by
  unfold turnStart; split <;> rfl

theorem resultsOf_accepted {i : Instr} {s t : State} (h : Accepted i s t) : resultsOf t = resultsOf s := by
  cases h <;> rfl

/-- The only ways in which a turn of the running instruction `i` changes a result. -/
inductive ResultChange (s t : State) : Instr → Prop where
  | phase (p : Phase) : resultsOf t = resultsOf (enterPhase p s) → ResultChange s t (.uPhase p)
  | line (l : Bool) : resultsOf t = resultsOf (driveResetLine l s) → ResultChange s t (.uRstline l)
  | read (a : Addr) (v : Word) : resultsOf t = resultsOf (writeRdData v s) → t.busy = false → t.err = s.err →
      ResultChange s t (.hRegrd a)
  | unsolved (i : Instr) : i = .uSolve ∨ i = .hSolve → resultsOf t = resultsOf (beginSolve (targetFreq s.acfg) s) →
      ResultChange s t i
  | solved (i : Instr) (frs : Nat) (r : Search) : i = .uSolve ∨ i = .hSolve → bracket (targetFreq s.acfg) = some frs →
      r = searchPll s.acfg.refclk.toNat frs (targetFreq s.acfg) → r.found = true →
      resultsOf t = resultsOf (commitSolution frs (recordSearch r (beginSolve (targetFreq s.acfg) s))) →
      ResultChange s t i
  | derived (i : Instr) : i = .uDerive ∨ i = .hSolve → resultsOf t = resultsOf (writeTiming s) → ResultChange s t i

theorem SolveNext.results {done : State → State} {i : Instr} {s t : State} (hi : i = .uSolve ∨ i = .hSolve)
    (h : SolveNext done s t) (hdone : ∀ m, resultsOf (done m) = resultsOf m) : ResultChange s t i := by
  obtain ⟨_, ⟨_, rfl⟩ | ⟨frs, hb, r, hr, ⟨hf, rfl⟩ | ⟨_, rfl⟩⟩⟩ := h
  · exact .unsolved i hi rfl
  · exact .solved i frs r hi hb hr hf (hdone _)
  · exact .unsolved i hi rfl

theorem AccessNext.results {i : Instr} {access : Access} {s t : State} (ha : accessOf s i = some access)
    (h : AccessNext access (afterAccess i) s t) : resultsOf t = resultsOf s ∨ ResultChange s t i := by
  obtain ⟨m, hm, rfl | rfl | rfl⟩ := h.frame
  · exact .inl (resultsOf_access hm)
  · obtain ⟨_, he⟩ | ⟨_, v, he, hv⟩ := afterAccess_cases ha m
    · rw [he]; exact .inl (resultsOf_access hm :)
    · rw [he]
      by_cases hread : ∃ a, i = .hRegrd a
      · obtain ⟨a, rfl⟩ := hread
        exact .inr (.read a v (by rw [hm]; rfl) rfl hm.err)
      · rw [hv fun a hi => hread ⟨a, hi⟩]
        exact .inl (resultsOf_access hm :)
  · exact .inl (resultsOf_access hm :)

/-- What a turn of the Engine changes of the results. -/
theorem Progress.results {i : Instr} {s t : State} (h : Progress i s t) :
    resultsOf t = resultsOf (turnStart s) ∨ ResultChange (turnStart s) t i := by
  cases h with
  | access _ access _ _ _ ha hn => exact hn.results ((accessOf_turnStart s i).trans ha)
  | ended | waitStart | waitEnd | waitHold => exact .inl rfl
  | phase p => exact .inr (.phase p rfl)
  | rstline l => exact .inr (.line l rfl)
  | uSolve _ _ _ hs => exact .inr (SolveNext.results (.inl rfl) hs fun _ => rfl)
  | hSolve _ _ ho _ hs =>
    rw [turnStart_direct (by simp [romRunning, ho])]
    exact .inr (SolveNext.results (.inr rfl) hs fun _ => rfl)
  | uDerive => exact .inr (.derived _ (.inl rfl) rfl)
  | hDerive _ ho =>
    rw [turnStart_direct (by simp [romRunning, ho])]
    exact .inr (.derived _ (.inr rfl) rfl)

/-- What a step changes of the results: block reset clears them, and the running instruction changes them as
`ResultChange` says, from a state `u` that has those of `s`. -/
theorem step_results {s t : State} (h : step s = .next t) :
    resultsOf t = resultsOf s ∨
    (∃ rest, s.inputs = .blockReset :: rest ∧ resultsOf t = resultsOf (State.resetOf s.build)) ∨
    ∃ i u, currentInstr s = some i ∧ resultsOf u = resultsOf s ∧ u.acfg = s.acfg ∧ u.err = s.err ∧
      ResultChange u t i := by
  cases step_effect h with
  | environment _ hu => exact .inl (resultsOf_env hu)
  | runs u _ i hu _ hi hp =>
    have hres := (resultsOf_turnStart u).trans (resultsOf_env hu)
    refine hp.results.imp (·.trans hres) fun hc => .inr ⟨i, _, currentInstr_env hu ▸ hi, hres, ?_, ?_, hc⟩
    · rw [turnStart_acfg, hu]
    · rw [turnStart_err, hu]
  | accepts _ _ _ hu _ ha => exact .inl ((resultsOf_accepted ha).trans (resultsOf_env hu))
  | illegal _ _ hu => exact .inl (resultsOf_env hu :)
  | answers _ _ _ hu => exact .inl (resultsOf_env hu :)
  | resets _ rest hu hin => exact .inr (.inl ⟨rest, hin, by rw [hu]; rfl⟩)

end Sys2Proof.Machine
end

section
/-! PROOFS. Every step keeps the control state consistent (10_state.md R41, R57, R61, R180, R184). -/

namespace Sys2Proof.Machine

/-- An idle state is consistent as soon as its reset line is. -/
theorem ControlInv.of_idle {s : State} (hb : s.busy = false) (ho : s.op = .none)
    (hline : s.rstline = true → s.build.hasResetLine = true) : ControlInv s where
  busy_iff := by simp [hb, ho]
  enable_rom := by simp [ho]
  disable_rom := by simp [ho]
  step_mirror := by simp [romRunning, ho]
  config_ok := by simp [ho]
  line_exists := hline
  solved := by simp [ho]

theorem ControlInv.env {s t : State} (h : EnvFrame s t) (hs : ControlInv s) : ControlInv t := by
  rw [h]
  exact ⟨hs.busy_iff, hs.enable_rom, hs.disable_rom, hs.step_mirror, hs.config_ok, hs.line_exists, hs.solved⟩

theorem ControlInv.access {s t : State} (h : AccessFrame s t) (hs : ControlInv s) : ControlInv t := by
  rw [h]
  exact ⟨hs.busy_iff, hs.enable_rom, hs.disable_rom, hs.step_mirror, hs.config_ok, hs.line_exists, hs.solved⟩

/-- The operation's end, with or without an error, leaves the Engine idle (R187, R224). -/
theorem ControlInv.ended {s t : State} (hs : ControlInv s) (hb : t.busy = false) (ho : t.op = .none)
    (hl : t.rstline = s.rstline) (hbuild : t.build = s.build) : ControlInv t :=
  .of_idle hb ho (by rw [hl, hbuild]; exact hs.line_exists)

/-- A micro-op's turn that leaves the operation, its ROM and its configuration keeps the control state consistent:
whatever it does to VALID, no H.SOLVE is running. -/
theorem ControlInv.microOp {s t : State} (hs : ControlInv s) (hr : romRunning s) (hop : t.op = s.op)
    (hbusy : t.busy = s.busy) (hrom : t.rom = s.rom) (hacfg : t.acfg = s.acfg) (hstep : t.statStep = t.romStep)
    (hline : t.rstline = true → t.build.hasResetLine = true) : ControlInv t where
  busy_iff := by rw [hbusy, hop]; exact hs.busy_iff
  enable_rom := by rw [hop, hrom]; exact hs.enable_rom
  disable_rom := by rw [hop, hrom]; exact hs.disable_rom
  step_mirror := fun _ => hstep
  config_ok := by rw [hop, hacfg]; exact hs.config_ok
  line_exists := hline
  solved := by
    rw [hop]
    intro ho
    obtain hr | hr := hr <;> simp [hr] at ho

theorem AccessNext.keeps_control {i : Instr} {access : Access} {s t : State} (hs : ControlInv s)
    (hrun : i.isHost = false → romRunning s) (ha : accessOf s i = some access)
    (h : AccessNext access (afterAccess i) s t) : ControlInv t := by
  obtain ⟨m, hm, rfl | rfl | rfl⟩ := h.frame
  · exact hs.access hm
  · have hmi := hs.access hm
    obtain ⟨hi, he⟩ | ⟨_, v, he, _⟩ := afterAccess_cases ha m
    · rw [he]
      have hr : romRunning m := by rw [hm]; exact hrun hi
      exact hmi.microOp hr rfl rfl rfl rfl rfl hmi.line_exists
    · rw [he]
      exact hmi.ended rfl rfl rfl rfl
  · exact (hs.access hm).ended rfl rfl rfl rfl

theorem driveResetLine_line_exists {s : State} (l : Bool) (h : s.rstline = true → s.build.hasResetLine = true) :
    (driveResetLine l s).rstline = true → (driveResetLine l s).build.hasResetLine = true := by
  obtain ⟨hl, _, he⟩ | ⟨_, he⟩ := driveResetLine_cases l s
  · rw [driveResetLine_build]; exact fun _ => hl
  · rw [he]; exact h

/-- A solve that fails ends the operation; what follows one that succeeds is left to `done`. -/
theorem SolveNext.keeps_control {done : State → State} {s t : State} (hs : ControlInv s) (h : SolveNext done s t)
    (hdone : ∀ frs r, ControlInv (done (commitSolution frs (recordSearch r (beginSolve (targetFreq s.acfg) s))))) :
    ControlInv t := by
  obtain ⟨_, ⟨_, rfl⟩ | ⟨frs, _, r, _, ⟨_, rfl⟩ | ⟨_, rfl⟩⟩⟩ := h
  · exact hs.ended rfl rfl rfl rfl
  · exact hdone frs r
  · exact hs.ended rfl rfl rfl rfl

/-- H.SOLVE goes on to its derivation with VALID = 1 (R162). -/
theorem ControlInv.markSolved {s : State} (hs : ControlInv s) (frs : Nat) (r : Search) :
    ControlInv (markSolved (commitSolution frs (recordSearch r (beginSolve (targetFreq s.acfg) s)))) where
  busy_iff := by simpa using hs.busy_iff
  enable_rom := by simpa using hs.enable_rom
  disable_rom := by simpa using hs.disable_rom
  step_mirror := by simpa [romRunning] using hs.step_mirror
  config_ok := by simpa using hs.config_ok
  line_exists := by simpa using hs.line_exists
  solved := by simp

theorem Progress.keeps_control {i : Instr} {s t : State} (hs : ControlInv s) (hi : currentInstr s = some i)
    (h : Progress i s t) : ControlInv t := by
  have hstart : turnStart s = s := turnStart_eq_self hs.step_mirror
  cases h with
  | access _ access _ _ _ ha hn =>
    exact AccessNext.keeps_control hs (currentInstr_kind hi).2 ha (hstart ▸ hn)
  | ended _ _ => rw [hstart]; exact hs.ended rfl rfl rfl rfl
  | phase p _ hr => rw [hstart]; exact hs.microOp hr rfl rfl rfl rfl rfl hs.line_exists
  | waitStart d _ hr => rw [hstart]; exact hs.microOp hr rfl rfl rfl rfl (hs.step_mirror hr) hs.line_exists
  | waitEnd d _ hr => rw [hstart]; exact hs.microOp hr rfl rfl rfl rfl rfl hs.line_exists
  | waitHold => rw [hstart]; exact hs
  | rstline l _ hr =>
    rw [hstart]
    exact hs.microOp hr (by simp) (by simp) (by simp) (by simp) (by simp) (driveResetLine_line_exists l hs.line_exists)
  | uSolve _ _ hr hn =>
    rw [hstart] at hn
    exact hn.keeps_control hs fun _ _ => hs.microOp hr rfl rfl rfl rfl (by simp) (by simpa using hs.line_exists)
  | hSolve _ _ _ _ hn =>
    exact hn.keeps_control hs fun frs r => hs.markSolved frs r
  | uDerive _ hr => rw [hstart]; exact hs.microOp hr rfl rfl rfl rfl rfl hs.line_exists
  | hDerive => exact hs.ended rfl rfl rfl rfl

theorem Accepted.keeps_control {i : Instr} {s t : State} (hs : ControlInv s) (hb : s.busy = false)
    (h : Accepted i s t) : ControlInv t := by
  have ho : s.op = .none := by simpa [hb] using hs.busy_iff
  have hline := hs.line_exists
  cases h with
  | badConfig => exact hs.ended hb ho rfl rfl
  | enable _ hc | hSolve _ hc =>
    exact ⟨by simp, by simp, by simp, by simp [romRunning], by simp [hc], hline, by simp⟩
  | disable | hShort => exact ⟨by simp, by simp, by simp, by simp [romRunning], by simp, hline, by simp⟩
  | hAccess _ c a _ hi =>
    obtain rfl | rfl | rfl := hi <;>
    exact ⟨by simp [startedOp], by simp [startedOp], by simp [startedOp], by simp [romRunning, startedOp],
      by simp [startedOp], hline, by simp [startedOp]⟩

/-- Settles O51: the environment writes nothing of the control state, an acceptance starts an operation from an idle
Engine, and a turn of the running one goes on to the next micro-op or ends it. -/
theorem stepKeepsControlInv : Obligations.StepKeepsControlInv := by
  intro s t hs h
  cases step_effect h with
  | environment _ hu => exact hs.env hu
  | runs u _ i hu _ hi hp => exact hp.keeps_control (hs.env hu) hi
  | accepts u _ i hu hb ha => exact ha.keeps_control (hs.env hu) hb
  | illegal u c hu hb =>
    have hs := hs.env hu
    exact hs.ended hb (by simpa [hb] using hs.busy_iff) rfl rfl
  | answers u _ a hu => exact (hs.env hu).access (receive_frame a u)
  | resets => exact .of_idle rfl rfl id

end Sys2Proof.Machine
end

section
/-! PROOFS. Every step keeps the outstanding transaction, and the one whose response waits, that of the running access
(10_state.md R59, R60; 20_memory.md R83). -/

namespace Sys2Proof.Machine

/-- With nothing outstanding, no response waiting and no wait running there is nothing to say. -/
theorem AccessInv.of_quiet {s : State} (hb : s.bus = .idle) (hr : s.response = none) (hw : s.waiting = false) :
    AccessInv s where
  pending := by simp [hb]
  answered := by simp [hr]
  waiting := by simp [hw]

theorem AccessInv.env {s t : State} (h : EnvFrame s t) (hs : AccessInv s) : AccessInv t := by
  rw [h]; exact ⟨hs.pending, hs.answered, hs.waiting⟩

/-- Where no access stands at a transaction, nothing is outstanding and no response waits. -/
theorem AccessInv.idle_of_no_tx {s : State} (hs : AccessInv s) (h : ∀ t, ¬ currentTx s t) :
    s.bus = .idle ∧ s.response = none := by
  constructor
  · cases hb : s.bus with
    | idle => rfl
    | pending t => exact (h t (hs.pending t hb).2).elim
  · cases hr : s.response with
    | none => rfl
    | some a => obtain ⟨t, ht⟩ := hs.answered a hr; exact (h t ht).elim

/-- Only a U.WAIT waits. -/
theorem AccessInv.not_waiting {s : State} (hs : AccessInv s) (h : ∀ d, currentInstr s ≠ some (.uWait d)) :
    s.waiting = false := by
  cases hw : s.waiting with
  | false => rfl
  | true => obtain ⟨d, hd⟩ := hs.waiting hw; exact (h d hd).elim

/-- An instruction without an access runs with nothing outstanding and no response waiting. -/
theorem AccessInv.idle_of_no_access {s : State} {i : Instr} (hs : AccessInv s) (hi : currentInstr s = some i)
    (ha : accessOf s i = none) : s.bus = .idle ∧ s.response = none := by
  refine hs.idle_of_no_tx ?_
  rintro t ⟨j, access, hj, haj, _⟩
  rw [hi] at hj; cases hj
  rw [ha] at haj; cases haj

/-- Between operations nothing is outstanding, no response waits and no wait runs. -/
theorem AccessInv.quiet_of_idle {s : State} (hs : AccessInv s) (ho : s.op = .none) :
    s.bus = .idle ∧ s.response = none ∧ s.waiting = false := by
  have hi : currentInstr s = none := by simp [currentInstr, ho]
  obtain ⟨hb, hr⟩ := hs.idle_of_no_tx <| by
    rintro t ⟨j, access, hj, _⟩
    rw [hi] at hj; cases hj
  exact ⟨hb, hr, hs.not_waiting fun d hd => by rw [hi] at hd; cases hd⟩

/-- A turn of an access: the transaction it issues is the one that the access stands at, and after the last one, or
after an ERR answer, nothing is left. -/
theorem AccessNext.keeps_access {i : Instr} {access : Access} {s t : State} (hs : AccessInv s)
    (hi : currentInstr s = some i) (ha : accessOf s i = some access) (h : AccessNext access (afterAccess i) s t) :
    AccessInv t := by
  have hw : s.waiting = false := hs.not_waiting fun d hd => by
    rw [hi] at hd; cases hd; cases ha
  cases h with
  | waits => exact hs
  | issues m x hm hx =>
    have hf := hm.frame.trans (issueTx_frame x m)
    have hcur : currentTx (issueTx x m) x :=
      ⟨i, access, (currentInstr_frame hf).trans hi, (accessOf_frame hf i).trans ha, hx⟩
    refine ⟨fun t ht => ?_, fun a h => ?_, fun h => ?_⟩
    · cases ht; exact ⟨hm.response, hcur⟩
    · exact ⟨x, hcur⟩
    · rw [hf.waiting, hw] at h; cases h
  | completes m hm _ =>
    have hmw : m.waiting = false := hm.frame.waiting.trans hw
    obtain ⟨_, he⟩ | ⟨_, v, he, _⟩ := afterAccess_cases ha m
    · rw [he]; exact .of_quiet hm.bus hm.response hmw
    · rw [he]; exact .of_quiet hm.bus hm.response hmw
  | fails hb _ => exact .of_quiet rfl rfl hw

/-- A solve leaves the bus port and the waits alone. -/
theorem SolveNext.keeps_quiet {done : State → State} {s t : State} (h : SolveNext done s t) (hb : s.bus = .idle)
    (hr : s.response = none) (hw : s.waiting = false)
    (hdone : ∀ m, (done m).bus = m.bus ∧ (done m).response = m.response ∧ (done m).waiting = m.waiting) :
    AccessInv t := by
  obtain ⟨_, ⟨_, rfl⟩ | ⟨frs, _, r, _, ⟨_, rfl⟩ | ⟨_, rfl⟩⟩⟩ := h
  · exact .of_quiet rfl hr hw
  · obtain ⟨hb', hr', hw'⟩ := hdone (commitSolution frs (recordSearch r (beginSolve (targetFreq s.acfg) s)))
    exact .of_quiet (hb'.trans hb) (hr'.trans hr) (hw'.trans hw)
  · exact .of_quiet rfl hr hw

theorem Progress.keeps_access {i : Instr} {s t : State} (hm : romRunning s → s.statStep = s.romStep)
    (hs : AccessInv s) (hi : currentInstr s = some i) (h : Progress i s t) : AccessInv t := by
  have hstart : turnStart s = s := turnStart_eq_self hm
  have idle : accessOf s i = none → s.bus = .idle ∧ s.response = none := hs.idle_of_no_access hi
  have still : (∀ d, i ≠ .uWait d) → s.waiting = false := fun hne =>
    hs.not_waiting fun d hd => hne d (Option.some.inj (hi.symm.trans hd))
  cases h with
  | access _ access _ _ _ ha hn => exact AccessNext.keeps_access hs hi ha (hstart ▸ hn)
  | ended | phase | rstline | uDerive | hDerive =>
    obtain ⟨hb, hr⟩ := idle rfl
    have hw := still nofun
    exact .of_quiet (by simpa using hb) (by simpa using hr) (by simpa using hw)
  | uSolve _ _ _ hn =>
    obtain ⟨hb, hr⟩ := idle rfl
    rw [hstart] at hn
    exact hn.keeps_quiet hb hr (still nofun) fun _ => ⟨rfl, rfl, rfl⟩
  | hSolve _ _ _ _ hn =>
    obtain ⟨hb, hr⟩ := idle rfl
    exact hn.keeps_quiet hb hr (still nofun) fun _ => ⟨rfl, rfl, rfl⟩
  | waitStart d =>
    obtain ⟨hb, hr⟩ := idle rfl
    rw [hstart]
    exact ⟨fun t ht => by simp [hb] at ht, fun a h => by simp [hr] at h, fun _ => ⟨d, hi⟩⟩
  | waitEnd d =>
    obtain ⟨hb, hr⟩ := idle rfl
    rw [hstart]
    exact .of_quiet hb hr rfl
  | waitHold => rw [hstart]; exact hs

/-- An acceptance touches neither the bus port nor the waits, which are quiet on an idle Engine. -/
theorem Accepted.keeps_quiet {i : Instr} {s t : State} (hb : s.bus = .idle) (hr : s.response = none)
    (hw : s.waiting = false) (h : Accepted i s t) : AccessInv t := by
  cases h <;> exact .of_quiet hb hr hw

/-- The answer to the outstanding transaction waits for the turn that takes it (R80). -/
theorem AccessInv.receive {s : State} {x : Tx} (hs : AccessInv s) (hb : s.bus = .pending x) (a : Answer) :
    AccessInv (receive a s) where
  pending := by simp
  answered := fun _ _ => ⟨x, (hs.pending x hb).2⟩
  waiting := hs.waiting

/-- Settles O52: a transaction is outstanding, and its answer waits, only while the access that issued it runs; every
other instruction starts with a quiet bus port and leaves it so. -/
theorem stepKeepsAccessInv : Obligations.StepKeepsAccessInv := by
  intro s t hc hs h
  cases step_effect h with
  | environment _ hu => exact hs.env hu
  | runs u _ i hu _ hi hp => exact hp.keeps_access (hc.env hu).step_mirror (hs.env hu) hi
  | accepts u _ i hu hb ha =>
    obtain ⟨hbus, hr, hw⟩ := (hs.env hu).quiet_of_idle (by simpa [hb] using (hc.env hu).busy_iff)
    exact ha.keeps_quiet hbus hr hw
  | illegal u c hu hb =>
    obtain ⟨hbus, hr, hw⟩ := (hs.env hu).quiet_of_idle (by simpa [hb] using (hc.env hu).busy_iff)
    exact .of_quiet hbus hr hw
  | answers u x a hu hx => exact (hs.env hu).receive hx a
  | resets => exact .of_quiet rfl rfl rfl

end Sys2Proof.Machine
end

section
/-! PROOFS. What the search finds (42_pll_solver.md R155, R156, R158), and that every step keeps the invariant of the
PLL Solution (10_state.md R62). -/

namespace Sys2Proof.Machine

/-! ## The search -/

/-- A candidate that the search keeps is one of its pairs, inside the bracket (R156). -/
def BestInBracket (refclk frs : Nat) (r : Search) : Prop :=
  r.found = true →
    r.bestPrd < 16 ∧ r.bestFbd < 512 ∧ r.bestPll = candidate refclk frs r.bestPrd r.bestFbd ∧
    frsLimit (frs + 1) ≤ r.bestPll ∧ r.bestPll < frsLimit frs

theorem evalPair_best {refclk frs target prd fbd : Nat} {r : Search} (hp : prd < 16) (hf : fbd < 512)
    (hr : BestInBracket refclk frs r) : BestInBracket refclk frs (evalPair refclk frs target prd fbd r) := by
  unfold evalPair
  dsimp only
  split
  · exact hr
  · rename_i hin
    split
    · exact hr
    · rw [not_or, not_lt, not_le] at hin
      exact fun _ => ⟨hp, hf, rfl, hin⟩

theorem scanFbd_best {refclk frs target prd : Nat} (hp : prd < 16) :
    ∀ (left : Nat) {r : Search}, BestInBracket refclk frs r →
      BestInBracket refclk frs (scanFbd refclk frs target prd left r)
  | 0, _, hr => hr
  | left + 1, r, hr => by
    have hf : fbdCount - (left + 1) < 512 := by simp only [fbdCount]; omega
    have he := evalPair_best (target := target) hp hf hr
    unfold scanFbd
    dsimp only
    split
    · exact he
    · exact scanFbd_best hp left he

theorem scanPrd_best {refclk frs target : Nat} :
    ∀ (left : Nat) {r : Search}, BestInBracket refclk frs r →
      BestInBracket refclk frs (scanPrd refclk frs target left r)
  | 0, _, hr => hr
  | left + 1, r, hr => by
    have hp : prdCount - (left + 1) < 16 := by simp only [prdCount]; omega
    have he := scanFbd_best (target := target) hp fbdCount hr
    unfold scanPrd
    dsimp only
    split
    · exact he
    · exact scanPrd_best left he

theorem searchPll_best (refclk frs target : Nat) : BestInBracket refclk frs (searchPll refclk frs target) :=
  scanPrd_best prdCount nofun

/-- The result registers hold the search's result untruncated (R158). -/
theorem commitSolution_toNat {s : State} {frs : Nat} (hfrs : frs < 4)
    (hbest : BestInBracket s.acfg.refclk.toNat frs s.search) (hfound : s.search.found = true) :
    (commitSolution frs s).fbd.toNat = s.search.bestFbd ∧ (commitSolution frs s).prd.toNat = s.search.bestPrd ∧
    (commitSolution frs s).frs.toNat = frs ∧ (commitSolution frs s).pllFreq.toNat = s.search.bestPll ∧
    (commitSolution frs s).pllBitclk.toNat = s.search.bestPll / 2 := by
  obtain ⟨hp, hf, _, _, hlt⟩ := hbest hfound
  have := frsLimit_le frs
  simp only [commitSolution_fbd, commitSolution_prd, commitSolution_frs, commitSolution_pllFreq,
    commitSolution_pllBitclk, BitVec.toNat_ofNat]
  omega

/-! ## The PLL Solution -/

/-- The invariant of R62 speaks of the results only. -/
theorem PllInv.of_results {s t : State} (h : resultsOf t = resultsOf s) (hs : PllInv s) : PllInv t := by
  simp only [resultsOf, Results.mk.injEq] at h
  obtain ⟨_, _, _, hfbd, hprd, hfrs, hvalid, hfreq, hbit, href, _⟩ := h
  unfold PllInv at *
  rwa [hvalid, hfbd, hprd, hfrs, hfreq, hbit, href]

theorem PllInv.of_invalid {s : State} (h : s.valid = false) : PllInv s := by simp [PllInv, h]

/-- A successful solve establishes the invariant of R62. -/
theorem PllInv.commitSolution {s : State} {frs : Nat} (hfrs : frs < 4)
    (hbest : BestInBracket s.acfg.refclk.toNat frs s.search) (hfound : s.search.found = true) :
    PllInv (commitSolution frs s) := by
  intro _
  obtain ⟨hf, hp, hr, hpll, hbit⟩ := commitSolution_toNat hfrs hbest hfound
  obtain ⟨hp16, hf512, hcand, hlow, hhigh⟩ := hbest hfound
  rw [hf, hp, hr, hpll, hbit, commitSolution_pllRefclk]
  exact ⟨by omega, by omega, by omega, hcand, hlow, hhigh, rfl⟩

theorem ResultChange.keeps_pll {i : Instr} {s t : State} (hs : PllInv s) (h : ResultChange s t i) : PllInv t := by
  cases h with
  | phase p ht =>
    refine PllInv.of_results ht ?_
    by_cases hp : p = .off
    · exact .of_invalid (by simp [hp])
    · simpa [PllInv, hp] using hs
  | line l ht => exact .of_results ht (by simpa [PllInv] using hs)
  | read a v ht => exact .of_results ht (by simpa [PllInv] using hs)
  | unsolved _ _ ht => exact .of_results ht (.of_invalid rfl)
  | solved _ frs r _ hb hr hf ht =>
    subst hr
    exact .of_results ht (.commitSolution (bracket_spec hb).1 (searchPll_best _ _ _) hf)
  | derived _ _ ht => exact .of_results ht (by simpa [PllInv] using hs)

/-- Settles O53: only a solve and U.PHASE Off touch the solution; a solve clears VALID before it commits its result. -/
theorem stepKeepsPllInv : Obligations.StepKeepsPllInv := by
  intro s t hs h
  obtain hr | ⟨_, _, hr⟩ | ⟨i, u, _, hu, _, _, hc⟩ := step_results h
  · exact hs.of_results hr
  · exact .of_results hr (.of_invalid rfl)
  · exact hc.keeps_pll (hs.of_results hu)

end Sys2Proof.Machine
end

section
/-! PROOFS. What changes the phase, the reset line, the solution and RD_DATA (10_state.md R43, R47, R48, R54). -/

namespace Sys2Proof.Machine

/-! ## The changes of a turn, result by result -/

theorem ResultChange.phase_cases {i : Instr} {s t : State} (h : ResultChange s t i) :
    t.phase = s.phase ∨ i = .uPhase t.phase := by
  cases h with
  | phase p ht => exact .inr (congrArg (fun r => Instr.uPhase r.phase) ht).symm
  | line l ht => exact .inl ((congrArg Results.phase ht).trans (driveResetLine_phase l s))
  | read _ _ ht | unsolved _ _ ht | solved _ _ _ _ _ _ _ ht | derived _ _ ht => exact .inl (congrArg Results.phase ht :)

theorem ResultChange.rstline_cases {i : Instr} {s t : State} (h : ResultChange s t i) :
    t.rstline = s.rstline ∨ (i = .uRstline t.rstline ∧ s.build.hasResetLine = true) := by
  cases h with
  | line l ht =>
    have hl : t.rstline = (driveResetLine l s).rstline := congrArg Results.rstline ht
    obtain ⟨hline, _, he⟩ | ⟨_, he⟩ := driveResetLine_cases l s
    · rw [he] at hl
      exact .inr ⟨by rw [hl], hline⟩
    · rw [he] at hl
      exact .inl hl
  | phase _ ht | read _ _ ht | unsolved _ _ ht | solved _ _ _ _ _ _ _ ht | derived _ _ ht =>
    exact .inl (congrArg Results.rstline ht :)

theorem ResultChange.rdData_cases {i : Instr} {s t : State} (h : ResultChange s t i) :
    t.rdData = s.rdData ∨ ((∃ a, i = .hRegrd a) ∧ t.busy = false ∧ t.err = s.err) := by
  cases h with
  | read a v _ hb he => exact .inr ⟨⟨a, rfl⟩, hb, he⟩
  | line l ht => exact .inl ((congrArg Results.rdData ht).trans (driveResetLine_rdData l s))
  | phase _ ht | unsolved _ _ ht | solved _ _ _ _ _ _ _ ht | derived _ _ ht =>
    exact .inl (congrArg Results.rdData ht :)

/-- FBD, PRD, FRS, PLL_FREQ and PLL_BITCLK agree. -/
def SameSolution (s t : State) : Prop :=
  t.fbd = s.fbd ∧ t.prd = s.prd ∧ t.frs = s.frs ∧ t.pllFreq = s.pllFreq ∧ t.pllBitclk = s.pllBitclk

theorem sameSolution_of_results {s t : State} (h : resultsOf t = resultsOf s) : SameSolution s t :=
  ⟨congrArg Results.fbd h, congrArg Results.prd h, congrArg Results.frs h, congrArg Results.pllFreq h,
    congrArg Results.pllBitclk h⟩

theorem SameSolution.trans {s u t : State} (h : SameSolution s u) (h' : SameSolution u t) : SameSolution s t := by
  unfold SameSolution at *
  simp only [h', h, and_self]

/-- The registers of a solution hold what the search of a configuration found, none truncated. -/
def HoldsSolution (c : DevConfig) (t : State) : Prop :=
  ∃ frs, bracket (targetFreq c) = some frs ∧
    let r := searchPll c.refclk.toNat frs (targetFreq c)
    r.found = true ∧ t.fbd.toNat = r.bestFbd ∧ t.prd.toNat = r.bestPrd ∧ t.frs.toNat = frs ∧
    t.pllFreq.toNat = r.bestPll ∧ t.pllBitclk.toNat = r.bestPll / 2

theorem ResultChange.solution_cases {i : Instr} {s t : State} (h : ResultChange s t i) :
    SameSolution s t ∨ ((i = .uSolve ∨ i = .hSolve) ∧ t.valid = true ∧ HoldsSolution s.acfg t) := by
  cases h with
  | solved _ frs r hi hb hr hf ht =>
    subst hr
    obtain ⟨hfbd, hprd, hfrs, hfreq, hbit⟩ := sameSolution_of_results ht
    refine .inr ⟨hi, (congrArg Results.valid ht :), frs, hb, hf, ?_⟩
    rw [hfbd, hprd, hfrs, hfreq, hbit]
    exact commitSolution_toNat (bracket_spec hb).1 (searchPll_best _ _ _) hf
  | line l ht => exact .inl (SameSolution.trans (by simp [SameSolution]) (sameSolution_of_results ht))
  | phase _ ht | read _ _ ht | unsolved _ _ ht | derived _ _ ht => exact .inl (sameSolution_of_results ht :)

/-! ## The obligations -/

/-- Settles O43: of the running instruction's changes only that of U.PHASE is one of the phase. -/
theorem phaseChangesOnlyByPhaseAndReset : Obligations.PhaseChangesOnlyByPhaseAndReset := by
  intro s t h hne
  obtain hr | ⟨rest, hin, hr⟩ | ⟨i, u, hi, hu, _, _, hc⟩ := step_results h
  · exact (hne (congrArg Results.phase hr)).elim
  · exact .inr ⟨rest, hin, congrArg Results.phase hr⟩
  · obtain hp | hp := hc.phase_cases
    · exact (hne (hp.trans (congrArg Results.phase hu))).elim
    · exact .inl ⟨t.phase, hp ▸ hi, rfl⟩

/-- Settles O45: of the running instruction's changes only that of U.RSTLINE is one of the reset line. -/
theorem resetLineChangesOnlyByRstlineAndReset : Obligations.ResetLineChangesOnlyByRstlineAndReset := by
  intro s t h hne
  obtain hr | ⟨rest, hin, _⟩ | ⟨i, u, hi, hu, _, _, hc⟩ := step_results h
  · exact (hne (congrArg Results.rstline hr)).elim
  · exact .inr ⟨rest, hin⟩
  · obtain hl | ⟨hl, hline⟩ := hc.rstline_cases
    · exact (hne (hl.trans (congrArg Results.rstline hu))).elim
    · have hbuild : u.build = s.build := congrArg Results.build hu
      exact .inl ⟨hl ▸ hi, hbuild ▸ hline⟩

/-- Settles O47: of the running instruction's changes only that of a solve that succeeds is one of the solution. -/
theorem solutionIsAllOrNothing : Obligations.SolutionIsAllOrNothing := by
  intro s t h
  obtain hr | ⟨rest, hin, _⟩ | ⟨i, u, hi, hu, hcfg, _, hc⟩ := step_results h
  · exact .inl (sameSolution_of_results hr)
  · exact .inr (.inl ⟨rest, hin⟩)
  · obtain hs | ⟨hsolve, hv, hsol⟩ := hc.solution_cases
    · exact .inl ((sameSolution_of_results hu).trans hs)
    · have hcur : currentInstr s = some .uSolve ∨ currentInstr s = some .hSolve :=
        hsolve.imp (fun he => hi.trans (congrArg some he)) (fun he => hi.trans (congrArg some he))
      exact .inr (.inr ⟨hcur, hv, hcfg ▸ hsol⟩)

/-- Settles O48: of the running instruction's changes only the completion of an H.REGRD is one of RD_DATA. -/
theorem rdDataChangesOnlyByRegrd : Obligations.RdDataChangesOnlyByRegrd := by
  intro s t h hne
  obtain hr | ⟨rest, hin, _⟩ | ⟨i, u, hi, hu, _, herr, hc⟩ := step_results h
  · exact (hne (congrArg Results.rdData hr)).elim
  · exact .inr ⟨rest, hin⟩
  · obtain hd | ⟨⟨a, rfl⟩, hb, he⟩ := hc.rdData_cases
    · exact (hne (hd.trans (congrArg Results.rdData hu))).elim
    · exact .inl ⟨((currentInstr_kind hi).1 rfl).1, hb, he.trans herr⟩

end Sys2Proof.Machine
end

section
/-! PROOFS. Who sets and who clears REJECT (10_state.md R46). -/

namespace Sys2Proof.Machine

/-! ## What the moves make of REJECT -/

theorem SolveNext.reject {done : State → State} {s t : State} (h : SolveNext done s t)
    (hdone : ∀ m, (done m).reject = m.reject) : t.reject = s.reject := by
  obtain ⟨_, ⟨_, rfl⟩ | ⟨frs, _, r, _, ⟨_, rfl⟩ | ⟨_, rfl⟩⟩⟩ := h
  · rfl
  · exact hdone _
  · rfl

/-- The Engine leaves REJECT to the host (R46). -/
theorem Progress.reject {i : Instr} {s t : State} (h : Progress i s t) : t.reject = s.reject := by
  cases h with
  | access _ access _ _ _ ha hn =>
    obtain ⟨m, hm, rfl | rfl | rfl⟩ := hn.frame
    · simpa using hm.reject
    · obtain ⟨_, he⟩ | ⟨_, v, he, _⟩ := afterAccess_cases ha m <;> simpa [he] using hm.reject
    · simpa using hm.reject
  | uSolve _ _ _ hn => simpa using SolveNext.reject hn fun _ => rfl
  | hSolve _ _ _ _ hn => exact SolveNext.reject hn fun _ => rfl
  | ended | phase | waitStart | waitEnd | waitHold | rstline | uDerive | hDerive => simp

theorem Accepted.reject {i : Instr} {s t : State} (h : Accepted i s t) : t.reject = s.reject := by
  cases h <;> rfl

/-- What a move makes of REJECT. -/
theorem Move.reject {j : Input} {s t : State} (h : Move j s t) :
    t.reject = s.reject ∨
    (∃ w, j = .host (.write 0x14 4 w) ∧ s.busy = true ∧ t.reject = true) ∨
    (∃ w, j = .host (.write 0x20 4 w) ∧ t.reject = (s.reject && !w.getLsbD 24)) ∨
    (j = .blockReset ∧ t.reject = false) := by
  cases h with
  | run _ _ i _ _ hp => exact .inl hp.reject
  | accepted _ _ w i _ _ ha => exact .inl ha.reject
  | answered _ a => exact .inl (deliverAnswer_reject a s)
  | rejected _ w hb => exact .inr (.inl ⟨w, rfl, hb, rfl⟩)
  | wroteStatus _ w => exact .inr (.inr (.inl ⟨w, rfl, rfl⟩))
  | reset => exact .inr (.inr (.inr ⟨rfl, rfl⟩))
  | still | replied | wroteCfg | wroteArgData | wroteArgMask | illegal | elapsed => exact .inl rfl

/-! ## Steps -/

/-- A CMD write while BUSY = 1 (R182). -/
theorem step_cmd_write_busy {s : State} {w : Word} {rest : List Input}
    (hin : s.inputs = .host (.write 0x14 4 w) :: rest) (hb : s.busy = true) :
    step s = .next (rejectCmd (respond .done (dropInput s))) := by
  have hs : step s = onCmdWrite w (respond .done (dropInput s)) := by rw [step, hin]; rfl
  rw [hs, onCmdWrite]
  exact if_pos hb

/-- A write to STATUS (R40). -/
theorem step_status_write {s : State} {w : Word} {rest : List Input}
    (hin : s.inputs = .host (.write 0x20 4 w) :: rest) :
    step s = .next (writeStatus w (respond .done (dropInput s))) := by
  rw [step, hin]; rfl

theorem step_blockReset {s : State} {rest : List Input} (hin : s.inputs = .blockReset :: rest) :
    step s = .next (blockReset (dropInput s)) := by
  rw [step, hin]; rfl

/-- What a step makes of REJECT, by the input it takes. -/
theorem step_reject {s t : State} (h : step s = .next t) :
    t.reject = s.reject ∨
    (∃ w rest, s.inputs = .host (.write 0x14 4 w) :: rest ∧ s.busy = true ∧ t.reject = true) ∨
    (∃ w rest, s.inputs = .host (.write 0x20 4 w) :: rest ∧ t.reject = (s.reject && !w.getLsbD 24)) ∨
    (∃ rest, s.inputs = .blockReset :: rest ∧ t.reject = false) := by
  obtain ⟨_, hm⟩ | ⟨j, rest, hin, hm⟩ := step_move h
  · obtain hr | ⟨w, hj, _⟩ | ⟨w, hj, _⟩ | ⟨hj, _⟩ := hm.reject
    · exact .inl hr
    all_goals cases hj
  · obtain hr | ⟨w, rfl, hb, hr⟩ | ⟨w, rfl, hr⟩ | ⟨rfl, hr⟩ := hm.reject
    · exact .inl hr
    · exact .inr (.inl ⟨w, rest, hin, hb, hr⟩)
    · exact .inr (.inr (.inl ⟨w, rest, hin, hr⟩))
    · exact .inr (.inr (.inr ⟨rest, hin, hr⟩))

/-- Settles O44: the changes by `step_reject`, and what each of the three inputs makes of REJECT. -/
theorem rejectIsSticky : Obligations.RejectIsSticky := by
  intro s t h
  refine ⟨fun h0 h1 => ?_, fun h1 h0 => ?_, fun w rest hb hin => ?_, fun w rest hin hw => ?_, fun rest hin => ?_⟩
  · obtain hr | ⟨w, rest, hin, hb, _⟩ | ⟨w, rest, _, hr⟩ | ⟨rest, _, hr⟩ := step_reject h
    · simp [hr, h0] at h1
    · exact ⟨hb, w, rest, hin⟩
    · simp [hr, h0] at h1
    · simp [hr] at h1
  · obtain hr | ⟨w, rest, _, _, hr⟩ | ⟨w, rest, hin, hr⟩ | ⟨rest, hin, _⟩ := step_reject h
    · simp [hr, h1] at h0
    · simp [hr] at h0
    · exact .inl ⟨w, rest, hin, by simpa [hr, h1] using h0⟩
    · exact .inr ⟨rest, hin⟩
  · rw [step_cmd_write_busy hin hb] at h; cases h; rfl
  · rw [step_status_write hin] at h; cases h; simp [hw]
  · rw [step_blockReset hin] at h; cases h; rfl

end Sys2Proof.Machine
end

section
/-! PROOFS. Command acceptance and the running instruction (44_sequencer.md R181, R186), and a running H.REGRD
(41_register_access.md R132, R139). -/

namespace Sys2Proof.Machine

/-! ## Instructions and steps -/

/-- A direct command to an idle Engine is its acceptance (R181). -/
theorem direct_idle {kind : OpKind} {accept : State → State} {run : State → Result} {s : State}
    (hb : s.busy = false) : direct kind accept run s = .next (accept s) := by simp [direct, hb]

/-- Settles O25: the acceptances by which `direct` answers when BUSY is 0. -/
theorem directCommandAcceptance : Obligations.DirectCommandAcceptance := by
  intro s hb
  refine ⟨fun a => ?_, fun a => ?_, fun a => ?_, fun c p0 p1 => ?_⟩
  · rw [exec, execHRegwr]; exact direct_idle hb
  · rw [exec, execHRegrd]; exact direct_idle hb
  · rw [exec, execHRegupd]; exact direct_idle hb
  · rw [exec, execHShort]; exact direct_idle hb

/-- A legal word that the host writes to CMD while the Engine is idle runs its instruction (R181). -/
theorem step_cmd_write_idle {s : State} {w : Word} {i : Instr} {rest : List Input}
    (hin : s.inputs = .host (.write 0x14 4 w) :: rest) (hb : s.busy = false) (hd : decodeHost w = .ok i) :
    step s = exec i { s with inputs := rest, reply := some .done } := by
  have hs : step s = onCmdWrite w { s with inputs := rest, reply := some .done } := by
    simp only [step, hin, dropInput, List.tail_cons]; rfl
  simp [hs, onCmdWrite, hb, hd]

/-- The Engine's turn in a ROM runs the word at S.step, STATUS.STEP mirroring it (R186). -/
theorem step_rom {s : State} {i : Instr} {rest : List Input} (hb : s.busy = true) (hrun : romRunning s)
    (hi : currentInstr s = some i) (hin : s.inputs = .engine :: rest) :
    step s = exec i { s with inputs := rest, statStep := s.romStep } := by
  have hd : dropInput s = { s with inputs := rest } := by rw [dropInput, hin, List.tail_cons]
  rw [step_engine hb hi hin, turnStart_running (s := dropInput s) hrun, hd]
  rfl

/-- The Engine's turn goes on with a running direct command. -/
theorem step_direct {s : State} {i : Instr} {rest : List Input} (hb : s.busy = true) (hrun : ¬ romRunning s)
    (hi : currentInstr s = some i) (hin : s.inputs = .engine :: rest) :
    step s = exec i { s with inputs := rest } := by
  have hd : dropInput s = { s with inputs := rest } := by rw [dropInput, hin, List.tail_cons]
  rw [step_engine hb hi hin, turnStart_direct (s := dropInput s) hrun, hd]

theorem currentInstr_rom {s : State} {r : RomSel} {w : Word} {i : Instr} (hrun : romRunning s) (hr : s.rom = some r)
    (hw : (romWords s.build r)[s.romStep.toNat]? = some w) (hd : decodeUop w = .ok i) : currentInstr s = some i := by
  have hf : fetchWord s = some w := by rw [fetchWord, hr]; exact hw
  obtain ho | ho := hrun <;> simp [currentInstr, ho, hf, hd, Except.toOption]

/-- Settles O38: the CMD write, the ROM's turn and the direct command's turn; with no input left the Engine moves. -/
theorem stepRunsTheDecodedInstruction : Obligations.StepRunsTheDecodedInstruction := by
  refine ⟨fun s w i rest hin hb hd => step_cmd_write_idle hin hb hd, ?_, ?_⟩
  · intro s w i r hb hrun hr hw hd
    have hi := currentInstr_rom hrun hr hw hd
    refine ⟨fun hin => ?_, fun rest hin => step_rom hb hrun hi hin⟩
    rw [step_no_inputs hin, step_rom (s := { s with inputs := [.engine] }) (rest := []) hb hrun hi rfl, ← hin]
  · intro s i hb hrun hi
    refine ⟨fun hin => ?_, fun rest hin => step_direct hb hrun hi hin⟩
    rw [step_no_inputs hin, step_direct (s := { s with inputs := [.engine] }) (rest := []) hb hrun hi rfl, ← hin]

/-! ## A running H.REGRD -/

theorem regReadTxs_w16 {a : Addr} (h : a.toNat < 0x100 ∨ 0x600 ≤ a.toNat) : regReadTxs a = [.read a] := by
  simp [regReadTxs, widthClass_w16 h]

theorem regReadTxs_w32 {a : Addr} (h1 : 0x100 ≤ a.toNat) (h2 : a.toNat < 0x600) :
    regReadTxs a = [.read a, .read (a + 2)] := by
  simp [regReadTxs, widthClass_w32 h1 h2]

theorem regReadValue_w16 {a : Addr} (h : a.toNat < 0x100 ∨ 0x600 ≤ a.toNat) (d : Half) :
    regReadValue a [d] = d.setWidth 32 := by
  simp [regReadValue, widthClass_w16 h]

/-- `join32` puts the second half above the first (R130). -/
theorem join32_eq_append (lo hi : Half) : join32 lo hi = hi ++ lo := by
  refine BitVec.eq_of_getLsbD_eq fun k hk => ?_
  rw [BitVec.getLsbD_append]
  by_cases hlow : k < 16
  · simp [join32, hlow, hk]
  · simp [join32, hlow, hk, BitVec.getLsbD_of_ge lo k (by omega)]

theorem regReadValue_w32 {a : Addr} (h1 : 0x100 ≤ a.toNat) (h2 : a.toNat < 0x600) (d e : Half) :
    regReadValue a [d, e] = e ++ d := by
  simp [regReadValue, widthClass_w32 h1 h2, join32_eq_append]

/-- The turn that takes the last OK answer of a running H.REGRD (R139). -/
theorem hRegrd_completes {s : State} {i : Addr} {x : Tx} {d : Half} {data : List Half} (hb : s.busy = true)
    (ho : s.op = .regrd) (hbus : s.bus = .idle) (hr : s.response = some (.ok d)) (hdata : s.readData = data)
    (hx : (regReadTxs s.arg.addr)[s.sub]? = some x) (hlast : (regReadTxs s.arg.addr)[s.sub + 1]? = none) :
    exec (.hRegrd i) s = .next { s with
      response := none, sub := s.sub + 1, readData := data ++ readsGiven [(x, d)], busy := false, op := .none,
      rdData := regReadValue s.arg.addr (data ++ readsGiven [(x, d)]) } := by
  have hacc : accessOf s (.hRegrd i) = some fun _ => regReadTxs s.arg.addr := rfl
  have hx' : txAt (fun _ => regReadTxs s.arg.addr) s = some x := hx
  rw [exec_access hacc fun _ => ⟨hb, ho⟩, runAccess_done hbus hr (by exact hlast), stepAccess_eq d hx', ← hdata]
  rfl

/-- A running H.REGRD by steps, from its first transaction, each of which is answered OK (R139). -/
theorem hRegrd_run {s : State} (hb : s.busy = true) (ho : s.op = .regrd) (hbus : s.bus = .idle)
    (hr : s.response = none) {rest : List Input} {pairs : List (Tx × Half)}
    (hin : s.inputs = okTurns (pairs.map Prod.snd) ++ .engine :: rest)
    (htxs : regReadTxs s.arg.addr = pairs.map Prod.fst) :
    Host.Core.run core (2 * pairs.length + 1) s = .next { s with
      inputs := rest, sub := pairs.length, readData := readsGiven pairs, busy := false, op := .none,
      rdData := regReadValue s.arg.addr (readsGiven pairs), log := s.log ++ okEvents s.now pairs } := by
  have hcur : currentInstr s = some (.hRegrd s.arg.addr) := by simp [currentInstr, ho]
  have hstart : turnStart s = s := turnStart_direct (by simp [romRunning, ho])
  have hrun := access_run_done hb hcur (access := fun _ => regReadTxs s.arg.addr) rfl hbus hr rest pairs hin
    (fun k hk => by rw [htxs, List.getElem?_map]) (by simp [htxs])
  rw [hstart] at hrun
  exact hrun

/-- Settles O28: the turn that completes the access, and the whole access by steps, for the two width classes. -/
theorem hRegrdReadsTheRegister : Obligations.HRegrdReadsTheRegister := by
  intro s i hb ho hbus a
  refine ⟨fun d hr hw hsub hdata => ?_, fun d e hr h1 h2 hsub hdata => ?_, fun d rest hr hw hin => ?_,
    fun d e rest hr h1 h2 hin => ?_⟩
  · have htxs := regReadTxs_w16 hw
    rw [hRegrd_completes (x := .read a) hb ho hbus hr hdata (by simp [htxs, hsub, a]) (by simp [htxs, hsub, a]), hsub,
      ← regReadValue_w16 hw]
    rfl
  · have htxs := regReadTxs_w32 h1 h2
    rw [hRegrd_completes (x := .read (a + 2)) hb ho hbus hr hdata (by simp [htxs, hsub, a]) (by simp [htxs, hsub, a]),
      hsub, ← regReadValue_w32 h1 h2]
    rfl
  · rw [← regReadValue_w16 hw]
    exact hRegrd_run hb ho hbus hr (pairs := [(.read a, d)]) hin (regReadTxs_w16 hw)
  · rw [← regReadValue_w32 h1 h2]
    exact hRegrd_run hb ho hbus hr (pairs := [(.read a, d), (.read (a + 2), e)]) hin (regReadTxs_w32 h1 h2)

end Sys2Proof.Machine
end

section
/-! PROOFS. The host window (10_state.md R31 to R55), and block reset with the state after it (R63, R250). -/

namespace Sys2Proof.Machine

/-! ## The host window -/

/-- A 32-bit read at a word offset answers the register's value and changes nothing else (R31, R78). -/
theorem hostAccess_read {s : State} {o : Byte} (ho : o.toNat % 4 = 0) :
    hostAccess (.read o 4) s = .next { s with reply := some (.data (windowRead s o)) } := by
  simp [hostAccess, accessOk, ho, respond]

/-- A 32-bit write at a word offset (R31, R78). -/
theorem hostAccess_write {s : State} {o : Byte} {w : Word} (ho : o.toNat % 4 = 0) :
    hostAccess (.write o 4 w) s = windowWrite o w { s with reply := some .done } := by
  simp [hostAccess, accessOk, ho, respond]

/-- Reserved offsets read 0 (R55). -/
theorem windowRead_reserved {s : State} {o : Byte} (ho : 0x40 ≤ o.toNat) : windowRead s o = 0 := by
  unfold windowRead
  split
  case h_16 => rfl
  all_goals omega

/-- Read-only registers and reserved offsets ignore a write (R55). -/
theorem windowWrite_ignored {s : State} {o : Byte} {w : Word} (ho : 0x24 ≤ o.toNat) :
    windowWrite o w s = .next s := by
  unfold windowWrite
  split
  case h_10 => rfl
  all_goals omega

/-- The fields of STATUS, at the widths they are written with (R40). -/
theorem statusWord_extract (s : State) (k n : Nat) : (statusWord s).extractLsb' k n =
    (0#6 ++ BitVec.ofBool (rstlineBit s) ++ BitVec.ofBool s.reject ++ s.statStep ++ s.lastop ++ phaseCode s.phase
      ++ errCode s.err ++ 0#3 ++ BitVec.ofBool s.busy).extractLsb' k n := rfl

/-- The fields of PLL_RES, at the widths they are written with (R48). -/
theorem pllResWord_extract (s : State) (k n : Nat) : (pllResWord s).extractLsb' k n =
    (BitVec.ofBool s.valid ++ 0#13 ++ s.frs ++ s.prd ++ 0#3 ++ s.fbd).extractLsb' k n := rfl

/-- A bit of a word is its one-bit field there. -/
theorem getLsbD_of_extract {w : Word} {k : Nat} {b : Bool} (h : w.extractLsb' k 1 = BitVec.ofBool b) :
    w.getLsbD k = b := by
  simpa using congrArg (·.getLsbD 0) h

theorem statusWord_fields (s : State) :
    (statusWord s).extractLsb' 0 1 = BitVec.ofBool s.busy ∧ (statusWord s).extractLsb' 4 4 = errCode s.err ∧
    (statusWord s).extractLsb' 8 4 = phaseCode s.phase ∧ (statusWord s).extractLsb' 12 4 = s.lastop ∧
    (statusWord s).extractLsb' 16 8 = s.statStep ∧ (statusWord s).extractLsb' 24 1 = BitVec.ofBool s.reject ∧
    (statusWord s).extractLsb' 25 1 = BitVec.ofBool (rstlineBit s) ∧
    (statusWord s).extractLsb' 1 3 = 0#3 ∧ (statusWord s).extractLsb' 26 6 = 0#6 := by
  simp (disch := omega) only [statusWord_extract, BitVec.extractLsb'_append_eq_of_add_le,
    BitVec.extractLsb'_append_eq_of_le, BitVec.extractLsb'_eq_self, Nat.reduceSub, and_self]

theorem pllResWord_fields (s : State) :
    (pllResWord s).extractLsb' 0 9 = s.fbd ∧ (pllResWord s).extractLsb' 12 4 = s.prd ∧
    (pllResWord s).extractLsb' 16 2 = s.frs ∧ (pllResWord s).extractLsb' 31 1 = BitVec.ofBool s.valid ∧
    (pllResWord s).extractLsb' 9 3 = 0#3 ∧ (pllResWord s).extractLsb' 18 13 = 0#13 := by
  simp (disch := omega) only [pllResWord_extract, BitVec.extractLsb'_append_eq_of_add_le,
    BitVec.extractLsb'_append_eq_of_le, BitVec.extractLsb'_eq_self, Nat.reduceSub, and_self]

/-- Settles O39: each word offset's register, and the fields of STATUS and PLL_RES at their bits. -/
theorem windowReads : Obligations.WindowReads := by
  intro s get
  obtain ⟨hbusy, herr, hphase, hlastop, hstep, hreject, hline, hlow, hhigh⟩ := statusWord_fields s
  obtain ⟨hfbd, hprd, hfrs, hvalid, hgap, hmid⟩ := pllResWord_fields s
  refine ⟨rfl, rfl, rfl, rfl, rfl, rfl, rfl, rfl, rfl, rfl, rfl, rfl, rfl, rfl, rfl, rfl, fun o ho h4 => ?_,
    ⟨hbusy, ?_, ?_, hlastop, hstep, getLsbD_of_extract hreject, getLsbD_of_extract hline, hlow, hhigh⟩,
    ⟨hfbd, hprd, hfrs, getLsbD_of_extract hvalid, hgap, hmid⟩⟩
  · exact windowRead_reserved (s := s) ho ▸ hostAccess_read h4
  · rw [herr]; cases s.err <;> rfl
  · rw [hphase]; cases s.phase <;> rfl

/-- A STATUS write with bit 24 = 1 clears REJECT, any other leaves it (R40). -/
theorem writeStatus_eq (w : Word) (s : State) :
    writeStatus w s = { s with reject := if w.getLsbD 24 then false else s.reject } := by
  have h : (s.reject && !w.getLsbD 24) = if w.getLsbD 24 then false else s.reject := by
    cases w.getLsbD 24 <;> simp
  rw [writeStatus, h]

/-- Settles O40: each word offset's write; from 0x24 on there is nothing to write. -/
theorem windowWrites : Obligations.WindowWrites := by
  intro s w put
  refine ⟨rfl, rfl, rfl, rfl, rfl, rfl, rfl, ?_, fun o ho h4 => ?_⟩
  · exact congrArg Host.Outcome.next (writeStatus_eq w (respond .done s))
  · exact (hostAccess_write h4).trans (windowWrite_ignored ho)

/-! ## Block reset -/

/-- After block reset STATUS shows the reset line and nothing else (R63). -/
theorem statusWord_resetOf (b : Build) :
    statusWord (State.resetOf b) = if b.hasResetLine then 0x02000000 else 0 := by
  have h : statusWord (State.resetOf b) = (
      0#6 ++ BitVec.ofBool (b.hasResetLine && b.hasResetLine) ++ 0#1 ++ 0#8 ++ 0#4 ++ 0#4 ++ 0#4 ++ 0#3 ++ 0#1 :) := rfl
  cases hl : b.hasResetLine <;> rw [h, hl] <;> decide

theorem pllResWord_resetOf (b : Build) : pllResWord (State.resetOf b) = 0 := by
  have h : pllResWord (State.resetOf b) = (0#1 ++ 0#13 ++ 0#2 ++ 0#4 ++ 0#3 ++ 0#9 :) := rfl
  rw [h]; decide

/-- Settles O42: block reset gives the reset state of its build (`blockReset_eq`), in which an answer is dropped. -/
theorem blockResetValues : Obligations.BlockResetValues := by
  refine ⟨fun s => ⟨blockReset s, rfl, rfl, rfl, rfl, rfl, statusWord_resetOf s.build, rfl,
    pllResWord_resetOf s.build, rfl, rfl, rfl, rfl, rfl, rfl, rfl, rfl, rfl, rfl, rfl, rfl, rfl, rfl, rfl,
    fun a rest hin => ?_⟩, statusWord_resetOf buildT, rfl, rfl, rfl⟩
  exact step_answer_idle (s := blockReset s) hin rfl

/-! ## The state after block reset -/

theorem RomInv.resetOf {b : Build} (h : buildWf b = true) : RomInv (State.resetOf b) where
  build_wf := h
  in_rom := fun _ hr => by simp [romRunning, State.resetOf] at hr
  solved := nofun

/-- The observation is empty after reset. -/
theorem LogInv.resetOf (b : Build) : LogInv (State.resetOf b) := ⟨rfl, nofun⟩

theorem WaitInv.resetOf (b : Build) : WaitInv (State.resetOf b) where
  started := nofun
  settled := fun _ _ _ hr => by simp [romRunning, State.resetOf] at hr

theorem buildT_wf : buildWf buildT = true := by decide

/-- Settles O50: after block reset the Engine is idle, VALID is 0 and the observation is empty; profile T is well
formed. -/
theorem resetMeetsTheInvariants : Obligations.ResetMeetsTheInvariants :=
  ⟨fun b => ⟨.of_idle rfl rfl id, .of_quiet rfl rfl rfl, .of_invalid rfl, .resetOf b, .resetOf b, .resetOf⟩,
    .resetOf buildT_wf⟩

end Sys2Proof.Machine
end

section
/-! PROOFS. What a step adds to the observation (00_scope.md R18; 20_memory.md R83, R85), and that no step writes the
build (20_memory.md R88). -/

namespace Sys2Proof.Machine

/-! ## What a step adds to the observation -/

/-- Time does not run backwards from `s` to `t`, and the observation of `t` is that of `s` with events of the time of
`t`, which take the bus port from the state it has in `s` to the one it has in `t`. -/
def Observes (s t : State) : Prop :=
  s.now ≤ t.now ∧ ∃ es, t.log = s.log ++ es ∧ es.foldl busAfter (some s.bus) = some t.bus ∧
    ∀ e ∈ es, entryTime e = t.now

/-- A move that touches neither the bus port nor the observation. -/
theorem Observes.of_quiet {s t : State} (hlog : t.log = s.log) (hbus : t.bus = s.bus) (hnow : s.now ≤ t.now) :
    Observes s t :=
  ⟨hnow, [], by simp [hlog], by simp [hbus], nofun⟩

/-- A beginning that touches neither the time, nor the bus port, nor the observation may be left out. -/
theorem Observes.congr_left {s m t : State} (h : Observes m t) (hlog : m.log = s.log) (hbus : m.bus = s.bus)
    (hnow : m.now = s.now) : Observes s t := by
  simpa [Observes, hlog, hbus, hnow] using h

/-- The fetch is not observed. -/
theorem Observes.of_turnStart {s t : State} (h : Observes (turnStart s) t) : Observes s t :=
  h.congr_left (turnStart_log s) (turnStart_bus s) (turnStart_now s)

/-- A transaction is issued while none is outstanding (R83). -/
theorem observes_issueTx {m : State} (x : Tx) (hb : m.bus = .idle) : Observes m (issueTx x m) :=
  ⟨le_rfl, [.issue x m.now], rfl, by rw [hb]; rfl, by simp [entryTime]⟩

/-- An answer answers the outstanding transaction (R83). -/
theorem observes_receive {s : State} {x : Tx} (a : Answer) (hb : s.bus = .pending x) : Observes s (receive a s) :=
  ⟨le_rfl, [.answer a s.now], rfl, by rw [hb]; rfl, by simp [entryTime]⟩

/-- A change of the reset line may come at any time (R194). -/
theorem observes_driveResetLine (l : Bool) (s : State) : Observes s (driveResetLine l s) := by
  obtain ⟨_, _, he⟩ | ⟨_, he⟩ := driveResetLine_cases l s
  · rw [he]
    exact ⟨le_rfl, [.resetLine l s.now], rfl, by cases s.bus <;> rfl, by simp [entryTime]⟩
  · rw [he]
    exact .of_quiet rfl rfl le_rfl

/-- Block reset abandons the outstanding transaction and may release the reset line (R251). -/
theorem observes_blockReset (s : State) : Observes s (blockReset s) := by
  refine ⟨le_rfl, _, rfl, ?_, ?_⟩
  · cases s.bus <;> cases (s.build.hasResetLine && !s.rstline) <;> rfl
  · cases (s.build.hasResetLine && !s.rstline) <;> simp [entryTime, blockReset]

theorem Ready.bus_eq {access : Access} {s m : State} (h : Ready access s m) : m.bus = s.bus := by
  cases h <;> rfl

/-- An access's turn issues its next transaction once nothing is outstanding, or adds nothing to the observation. -/
theorem AccessNext.observes {i : Instr} {access : Access} {s t : State} (ha : accessOf s i = some access)
    (h : AccessNext access (afterAccess i) s t) : Observes s t := by
  cases h with
  | waits => exact .of_quiet rfl rfl le_rfl
  | issues m x hm _ => exact (observes_issueTx x hm.bus).congr_left hm.log hm.bus_eq hm.frame.now
  | completes m hm _ =>
    obtain ⟨_, he⟩ | ⟨_, v, he, _⟩ := afterAccess_cases ha m <;> rw [he] <;>
      exact .of_quiet hm.log hm.bus_eq hm.frame.now.ge
  | fails hb _ => exact .of_quiet rfl hb.symm le_rfl

/-- A solve reaches neither the bus port nor the observation: its abort finds nothing outstanding. -/
theorem SolveNext.observes {done : State → State} {s t : State} (h : SolveNext done s t) (hb : s.bus = .idle)
    (hdone : ∀ m, (done m).log = m.log ∧ (done m).bus = m.bus ∧ (done m).now = m.now) : Observes s t := by
  obtain ⟨_, ⟨_, rfl⟩ | ⟨frs, _, r, _, ⟨_, rfl⟩ | ⟨_, rfl⟩⟩⟩ := h
  · exact .of_quiet rfl hb.symm le_rfl
  · obtain ⟨hlog, hbus, hnow⟩ := hdone (commitSolution frs (recordSearch r (beginSolve (targetFreq s.acfg) s)))
    exact .of_quiet hlog hbus hnow.ge
  · exact .of_quiet rfl hb.symm le_rfl

theorem Progress.observes {i : Instr} {s t : State} (hs : AccessInv s) (hi : currentInstr s = some i)
    (h : Progress i s t) : Observes s t := by
  have idle : accessOf s i = none → s.bus = .idle := fun ha => (hs.idle_of_no_access hi ha).1
  cases h with
  | access _ access _ _ _ ha hn => exact (hn.observes ((accessOf_turnStart s i).trans ha)).of_turnStart
  | uSolve _ _ _ hn => exact (hn.observes (by simpa using idle rfl) fun _ => ⟨rfl, rfl, rfl⟩).of_turnStart
  | hSolve _ _ _ _ hn => exact hn.observes (idle rfl) fun _ => ⟨rfl, rfl, rfl⟩
  | rstline l => exact .of_turnStart (observes_driveResetLine l (turnStart s) :)
  | ended | phase | waitStart | waitEnd | waitHold | uDerive => exact .of_turnStart (.of_quiet rfl rfl le_rfl)
  | hDerive => exact .of_quiet rfl rfl le_rfl

theorem Accepted.observes {i : Instr} {s t : State} (h : Accepted i s t) : Observes s t := by
  cases h <;> exact .of_quiet rfl rfl le_rfl

theorem Move.observes {j : Input} {s t : State} (hs : AccessInv s) (h : Move j s t) : Observes s t := by
  cases h with
  | run _ _ i _ hi hp => exact hp.observes hs hi
  | accepted _ _ w i _ _ ha => exact (ha.observes :)
  | answered _ a =>
    obtain ⟨x, hb, he⟩ | ⟨_, he⟩ := deliverAnswer_cases a s
    · rw [he]; exact observes_receive a hb
    · rw [he]; exact .of_quiet rfl rfl le_rfl
  | elapsed _ us => exact .of_quiet rfl rfl (Nat.le_add_right _ us)
  | reset => exact observes_blockReset s
  | still | replied | wroteCfg | wroteArgData | wroteArgMask | wroteStatus | rejected | illegal =>
    exact .of_quiet rfl rfl le_rfl

/-- What every step adds to the observation. -/
theorem step_observes {s t : State} (hs : AccessInv s) (h : step s = .next t) : Observes s t := by
  obtain ⟨_, hm⟩ | ⟨j, rest, _, hm⟩ := step_move h
  · exact hm.observes hs
  · exact (hm.observes (hs.env (t := dropInput s) rfl) :)

/-- A legal observation stays so: the new events go on from the bus port's state, at the present time. -/
theorem Observes.keeps_log {s t : State} (h : Observes s t) (hs : LogInv s) : LogInv t := by
  obtain ⟨hnow, es, hlog, hbus, htime⟩ := h
  refine ⟨by rw [hlog, busOfLog_append, hs.bus, hbus], fun e he => ?_⟩
  rw [hlog, List.mem_append] at he
  obtain hold | hnew := he
  · exact (hs.past e hold).trans hnow
  · exact (htime e hnew).le

/-- An event that a step adds has the time after the step, which is no earlier than the time before it. -/
theorem Observes.now_le_of_mem_drop {s t : State} {e : LogEntry} (h : Observes s t)
    (he : e ∈ t.log.drop s.log.length) : s.now ≤ entryTime e := by
  obtain ⟨hnow, es, hlog, _, htime⟩ := h
  rw [hlog, List.drop_left] at he
  exact hnow.trans (htime e he).ge

/-! ## The build -/

/-- No turn of the running instruction writes the build. -/
theorem ResultChange.build {i : Instr} {s t : State} (h : ResultChange s t i) : t.build = s.build := by
  cases h with
  | line l ht => exact (congrArg Results.build ht).trans (driveResetLine_build l s)
  | phase _ ht | read _ _ ht | unsolved _ _ ht | solved _ _ _ _ _ _ _ ht | derived _ _ ht =>
    exact (congrArg Results.build ht :)

/-! ## The obligations -/

/-- Settles O54: the events that a step adds follow each other and the ones before them on the bus port
(`step_observes`). -/
theorem stepKeepsLogInv : Obligations.StepKeepsLogInv := fun _ _ hacc hs h =>
  (step_observes hacc h).keeps_log hs

/-- Settles O46: block reset keeps the build, and the running instruction changes only what `ResultChange` lists. -/
theorem buildNeverChanges : Obligations.BuildNeverChanges := by
  intro s t h
  obtain hr | ⟨_, _, hr⟩ | ⟨i, u, _, hu, _, _, hc⟩ := step_results h
  · exact congrArg Results.build hr
  · exact (congrArg Results.build hr :)
  · exact hc.build.trans (congrArg Results.build hu)

/-- Settles O56: `WaitInv` puts every answer the minimum before the step, and what the step issues is no earlier than
the step. -/
theorem waitSeparatesTransactions : Obligations.WaitSeparatesTransactions := by
  intro s t r d k tx time _ hacc _ hwait h hrun hrom hstep hword hbus hresp hissue a u ha
  obtain ⟨hmin, hanswered⟩ := hwait.settled r d k hrun hrom hbus hresp hstep hword
  have hbefore : u ≤ s.now - delayMinUs d := hanswered a u ha
  have hafter : s.now ≤ time := (step_observes hacc h).now_le_of_mem_drop hissue
  omega

end Sys2Proof.Machine
end

section
/-! PROOFS. The width classes (20_memory.md R72, R75), the register writes of H.REGWR and U.WR (41_register_access.md
R131, R136, R138), and the window's refusal (20_memory.md R78). -/

namespace Sys2Proof.Machine

/-! ## Width classes -/

theorem widthClass_eq_w16_iff (a : Addr) : widthClass a = .w16 ↔ a.toNat < 0x100 ∨ 0x600 ≤ a.toNat := by
  refine ⟨fun h => ?_, widthClass_w16⟩
  by_contra hn
  rw [widthClass_w32 (by omega) (by omega)] at h
  cases h

theorem widthClass_eq_w32_iff (a : Addr) : widthClass a = .w32 ↔ 0x100 ≤ a.toNat ∧ a.toNat < 0x600 := by
  refine ⟨fun h => ?_, fun ⟨h1, h2⟩ => widthClass_w32 h1 h2⟩
  by_contra hn
  rw [widthClass_w16 (by omega)] at h
  cases h

/-- Settles O10: the two ranges cover the addresses, and the upper half of a W32 access lies below 0x602. -/
theorem widthClassesAndNoWrap : Obligations.WidthClassesAndNoWrap := by
  intro a
  refine ⟨widthClass_eq_w16_iff a, ?_, fun h => ?_⟩
  · rw [widthClass_eq_w32_iff]
    omega
  · obtain ⟨_, hlt⟩ := (widthClass_eq_w32_iff a).1 h
    have hadd : (a + 2).toNat = a.toNat + 2 := BitVec.toNat_add_of_lt (y := 2) (by simp; omega)
    exact ⟨hadd, by omega⟩

/-! ## Register writes -/

theorem regWriteTxs_w16 {a : Addr} {v : Word} (h : a.toNat < 0x100 ∨ 0x600 ≤ a.toNat) :
    regWriteTxs a v = [.write a (v.extractLsb' 0 16)] := by
  simp [regWriteTxs, widthClass_w16 h, lowHalf]

theorem regWriteTxs_w32 {a : Addr} {v : Word} (h1 : 0x100 ≤ a.toNat) (h2 : a.toNat < 0x600) :
    regWriteTxs a v = [.write a (v.extractLsb' 0 16), .write (a + 2) (v.extractLsb' 16 16)] := by
  simp [regWriteTxs, widthClass_w32 h1 h2, lowHalf, highHalf]

/-- The transaction at `n` is the last of a register write: its only one for a W16 address, its second for a W32
address. -/
theorem regWriteTxs_last {a : Addr} {v : Word} {n : Nat}
    (h : ((a.toNat < 0x100 ∨ 0x600 ≤ a.toNat) ∧ n = 0) ∨ (0x100 ≤ a.toNat ∧ a.toNat < 0x600 ∧ n = 1)) :
    (∃ b w, (regWriteTxs a v)[n]? = some (.write b w)) ∧ (regWriteTxs a v)[n + 1]? = none := by
  obtain ⟨hw, rfl⟩ | ⟨h1, h2, rfl⟩ := h
  · simp [regWriteTxs_w16 hw]
  · simp [regWriteTxs_w32 h1 h2]

/-- The turn that takes the OK answer to the last transaction of a register write (R131). -/
theorem regWrite_completes {s : State} {i : Instr} {a : Addr} {v : Word} {d : Half}
    (ha : accessOf s i = some fun _ => regWriteTxs a v)
    (hrun : i.isHost = true → s.busy = true ∧ s.op = startedOp i) (hbus : s.bus = .idle)
    (hr : s.response = some (.ok d))
    (hlast : ((a.toNat < 0x100 ∨ 0x600 ≤ a.toNat) ∧ s.sub = 0) ∨ (0x100 ≤ a.toNat ∧ a.toNat < 0x600 ∧ s.sub = 1)) :
    exec i s = .next (afterAccess i { s with response := none, sub := s.sub + 1 }) := by
  obtain ⟨⟨b, w, hx⟩, hend⟩ := regWriteTxs_last (v := v) hlast
  have hx' : txAt (fun _ => regWriteTxs a v) s = some (.write b w) := hx
  rw [exec_access ha hrun, runAccess_done hbus hr (by exact hend), stepAccess_eq d hx', readsGiven,
    readsGiven, List.append_nil]

/-- A register write by steps, from its first transaction, each of which is answered OK (R131). -/
theorem regWrite_run {s : State} {i : Instr} {a : Addr} {v : Word} {rest : List Input} {pairs : List (Tx × Half)}
    (hb : s.busy = true) (hi : currentInstr s = some i) (ha : accessOf s i = some fun _ => regWriteTxs a v)
    (hbus : s.bus = .idle) (hr : s.response = none)
    (hin : s.inputs = okTurns (pairs.map Prod.snd) ++ .engine :: rest)
    (htxs : regWriteTxs a v = pairs.map Prod.fst) :
    Host.Core.run core (2 * pairs.length + 1) s = .next (afterAccess i { turnStart s with
      inputs := rest, sub := pairs.length, readData := readsGiven pairs, log := s.log ++ okEvents s.now pairs }) :=
  access_run_done hb hi ha hbus hr rest pairs hin (fun k _ => by rw [htxs, List.getElem?_map]) (by simp [htxs])

/-- Settles O26: the last turn and the whole of a register write whose completion ends the command. -/
theorem hRegwrWritesTheRegister : Obligations.HRegwrWritesTheRegister := by
  intro s i hb ho hbus a v
  have hi : currentInstr s = some (.hRegwr a) := by simp [currentInstr, ho, a]
  have hstart : turnStart s = s := turnStart_direct (by simp [romRunning, ho])
  refine ⟨fun d hr hlast => ?_, fun d rest hr hw hin => ?_, fun d e rest hr h1 h2 hin => ?_⟩
  · exact regWrite_completes (i := .hRegwr i) rfl (fun _ => ⟨hb, ho⟩) hbus hr hlast
  · have hrun := regWrite_run (pairs := [(.write a _, d)]) hb hi rfl hbus hr hin (regWriteTxs_w16 hw)
    rwa [hstart] at hrun
  · have hrun := regWrite_run (pairs := [(.write a _, d), (.write (a + 2) _, e)]) hb hi rfl hbus hr hin
      (regWriteTxs_w32 h1 h2)
    rwa [hstart] at hrun

/-- Settles O27: the last turn and the whole of a register write whose completion goes on with the next micro-op. -/
theorem uWrWritesTheRegister : Obligations.UWrWritesTheRegister := by
  intro s reg src a v hreg hsrc hbus
  have ha : accessOf s (.uWr reg src) = some fun _ => regWriteTxs a v := by simp [accessOf, regAddr, hreg, hsrc]
  have hstart : currentInstr s = some (.uWr reg src) → turnStart s = mirrorStep s := fun hi =>
    turnStart_running ((currentInstr_kind hi).2 rfl)
  refine ⟨fun d hr hlast => ?_, fun d rest hb hi hr hw hin => ?_, fun d e rest hb hi hr h1 h2 hin => ?_⟩
  · exact regWrite_completes ha nofun hbus hr hlast
  · have hrun := regWrite_run (pairs := [(.write a _, d)]) hb hi ha hbus hr hin (regWriteTxs_w16 hw)
    rwa [hstart hi] at hrun
  · have hrun := regWrite_run (pairs := [(.write a _, d), (.write (a + 2) _, e)]) hb hi ha hbus hr hin
      (regWriteTxs_w32 h1 h2)
    rwa [hstart hi] at hrun

/-! ## Refused window accesses -/

theorem accessOk_eq_false {o : Byte} {n : Nat} (h : n ≠ 4 ∨ o.toNat % 4 ≠ 0) : accessOk o n = false := by
  simpa [accessOk, imp_iff_not_or] using h

/-- Settles O41: neither direction admits the access, and the error response is all it leaves. -/
theorem otherWindowAccessesAreRefused : Obligations.OtherWindowAccessesAreRefused := by
  intro s o n w h
  simp [hostAccess, accessOk_eq_false h, respond]

end Sys2Proof.Machine
end

section
/-! PROOFS. The decoders read exactly the encoded instructions (30_encoding.md R101 to R107, R112, R113, R118). -/

namespace Sys2Proof.Machine

/-! ## Fields and formats of an encoded word -/

@[simp] theorem hostOp_encHostHN (op : BitVec 4) : hostOp (encHostHN op) = op :=
  BitVec.eq_of_getLsbD_eq fun k hk => by grind [hostOp, encHostHN]

@[simp] theorem hostOp_encHostHA (op : BitVec 4) (a : Addr) : hostOp (encHostHA op a) = op := Laws.encHostHA_low op a

@[simp] theorem hostOp_encHostHS (op : BitVec 4) (cid p0 p1 : Byte) : hostOp (encHostHS op cid p0 p1) = op :=
  Laws.encHostHS_low op cid p0 p1

@[simp] theorem hostOp_encUop (op : BitVec 4) (a b c : Byte) : hostOp (encUop op a b c) = 0 := Laws.encUop_low op a b c

@[simp] theorem formatHN_encHostHN (op : BitVec 4) (i : Instr) : formatHN (encHostHN op) i = .ok i := by
  have hz : (encHostHN op).extractLsb' 4 28 = 0 := BitVec.eq_of_getLsbD_eq fun k hk => by grind [encHostHN]
  rw [formatHN, if_pos hz]

@[simp] theorem formatHA_encHostHA (op : BitVec 4) (a : Addr) (i : Addr → Instr) :
    formatHA (encHostHA op a) i = .ok (i a) := by
  have hz : (encHostHA op a).extractLsb' 4 12 = 0 := BitVec.eq_of_getLsbD_eq fun k hk => by grind [encHostHA]
  have ha : (encHostHA op a).extractLsb' 16 16 = a := BitVec.eq_of_getLsbD_eq fun k hk => by grind [encHostHA]
  rw [formatHA, if_pos hz, ha]

@[simp] theorem formatHS_encHostHS (op : BitVec 4) (cid p0 p1 : Byte) (i : Byte → Byte → Byte → Instr) :
    formatHS (encHostHS op cid p0 p1) i = .ok (i cid p0 p1) := by
  have hz : (encHostHS op cid p0 p1).extractLsb' 4 4 = 0 :=
    BitVec.eq_of_getLsbD_eq fun k hk => by grind [encHostHS]
  have hc : (encHostHS op cid p0 p1).extractLsb' 8 8 = cid :=
    BitVec.eq_of_getLsbD_eq fun k hk => by grind [encHostHS]
  have h0 : (encHostHS op cid p0 p1).extractLsb' 16 8 = p0 :=
    BitVec.eq_of_getLsbD_eq fun k hk => by grind [encHostHS]
  have h1 : (encHostHS op cid p0 p1).extractLsb' 24 8 = p1 :=
    BitVec.eq_of_getLsbD_eq fun k hk => by grind [encHostHS]
  rw [formatHS, if_pos hz, hc, h0, h1]

@[simp] theorem uopOp_encUop (op : BitVec 4) (a b c : Byte) : uopOp (encUop op a b c) = op :=
  BitVec.eq_of_getLsbD_eq fun k hk => by grind [uopOp, encUop, BitVec.getLsbD_setWidth]

@[simp] theorem uopA_encUop (op : BitVec 4) (a b c : Byte) : uopA (encUop op a b c) = a :=
  BitVec.eq_of_getLsbD_eq fun k hk => by grind [uopA, encUop]

@[simp] theorem uopB_encUop (op : BitVec 4) (a b c : Byte) : uopB (encUop op a b c) = b :=
  BitVec.eq_of_getLsbD_eq fun k hk => by grind [uopB, encUop]

@[simp] theorem uopC_encUop (op : BitVec 4) (a b c : Byte) : uopC (encUop op a b c) = c :=
  BitVec.eq_of_getLsbD_eq fun k hk => by grind [uopC, encUop]

/-! ## The word that a format admits -/

theorem getLsbD_eq_false_of_extract {w : Word} {k n : Nat} (h : w.extractLsb' k n = 0) {j : Nat} (h1 : k ≤ j)
    (h2 : j < k + n) : w.getLsbD j = false := by
  have hbit := congrArg (·.getLsbD (j - k)) h
  simpa [show j - k < n by omega, Nat.add_sub_cancel' h1] using hbit

theorem formatHN_eq_ok {w : Word} {i j : Instr} (h : formatHN w i = .ok j) : i = j ∧ encHostHN (hostOp w) = w := by
  rw [formatHN] at h
  split at h <;> cases h
  rename_i hz
  refine ⟨rfl, BitVec.eq_of_getLsbD_eq fun k hk => ?_⟩
  have := @getLsbD_eq_false_of_extract w _ _ hz k
  grind [encHostHN, hostOp]

theorem formatHA_eq_ok {w : Word} {i : Addr → Instr} {j : Instr} (h : formatHA w i = .ok j) :
    ∃ a, i a = j ∧ encHostHA (hostOp w) a = w := by
  rw [formatHA] at h
  split at h <;> cases h
  rename_i hz
  refine ⟨_, rfl, BitVec.eq_of_getLsbD_eq fun k hk => ?_⟩
  have := @getLsbD_eq_false_of_extract w _ _ hz k
  grind [encHostHA, hostOp]

theorem formatHS_eq_ok {w : Word} {i : Byte → Byte → Byte → Instr} {j : Instr} (h : formatHS w i = .ok j) :
    ∃ cid p0 p1, i cid p0 p1 = j ∧ encHostHS (hostOp w) cid p0 p1 = w := by
  rw [formatHS] at h
  split at h <;> cases h
  rename_i hz
  refine ⟨_, _, _, rfl, BitVec.eq_of_getLsbD_eq fun k hk => ?_⟩
  have := @getLsbD_eq_false_of_extract w _ _ hz k
  grind [encHostHS, hostOp]

/-- A word whose reserved bits are 0 is that of its fields (R104). -/
theorem encUop_fields {w : Word} (h : w.extractLsb' 0 4 = 0) : encUop (uopOp w) (uopA w) (uopB w) (uopC w) = w := by
  refine BitVec.eq_of_getLsbD_eq fun k hk => ?_
  have := @getLsbD_eq_false_of_extract w _ _ h k
  grind [encUop, uopOp, uopA, uopB, uopC]

/-! ## Codes -/

theorem phaseOfCode_eq_ok_iff {code : Byte} {p : Phase} :
    phaseOfCode code = .ok p ↔ (phaseCode p).setWidth 8 = code := by
  constructor
  · intro h
    unfold phaseOfCode at h
    split at h <;> cases h <;> exact (BitVec.eq_of_toNat_eq ‹_›).symm
  · rintro rfl
    cases p <;> rfl

theorem delayOfId_eq_ok_iff {id : Byte} {d : Delay} : delayOfId id = .ok d ↔ delayId d = id := by
  constructor
  · intro h
    unfold delayOfId at h
    split at h <;> cases h <;> exact (BitVec.eq_of_toNat_eq ‹_›).symm
  · rintro rfl
    cases d <;> rfl

/-- Source ids below 0x80 are literal indices (R107). -/
theorem srcOfId_lit {id : Byte} (h : id.toNat < 0x80) : srcOfId id = .ok (.lit (id.setWidth 7)) := if_pos h

theorem srcId_lit_toNat (index : BitVec 7) : (srcId (.lit index)).toNat = index.toNat :=
  BitVec.toNat_setWidth_of_le (by decide)

theorem srcOfId_eq_ok_iff {id : Byte} {v : Src} : srcOfId id = .ok v ↔ srcId v = id := by
  constructor
  · intro h
    unfold srcOfId at h
    split at h
    · cases h
      refine BitVec.eq_of_toNat_eq ?_
      rw [srcId_lit_toNat, BitVec.toNat_setWidth, Nat.mod_eq_of_lt ‹_›]
    · split at h <;> cases h <;> exact (BitVec.eq_of_toNat_eq ‹_›).symm
  · rintro rfl
    cases v with
    | lit index =>
      rw [srcOfId_lit (by rw [srcId_lit_toNat]; exact index.isLt)]
      simp [srcId]
    | zero | plldiv | pllctlNoclk | pllctlClk | hsync | vsync => rfl

@[simp] theorem phaseOfCode_phaseCode (p : Phase) : phaseOfCode ((phaseCode p).setWidth 8) = .ok p :=
  phaseOfCode_eq_ok_iff.2 rfl

@[simp] theorem delayOfId_delayId (d : Delay) : delayOfId (delayId d) = .ok d := delayOfId_eq_ok_iff.2 rfl

@[simp] theorem srcOfId_srcId (v : Src) : srcOfId (srcId v) = .ok v := srcOfId_eq_ok_iff.2 rfl

/-- Bits 7 to 1 of U.RSTLINE's operand are 0 exactly for the two levels (R105). -/
theorem rstline_operand_iff (a : Byte) : a.extractLsb' 1 7 = 0 ↔ a.toNat ≤ 1 := by
  rw [BitVec.toNat_eq, BitVec.extractLsb'_toNat, Nat.shiftRight_eq_div_pow, BitVec.ofNat_eq_ofNat, BitVec.toNat_ofNat,
    Nat.zero_mod]
  omega

theorem rstline_operand_eq {a : Byte} (h : a.extractLsb' 1 7 = 0) : (if a.getLsbD 0 then 1 else 0) = a := by
  have hle := (rstline_operand_iff a).1 h
  obtain h0 | h1 : a.toNat = 0 ∨ a.toNat = 1 := by omega
  · rw [BitVec.eq_of_toNat_eq (y := 0) h0]; rfl
  · rw [BitVec.eq_of_toNat_eq (y := 1) h1]; rfl

/-! ## Encoding, then decoding -/

theorem decodeHost_encode {i : Instr} (h : i.isHost = true) : decodeHost (encode i) = .ok i := by
  cases i with
  | enable | disable | hSolve | hRegwr | hRegrd | hRegupd | hShort => simp [encode, decodeHost]
  | uEnd | uPhase | uWr | uUpd | uWait | uSolve | uDerive | uShort | uRstline => cases h

@[simp] theorem decodeUop_encUop (op : BitVec 4) (a b c : Byte) :
    decodeUop (encUop op a b c) = decodeUopFields (encUop op a b c) := if_pos (Laws.encUop_low op a b c)

theorem decodeUop_encode {i : Instr} (h : i.isHost = false) : decodeUop (encode i) = .ok i := by
  cases i with
  | enable | disable | hSolve | hRegwr | hRegrd | hRegupd | hShort => cases h
  | uEnd | uSolve | uDerive | uShort => simp [encode, decodeUopFields, whenZero]
  | uPhase | uWr | uWait => simp [encode, decodeUopFields, whenZero, Except.map]
  | uUpd => simp [encode, decodeUopFields, Except.map, Except.bind]
  | uRstline l => cases l <;> simp [encode, decodeUopFields, whenZero]

theorem hostOp_encode_eq_zero_iff (i : Instr) : hostOp (encode i) = 0 ↔ i.isHost = false := by
  cases i with
  | enable | disable | hSolve | hRegwr | hRegrd | hRegupd | hShort => simp [encode, Instr.isHost]
  | uEnd | uPhase | uWr | uUpd | uWait | uSolve | uDerive | uShort | uRstline => simp [encode, Instr.isHost]

/-- A word's low nibble says which decoder reads it (R101, R104). -/
theorem decodeTableWord_toNat (w : Word) :
    decodeTableWord 32 w.toNat = if hostOp w = 0 then (decodeUop w).toOption else (decodeHost w).toOption := by
  have hw : BitVec.ofNat 32 (w.toNat % 2 ^ 32) = w := by
    rw [Nat.mod_eq_of_lt w.isLt, BitVec.ofNat_toNat, BitVec.setWidth_eq]
  simp only [decodeTableWord, hw]

/-- Settles O1: the fields of a host word are those it was encoded from, and its low nibble is not 0. -/
theorem hostWordsDecodeToTheirCommand : Obligations.HostWordsDecodeToTheirCommand := by
  intro i h
  have hop : hostOp (encode i) ≠ 0 := fun h0 => by simp [(hostOp_encode_eq_zero_iff i).1 h0] at h
  refine ⟨decodeHost_encode h, ?_⟩
  rw [decodeTableWord_toNat, if_neg hop, decodeHost_encode h]
  rfl

/-- Settles O2: the fields of a micro-op word are those it was encoded from, and its low nibble is 0. -/
theorem microOpWordsDecodeToTheirMicroOp : Obligations.MicroOpWordsDecodeToTheirMicroOp := by
  intro i h
  refine ⟨decodeUop_encode h, ?_⟩
  rw [decodeTableWord_toNat, if_pos ((hostOp_encode_eq_zero_iff i).2 h), decodeUop_encode h]
  rfl

/-! ## Decoding, then encoding -/

theorem whenZero_eq_ok_iff {ok : Bool} {r : Except DecodeError Instr} {i : Instr} :
    whenZero ok r = .ok i ↔ ok = true ∧ r = .ok i := by
  cases ok <;> simp [whenZero]

theorem except_map_eq_ok_iff {ε α β : Type} {x : Except ε α} {f : α → β} {b : β} :
    x.map f = .ok b ↔ ∃ a, x = .ok a ∧ f a = b := by
  cases x <;> simp [Except.map]

theorem except_bind_eq_ok_iff {ε α β : Type} {x : Except ε α} {f : α → Except ε β} {b : β} :
    x.bind f = .ok b ↔ ∃ a, x = .ok a ∧ f a = .ok b := by
  cases x <;> simp [Except.bind]

theorem encode_of_decodeHost {w : Word} {i : Instr} (h : decodeHost w = .ok i) : encode i = w := by
  unfold decodeHost at h
  split at h
  case h_1 hop | h_2 hop | h_3 hop =>
    all_goals
    obtain ⟨rfl, hw⟩ := formatHN_eq_ok h
    rwa [(BitVec.toNat_eq_nat.1 hop).2] at hw
  case h_4 hop | h_5 hop | h_6 hop =>
    all_goals
    obtain ⟨a, rfl, hw⟩ := formatHA_eq_ok h
    rwa [(BitVec.toNat_eq_nat.1 hop).2] at hw
  case h_7 hop =>
    obtain ⟨cid, p0, p1, rfl, hw⟩ := formatHS_eq_ok h
    rwa [(BitVec.toNat_eq_nat.1 hop).2] at hw
  case h_8 => cases h

/-- A micro-op read from a word's fields is encoded by these fields (R105, R106). -/
theorem encode_of_decodeUopFields {w : Word} {i : Instr} (h : decodeUopFields w = .ok i) :
    encode i = encUop (uopOp w) (uopA w) (uopB w) (uopC w) := by
  unfold decodeUopFields at h
  split at h
  case h_10 => cases h
  case h_8 hop =>
    cases h
    rw [(BitVec.toNat_eq_nat.1 hop).2]
    rfl
  all_goals
    rename_i hop
    rw [(BitVec.toNat_eq_nat.1 hop).2]
    simp only [whenZero_eq_ok_iff, except_map_eq_ok_iff, except_bind_eq_ok_iff, phaseOfCode_eq_ok_iff,
      delayOfId_eq_ok_iff, srcOfId_eq_ok_iff, Bool.and_eq_true, beq_iff_eq] at h
  case h_1 | h_6 | h_7 =>
    all_goals
    obtain ⟨⟨⟨ha, hb⟩, hc⟩, hi⟩ := h
    cases hi
    rw [ha, hb, hc]
    rfl
  case h_2 | h_5 =>
    all_goals
    obtain ⟨⟨hb, hc⟩, _, ha, rfl⟩ := h
    rw [← ha, hb, hc]
    rfl
  case h_3 =>
    obtain ⟨hc, _, hb, rfl⟩ := h
    rw [← hb, hc]
    rfl
  case h_4 =>
    obtain ⟨_, hb, _, hc, rfl⟩ := h
    rw [← hb, ← hc]
    rfl
  case h_9 =>
    obtain ⟨⟨⟨ha, hb⟩, hc⟩, hi⟩ := h
    cases hi
    rw [hb, hc, encode, rstline_operand_eq ha]
    rfl

theorem encode_of_decodeUop {w : Word} {i : Instr} (h : decodeUop w = .ok i) : encode i = w := by
  unfold decodeUop at h
  split at h
  · rw [encode_of_decodeUopFields h, encUop_fields ‹_›]
  · cases h

/-- Settles O3: an admitted word is put together from its fields, and an admitted field from its code. -/
theorem everyDecodedWordIsItsEncoding : Obligations.EveryDecodedWordIsItsEncoding := fun _ _ =>
  ⟨fun h => ⟨decodeHost_isHost h, encode_of_decodeHost h⟩, fun h => ⟨decodeUop_isHost h, encode_of_decodeUop h⟩⟩

/-- Settles O4: eight fixed words, decoded by evaluation. -/
theorem sampleWordsDecode : Obligations.SampleWordsDecode := by
  unfold Obligations.SampleWordsDecode
  decide

end Sys2Proof.Machine
end

section
/-! PROOFS. Illegal command words and what a write of one to CMD does (30_encoding.md R112), and which words are
well-formed micro-ops of a profile (R105, R107, R113). -/

namespace Sys2Proof.Machine

/-! ## Illegal command words -/

theorem reservedBits_fails_iff {zero : Prop} [Decidable zero] {i : Instr} :
    (∃ e, (if zero then .ok i else .error .reservedBits : Except DecodeError Instr) = .error e) ↔ ¬ zero := by
  split <;> simp [*]

/-- A command word is illegal if its opcode is reserved or a bit that its format marks reserved is 1 (R112). -/
theorem decodeHost_fails_iff (w : Word) : (∃ e, decodeHost w = .error e) ↔
    (hostOp w).toNat = 0 ∨ 8 ≤ (hostOp w).toNat ∨ ((hostOp w).toNat ≤ 3 ∧ w.extractLsb' 4 28 ≠ 0) ∨
    (4 ≤ (hostOp w).toNat ∧ (hostOp w).toNat ≤ 6 ∧ w.extractLsb' 4 12 ≠ 0) ∨
    ((hostOp w).toNat = 7 ∧ w.extractLsb' 4 4 ≠ 0) := by
  unfold decodeHost
  split
  case h_1 hop | h_2 hop | h_3 hop => all_goals simp [formatHN, reservedBits_fails_iff, hop]
  case h_4 hop | h_5 hop | h_6 hop => all_goals simp [formatHA, reservedBits_fails_iff, hop]
  case h_7 hop => simp [formatHS, reservedBits_fails_iff, hop]
  case h_8 =>
    simp only [imp_false] at *
    have hreserved : (hostOp w).toNat = 0 ∨ 8 ≤ (hostOp w).toNat := by omega
    exact ⟨fun _ => or_assoc.1 (.inl hreserved), fun _ => ⟨_, rfl⟩⟩

/-- A CMD write of an illegal word to an idle Engine (R112, R181, R226). -/
theorem onCmdWrite_illegal {s : State} {w : Word} {e : DecodeError} (hd : decodeHost w = .error e)
    (hb : s.busy = false) :
    onCmdWrite w s = .next (refuseCommand .illegalCommand (beginCommand (hostOp w) s)) := by
  simp [onCmdWrite, hb, hd]

/-- A CMD write of any word to a busy Engine (R182). -/
theorem onCmdWrite_busy {s : State} (w : Word) (hb : s.busy = true) : onCmdWrite w s = .next (rejectCmd s) := by
  simp [onCmdWrite, hb]

theorem hostAccess_cmd (w : Word) (s : State) : hostAccess (.write 0x14 4 w) s = onCmdWrite w (respond .done s) := rfl

/-- Settles O5: the host decoder's errors opcode by opcode, and the two ways in which a CMD write is refused. -/
theorem illegalCommandWords : Obligations.IllegalCommandWords :=
  ⟨decodeHost_fails_iff,
    fun s _ _ hd hb => ⟨some .done, (hostAccess_cmd _ s).trans (onCmdWrite_illegal (s := respond .done s) hd hb)⟩,
    fun s w hb => ⟨some .done, (hostAccess_cmd w s).trans (onCmdWrite_busy (s := respond .done s) w hb)⟩⟩

/-! ## Codes with a meaning -/

theorem phaseOfCode_ok_iff (code : Byte) : (∃ p, phaseOfCode code = .ok p) ↔ code.toNat ≤ 10 := by
  unfold phaseOfCode
  split
  case h_12 =>
    simp only [imp_false, reduceCtorEq, exists_false, false_iff] at *
    omega
  all_goals simp [*]

theorem delayOfId_ok_iff (id : Byte) : (∃ d, delayOfId id = .ok d) ↔ id.toNat ≤ 1 := by
  unfold delayOfId
  split
  case h_3 =>
    simp only [imp_false, reduceCtorEq, exists_false, false_iff] at *
    omega
  all_goals simp [*]

/-- The sources of a profile are its literals and the codes 0x80 to 0x85 (R107, R113). -/
theorem srcOfId_wf_iff (p : Profile) (id : Byte) :
    (∃ v, srcOfId id = .ok v ∧ v.wf p = true) ↔ sourceInside p id := by
  unfold srcOfId sourceInside
  split
  case isTrue h =>
    have hw : (id.setWidth 7).toNat = id.toNat := by rw [BitVec.toNat_setWidth, Nat.mod_eq_of_lt h]
    simp only [Except.ok.injEq, exists_eq_left', Src.wf, Profile.hasLit, hw, decide_eq_true_eq]
    omega
  case isFalse h =>
    split
    case h_7 =>
      simp only [imp_false, reduceCtorEq, false_and, exists_false, false_iff] at *
      omega
    all_goals simp [Src.wf, *]

/-! ## Well-formed micro-op words -/

theorem exists_whenZero_iff {ok : Bool} {r : Except DecodeError Instr} {P : Instr → Prop} :
    (∃ i, whenZero ok r = .ok i ∧ P i) ↔ ok = true ∧ ∃ i, r = .ok i ∧ P i := by
  simp [whenZero_eq_ok_iff, and_assoc]

theorem exists_except_map_iff {ε α β : Type} {x : Except ε α} {f : α → β} {P : β → Prop} :
    (∃ b, x.map f = .ok b ∧ P b) ↔ ∃ a, x = .ok a ∧ P (f a) := by
  simp [except_map_eq_ok_iff]

theorem exists_except_bind_iff {ε α β : Type} {x : Except ε α} {f : α → Except ε β} {P : β → Prop} :
    (∃ b, x.bind f = .ok b ∧ P b) ↔ ∃ a, x = .ok a ∧ ∃ b, f a = .ok b ∧ P b := by
  simp only [except_bind_eq_ok_iff]
  exact ⟨fun ⟨b, ⟨a, ha, hb⟩, hP⟩ => ⟨a, ha, b, hb, hP⟩, fun ⟨a, ha, b, hb, hP⟩ => ⟨b, ⟨a, ha, hb⟩, hP⟩⟩

/-- The table of R105 with the bounds of R113, for the fields of a micro-op word. -/
theorem decodeUopFields_wf_iff (p : Profile) (w : Word) :
    (∃ i, decodeUopFields w = .ok i ∧ i.wf p = true) ↔
    (((uopOp w).toNat = 0 ∨ (uopOp w).toNat = 5 ∨ (uopOp w).toNat = 6) ∧ uopA w = 0 ∧ uopB w = 0 ∧ uopC w = 0) ∨
    ((uopOp w).toNat = 1 ∧ (uopA w).toNat ≤ 10 ∧ uopB w = 0 ∧ uopC w = 0) ∨
    ((uopOp w).toNat = 2 ∧ (uopA w).toNat < p.regmap.length ∧ sourceInside p (uopB w) ∧ uopC w = 0) ∨
    ((uopOp w).toNat = 3 ∧ (uopA w).toNat < p.regmap.length ∧ sourceInside p (uopB w) ∧ sourceInside p (uopC w)) ∨
    ((uopOp w).toNat = 4 ∧ (uopA w).toNat ≤ 1 ∧ uopB w = 0 ∧ uopC w = 0) ∨
    (uopOp w).toNat = 7 ∨
    ((uopOp w).toNat = 8 ∧ (uopA w).toNat ≤ 1 ∧ uopB w = 0 ∧ uopC w = 0) := by
  unfold decodeUopFields
  split
  case h_1 hop | h_6 hop | h_7 hop => all_goals simp [hop, exists_whenZero_iff, Instr.wf, and_assoc]
  case h_2 hop => simp [hop, exists_whenZero_iff, exists_except_map_iff, Instr.wf, phaseOfCode_ok_iff, and_comm]
  case h_3 hop =>
    simp only [hop, exists_whenZero_iff, exists_except_map_iff, Instr.wf, Profile.hasReg, Bool.and_eq_true]
    simp [← srcOfId_wf_iff, and_comm, and_left_comm]
  case h_4 hop =>
    simp only [exists_except_bind_iff, exists_except_map_iff, Instr.wf, Profile.hasReg, Bool.and_eq_true,
      decide_eq_true_eq]
    have hand : (∃ m, srcOfId (uopB w) = .ok m ∧ ∃ v, srcOfId (uopC w) = .ok v ∧
        ((uopA w).toNat < p.regmap.length ∧ m.wf p = true) ∧ v.wf p = true) ↔
        (uopA w).toNat < p.regmap.length ∧ sourceInside p (uopB w) ∧ sourceInside p (uopC w) := by
      rw [← srcOfId_wf_iff, ← srcOfId_wf_iff]
      exact ⟨fun ⟨m, hm, v, hv, ⟨hr, hmw⟩, hvw⟩ => ⟨hr, ⟨m, hm, hmw⟩, ⟨v, hv, hvw⟩⟩,
        fun ⟨hr, ⟨m, hm, hmw⟩, ⟨v, hv, hvw⟩⟩ => ⟨m, hm, v, hv, ⟨hr, hmw⟩, hvw⟩⟩
    simp [hop, hand]
  case h_5 hop => simp [hop, exists_whenZero_iff, exists_except_map_iff, Instr.wf, delayOfId_ok_iff, and_comm]
  case h_8 hop => simp [hop, Instr.wf]
  case h_9 hop =>
    simp only [hop, exists_whenZero_iff, Bool.and_eq_true, beq_iff_eq, rstline_operand_iff]
    simp [Instr.wf, and_assoc]
  case h_10 =>
    simp only [imp_false, reduceCtorEq, false_and, exists_false, false_iff] at *
    simp [*]

theorem wordOk_iff {p : Profile} {w : Word} : wordOk p w = true ↔ ∃ i, decodeUop w = .ok i ∧ i.wf p = true := by
  unfold wordOk
  split <;> simp [*]

theorem wordOk_iff_fields {p : Profile} {w : Word} :
    wordOk p w = true ↔ w.extractLsb' 0 4 = 0 ∧ ∃ i, decodeUopFields w = .ok i ∧ i.wf p = true := by
  rw [wordOk_iff, decodeUop]
  split <;> simp only [*, true_and, false_and, reduceCtorEq, exists_false]

/-! ## Indices outside the profile -/

theorem regAddr_eq_none_iff {p : Profile} {index : Byte} : regAddr p index = none ↔ p.hasReg index = false := by
  simp [regAddr, Profile.hasReg]

theorem srcValue_eq_none_iff {s : State} {v : Src} : srcValue s v = none ↔ v.wf s.build.profile = false := by
  cases v with
  | lit => simp [srcValue, litValue, Src.wf, Profile.hasLit]
  | zero | plldiv | pllctlNoclk | pllctlClk | hsync | vsync => simp [srcValue, Src.wf]

/-- A micro-op's register access is there exactly if its indices lie inside the profile (R107, R109, R113). -/
theorem accessOf_uWr_eq_none_iff {s : State} {reg : Byte} {v : Src} :
    accessOf s (.uWr reg v) = none ↔ (Instr.uWr reg v).wf s.build.profile = false := by
  rw [Instr.wf, Bool.and_eq_false_iff, ← regAddr_eq_none_iff, ← srcValue_eq_none_iff, accessOf]
  cases regAddr s.build.profile reg <;> cases srcValue s v <;> simp

theorem accessOf_uUpd_eq_none_iff {s : State} {reg : Byte} {m v : Src} :
    accessOf s (.uUpd reg m v) = none ↔ (Instr.uUpd reg m v).wf s.build.profile = false := by
  rw [Instr.wf, Bool.and_eq_false_iff, Bool.and_eq_false_iff, ← regAddr_eq_none_iff, ← srcValue_eq_none_iff,
    ← srcValue_eq_none_iff, accessOf]
  cases regAddr s.build.profile reg <;> cases srcValue s m <;> cases srcValue s v <;> simp

theorem exec_uWr_refused {s : State} {reg : Byte} {v : Src} (h : accessOf s (.uWr reg v) = none) :
    exec (.uWr reg v) s = .refused (.illFormedMicroOp s.rom s.romStep) := by
  rw [exec, execUWr]
  split
  · simp [accessOf, *] at h
  · rfl

theorem exec_uUpd_refused {s : State} {reg : Byte} {m v : Src} (h : accessOf s (.uUpd reg m v) = none) :
    exec (.uUpd reg m v) s = .refused (.illFormedMicroOp s.rom s.romStep) := by
  rw [exec, execUUpd]
  split
  · simp [accessOf, *] at h
  · rfl

/-- Settles O6: the micro-op decoder opcode by opcode, and the missing access of an index outside the profile. -/
theorem wellFormedMicroOpWords : Obligations.WellFormedMicroOpWords :=
  ⟨fun p w => wordOk_iff_fields.trans (and_congr_right fun _ => decodeUopFields_wf_iff p w), fun _ _ _ _ =>
    ⟨fun h => exec_uWr_refused (accessOf_uWr_eq_none_iff.2 h),
      fun h => exec_uUpd_refused (accessOf_uUpd_eq_none_iff.2 h)⟩⟩

end Sys2Proof.Machine
end

section
/-! PROOFS. The schedule ROMs of an admissible profile are well formed, so exactly the admissible profiles build
(44_sequencer.md R196, R198, R200, R201). -/

namespace Sys2Proof.Machine

/-! ## The templates' micro-ops -/

/-- The template of a schedule ROM (R196, R198). -/
def romInstrs (p : Profile) : RomSel → List Instr
  | .bringup => bringupInstrs p
  | .teardown => teardownInstrs p

/-- A micro-op that is well formed against a profile (R113). -/
def microOpOk (p : Profile) (i : Instr) : Bool := !i.isHost && i.wf p

theorem microOpOk_iff {p : Profile} {i : Instr} : microOpOk p i = true ↔ i.isHost = false ∧ i.wf p = true := by
  simp [microOpOk]

theorem romInstrs_ok {p : Profile} (h : rolesOk p = true) (r : RomSel) : (romInstrs p r).all (microOpOk p) = true := by
  simp only [rolesOk, List.all_cons, List.all_nil, Bool.and_true, Bool.and_eq_true, List.all_eq_true] at h
  obtain ⟨⟨⟨hreg, hlit⟩, hphy⟩, hfixed⟩ := h
  have hparts : (bringupPhy p).all (microOpOk p) = true ∧ (bringupFixed p).all (microOpOk p) = true := by
    simp only [bringupPhy, bringupFixed, List.all_map, List.all_eq_true]
    refine ⟨fun r hr => ?_, fun e he => ?_⟩
    · simp [microOpOk, Instr.isHost, Instr.wf, Src.wf, hphy r hr, hlit]
    · simp [microOpOk, Instr.isHost, Instr.wf, Src.wf, hfixed e he]
  cases r with
  | bringup =>
    simp [romInstrs, bringupInstrs, bringupPll, bringupTail, setb, clrb, microOpOk, Instr.isHost, Instr.wf, Src.wf,
      hreg, hlit, hparts, List.all_append, -List.all_eq_true]
  | teardown =>
    simp [romInstrs, teardownInstrs, setb, clrb, microOpOk, Instr.isHost, Instr.wf, Src.wf, hreg, hlit]

/-! ## R201 item 5: U.END stands last and nowhere else -/

/-- The one U.END of a ROM is its last word (R201 item 5). -/
def endsOnce : List Instr → Prop
  | [] => False
  | [i] => i = .uEnd
  | i :: is => i ≠ .uEnd ∧ endsOnce is

theorem endsOnce_cons {i : Instr} {is : List Instr} (hi : i ≠ .uEnd) (h : endsOnce is) : endsOnce (i :: is) := by
  cases is with
  | nil => exact h.elim
  | cons j is => exact ⟨hi, h⟩

theorem endsOnce_append {xs ys : List Instr} (hx : ∀ i ∈ xs, i ≠ .uEnd) (hy : endsOnce ys) : endsOnce (xs ++ ys) := by
  induction xs with
  | nil => exact hy
  | cons i xs ih => exact endsOnce_cons (hx i List.mem_cons_self) (ih fun j hj => hx j (List.mem_cons_of_mem i hj))

theorem romInstrs_endsOnce (p : Profile) (r : RomSel) : endsOnce (romInstrs p r) := by
  cases r with
  | bringup =>
    refine endsOnce_append (fun i hi => ?_) (ys := bringupTail p) (by simp [bringupTail, endsOnce, setb, clrb])
    simp only [bringupPll, bringupPhy, bringupFixed, List.mem_append, List.mem_cons, List.mem_map, List.not_mem_nil,
      or_false] at hi
    rintro rfl
    simp at hi
  | teardown => simp [romInstrs, teardownInstrs, endsOnce, setb, clrb]

theorem encode_eq_uEnd_iff {i : Instr} (h : i.isHost = false) : encode i = encode .uEnd ↔ i = .uEnd := by
  refine ⟨fun he => ?_, fun he => by rw [he]⟩
  have hd := decodeUop_encode h
  rw [he, decodeUop_encode rfl] at hd
  exact (Except.ok.inj hd).symm

theorem wordOk_encode {p : Profile} {i : Instr} (h : microOpOk p i = true) : wordOk p (encode i) = true := by
  obtain ⟨hh, hwf⟩ := microOpOk_iff.1 h
  exact wordOk_iff.2 ⟨i, decodeUop_encode hh, hwf⟩

theorem firstIllFormed_map_encode {p : Profile} : ∀ {is : List Instr} (k : Nat), is.all (microOpOk p) = true →
    endsOnce is → firstIllFormed p k (is.map encode) = none
  | [], _, _, hend => hend.elim
  | [i], k, hok, hend => by
    have hi : i = .uEnd := hend
    subst hi
    have : wordOk p (encode .uEnd) = true := wordOk_encode rfl
    simp [firstIllFormed, this]
  | i :: j :: is, k, hok, hend => by
    obtain ⟨hne, hend⟩ := hend
    obtain ⟨hi, hok⟩ := Bool.and_eq_true_iff.1 (List.all_cons.symm.trans hok)
    have ih := firstIllFormed_map_encode (k + 1) hok hend
    have hw : encode i ≠ encode .uEnd := fun he => hne ((encode_eq_uEnd_iff (microOpOk_iff.1 hi).1).1 he)
    simpa [firstIllFormed, wordOk_encode hi, hw] using ih

/-! ## R201 item 6: results are produced before they are used -/

/-- Every micro-op of a ROM's rest may stand where it stands, after a U.SOLVE (`solved`) and a U.DERIVE (`derived`). -/
def inUseOrder : Bool → Bool → List Instr → Prop
  | _, _, [] => True
  | solved, derived, i :: is =>
    useOk solved derived i = true ∧ inUseOrder (solved || decide (i = .uSolve)) (derived || decide (i = .uDerive)) is

theorem useOk_mono {s d : Bool} {i : Instr} (a b : Bool) (h : useOk s d i = true) :
    useOk (s || a) (d || b) i = true := by
  cases i with
  | uDerive => exact Bool.or_eq_true_iff.2 (.inl h)
  | uWr | uUpd =>
    simp only [useOk, Bool.and_eq_true, Bool.or_eq_true] at h ⊢
    exact ⟨h.1.imp_left .inl, h.2.imp_left .inl⟩
  | enable | disable | hSolve | hRegwr | hRegrd | hRegupd | hShort | uEnd | uPhase | uWait | uSolve | uShort
  | uRstline => rfl

theorem useOk_both (i : Instr) : useOk true true i = true := by cases i <;> rfl

theorem inUseOrder_of_forall {s d : Bool} {is : List Instr} (h : ∀ i ∈ is, useOk s d i = true) : inUseOrder s d is := by
  induction is generalizing s d with
  | nil => trivial
  | cons i is ih =>
    exact ⟨h i List.mem_cons_self, ih fun j hj => useOk_mono _ _ (h j (List.mem_cons_of_mem i hj))⟩

theorem inUseOrder_mono {s d : Bool} {is : List Instr} (a b : Bool) (h : inUseOrder s d is) :
    inUseOrder (s || a) (d || b) is := by
  induction is generalizing s d with
  | nil => trivial
  | cons i is ih =>
    refine ⟨useOk_mono a b h.1, ?_⟩
    rw [Bool.or_right_comm s, Bool.or_right_comm d]
    exact ih h.2

theorem inUseOrder_append {s d : Bool} {xs ys : List Instr} (hx : inUseOrder s d xs) (hy : inUseOrder s d ys) :
    inUseOrder s d (xs ++ ys) := by
  induction xs generalizing s d with
  | nil => exact hy
  | cons i xs ih => exact ⟨hx.1, ih hx.2 (inUseOrder_mono _ _ hy)⟩

theorem romInstrs_inUseOrder (p : Profile) (r : RomSel) : inUseOrder false false (romInstrs p r) := by
  cases r with
  | bringup =>
    have hphy : inUseOrder true false (bringupPhy p) :=
      inUseOrder_of_forall (by simp [bringupPhy, useOk, srcUsesTiming])
    have hrest : inUseOrder true false ([.uPhase .phyEnabled, .uDerive] ++ (bringupFixed p ++ bringupTail p)) :=
      ⟨rfl, rfl, inUseOrder_of_forall fun i _ => useOk_both i⟩
    have := inUseOrder_append hphy hrest
    simpa [romInstrs, bringupInstrs, bringupPll, inUseOrder, useOk, srcUsesSolution, srcUsesTiming] using this
  | teardown =>
    refine inUseOrder_of_forall ?_
    simp [romInstrs, teardownInstrs, setb, clrb, useOk, srcUsesSolution, srcUsesTiming]

theorem firstEarlyUse_map_encode {s d : Bool} {is : List Instr} (k : Nat) (hh : ∀ i ∈ is, i.isHost = false)
    (h : inUseOrder s d is) : firstEarlyUse s d k (is.map encode) = none := by
  induction is generalizing s d k with
  | nil => rfl
  | cons i is ih =>
    have hd := decodeUop_encode (hh i List.mem_cons_self)
    have hsame : ∀ j : Instr, (i == j) = decide (i = j) := fun j => beq_eq_decide i j
    simp [firstEarlyUse, hd, hsame, h.1, ih _ (fun j hj => hh j (List.mem_cons_of_mem i hj)) h.2]

/-! ## Building -/

/-- What R200 and items 1 to 4 of R201 ask of a profile, and R9 of the clock. -/
def Admissible (p : Profile) (clkHz : Nat) : Prop :=
  p.regmap.length ≤ 256 ∧ p.lit.length ≤ 128 ∧ rolesOk p = true ∧ frameBitsOk p = true ∧ nonZeroBitsOk p = true ∧
    28 + p.phyLanes.length + p.timingFixed.length ≤ 256 ∧ 0 < clkHz

theorem admissible_of_buildOf {p : Profile} {hasResetLine : Bool} {clkHz : Nat} {b : Build}
    (h : buildOf p hasResetLine clkHz = .ok b) : Admissible p clkHz := by
  unfold buildOf at h
  split_ifs at h with hlen hroles hframe hzero hrom hclk
  exact ⟨by omega, by omega, by simpa using hroles, by simpa using hframe, by simpa using hzero, by omega, by omega⟩

theorem buildOf_of_admissible {p : Profile} {hasResetLine : Bool} {clkHz : Nat} (h : Admissible p clkHz) :
    buildOf p hasResetLine clkHz = .ok ⟨p, hasResetLine, clkHz, bringupRom p, teardownRom p⟩ := by
  obtain ⟨hreg, hlit, hroles, hframe, hzero, hrom, hclk⟩ := h
  have hmicro : ∀ r, ∀ i ∈ romInstrs p r, i.isHost = false := fun r i hi =>
    (microOpOk_iff.1 (List.all_eq_true.1 (romInstrs_ok hroles r) i hi)).1
  have hwf : ∀ r, firstIllFormed p 0 ((romInstrs p r).map encode) = none := fun r =>
    firstIllFormed_map_encode 0 (romInstrs_ok hroles r) (romInstrs_endsOnce p r)
  have huse : ∀ r, firstEarlyUse false false 0 ((romInstrs p r).map encode) = none := fun r =>
    firstEarlyUse_map_encode 0 (hmicro r) (romInstrs_inUseOrder p r)
  have h1 : firstIllFormed p 0 (bringupRom p) = none := hwf .bringup
  have h2 : firstIllFormed p 0 (teardownRom p) = none := hwf .teardown
  have h3 : firstEarlyUse false false 0 (bringupRom p) = none := huse .bringup
  have h4 : firstEarlyUse false false 0 (teardownRom p) = none := huse .teardown
  rw [buildOf, if_neg (by omega), if_neg (by simp [hroles]), if_neg (by simp [hframe]), if_neg (by simp [hzero]),
    if_neg (by omega), if_neg (by omega), h1, h2, h3, h4]

/-- Settles O7: an admissible profile's templates pass the checks of items 5 and 6, so only the others decide. -/
theorem everyAdmissibleProfileBuilds : Obligations.EveryAdmissibleProfileBuilds := by
  intro p hasResetLine clkHz b
  refine ⟨fun h => ?_, fun ⟨hadm, hb⟩ => hb ▸ buildOf_of_admissible hadm⟩
  have hadm := admissible_of_buildOf h
  rw [buildOf_of_admissible hadm] at h
  exact ⟨hadm, (Except.ok.inj h).symm⟩

end Sys2Proof.Machine
end

section
/-! PROOFS. A DBBE built from an admissible profile never faults and never refuses (30_encoding.md R113,
43_timing_derivation.md R175, 44_sequencer.md R186, R201). -/

namespace Sys2Proof.Machine

/-! ## Operations that always have a next state -/

theorem runAccess_exists_next (access : Access) (s : State) (done : State → State) :
    ∃ t, runAccess access s (fun m => .next (done m)) = .next t := by
  obtain ⟨_, _, h⟩ | ⟨_, _, _, _, h⟩ | ⟨_, _, _, h⟩ | ⟨_, _, h⟩ :=
    runAccess_cases access s fun m => .next (done m)
  all_goals exact ⟨_, h⟩

theorem exec_access_exists_next {s : State} {i : Instr} (ha : accessOf s i ≠ none)
    (hrun : i.isHost = true → s.busy = true ∧ s.op = startedOp i) : ∃ t, exec i s = .next t := by
  obtain ⟨access, ha⟩ := Option.ne_none_iff_exists'.1 ha
  rw [exec_access ha hrun]
  exact runAccess_exists_next access s (afterAccess i)

theorem solve_exists_next {s : State} (done : State → State) (hc : configOk s.acfg = true) :
    ∃ t, solve s (fun m => .next (done m)) = .next t := by
  obtain ⟨h, _⟩ | ⟨_, _, h⟩ | ⟨_, _, _, ⟨_, h⟩ | ⟨_, h⟩⟩ := solve_cases s fun m => .next (done m)
  · simp [hc] at h
  all_goals exact ⟨_, h⟩

theorem derive_exists_next {s : State} (done : State → State) (hv : s.valid = true) (hc : configOk s.acfg = true) :
    ∃ t, derive s (fun m => .next (done m)) = .next t := by
  obtain ⟨h, _⟩ | ⟨_, h, _⟩ | ⟨_, _, h⟩ := derive_cases s fun m => .next (done m)
  · simp [hv] at h
  · simp [hc] at h
  · exact ⟨_, h⟩

theorem shortAddrs_ne_none {p : Profile} (h : rolesOk p = true) : shortAddrs p ≠ none := by
  have hreg : ∀ r, p.hasReg r = true → ∃ a, regAddr p r = some a := fun r hr =>
    Option.ne_none_iff_exists'.1 fun hn => by simp [regAddr_eq_none_iff.1 hn] at hr
  simp only [rolesOk, List.all_cons, Bool.and_eq_true] at h
  obtain ⟨_, hh⟩ := hreg p.scHeader (by simp [h])
  obtain ⟨_, hw⟩ := hreg p.scWordcount (by simp [h])
  obtain ⟨_, hd⟩ := hreg p.scPayload (by simp [h])
  obtain ⟨_, ht⟩ := hreg p.scTrigger (by simp [h])
  simp [shortAddrs, hh, hw, hd, ht]

/-! ## Instructions -/

/-- A well-formed micro-op has a next state, a U.SOLVE or U.DERIVE where its configuration and solution are there. -/
theorem exec_microOp_exists_next {s : State} {i : Instr} (hi : microOpOk s.build.profile i = true)
    (hroles : rolesOk s.build.profile = true) (hsolve : i = .uSolve → configOk s.acfg = true)
    (hderive : i = .uDerive → s.valid = true ∧ configOk s.acfg = true) : ∃ t, exec i s = .next t := by
  obtain ⟨hh, hwf⟩ := microOpOk_iff.1 hi
  have access : accessOf s i ≠ none → ∃ t, exec i s = .next t := fun ha =>
    exec_access_exists_next ha fun h => by simp [hh] at h
  cases i with
  | enable | disable | hSolve | hRegwr | hRegrd | hRegupd | hShort => cases hh
  | uEnd | uPhase | uRstline => exact ⟨_, rfl⟩
  | uWait d =>
    obtain ⟨_, h⟩ | ⟨_, _, h⟩ | ⟨_, _, h⟩ := wait_cases (delayMinUs d) s fun t => .next (advance t)
    all_goals exact ⟨_, h⟩
  | uSolve => exact solve_exists_next advance (hsolve rfl)
  | uDerive => exact derive_exists_next advance (hderive rfl).1 (hderive rfl).2
  | uWr => exact access fun hn => by simp [accessOf_uWr_eq_none_iff.1 hn] at hwf
  | uUpd => exact access fun hn => by simp [accessOf_uUpd_eq_none_iff.1 hn] at hwf
  | uShort => exact access (by simpa [accessOf] using shortAddrs_ne_none hroles)

/-- A host command to an idle Engine is accepted or refused with an error code (R181). -/
theorem exec_host_idle_exists_next {s : State} {i : Instr} (hh : i.isHost = true) (hb : s.busy = false) :
    ∃ t, exec i s = .next t := by
  cases i with
  | enable =>
    simp only [exec, execEnable, hb]
    cases configOk s.cfg <;> exact ⟨_, rfl⟩
  | disable => exact ⟨_, by simp only [exec, execDisable, hb]; rfl⟩
  | hSolve => exact ⟨_, by rw [exec, execHSolve, direct_idle hb]⟩
  | hRegwr => exact ⟨_, by rw [exec, execHRegwr, direct_idle hb]⟩
  | hRegrd => exact ⟨_, by rw [exec, execHRegrd, direct_idle hb]⟩
  | hRegupd => exact ⟨_, by rw [exec, execHRegupd, direct_idle hb]⟩
  | hShort => exact ⟨_, by rw [exec, execHShort, direct_idle hb]⟩
  | uEnd | uPhase | uWr | uUpd | uWait | uSolve | uDerive | uShort | uRstline => cases hh

/-- The next turn of a direct command that is running. -/
theorem exec_direct_exists_next {s : State} {i : Instr} (hc : ControlInv s) (hroles : rolesOk s.build.profile = true)
    (hb : s.busy = true) (hrun : ¬ romRunning s) (hi : currentInstr s = some i) : ∃ t, exec i s = .next t := by
  obtain ⟨hhost, hmicro⟩ := currentInstr_kind hi
  have hh : i.isHost = true := by simpa using mt hmicro hrun
  obtain ⟨ho, _, hne, hnd⟩ := hhost hh
  have access : accessOf s i ≠ none → ∃ t, exec i s = .next t := fun ha =>
    exec_access_exists_next ha fun _ => ⟨hb, ho⟩
  cases i with
  | enable => exact (hne rfl).elim
  | disable => exact (hnd rfl).elim
  | hSolve =>
    have ho : s.op = .solve := ho
    have hcfg := hc.config_ok (.inr ho)
    simp only [exec, execHSolve, direct, hb, ho, if_true]
    cases hd : s.solveDone
    · exact solve_exists_next markSolved hcfg
    · exact derive_exists_next finish (hc.solved ho hd) hcfg
  | hRegwr | hRegrd | hRegupd => exact access (Option.some_ne_none _)
  | hShort => exact access (by simpa [accessOf] using shortAddrs_ne_none hroles)
  | uEnd | uPhase | uWr | uUpd | uWait | uSolve | uDerive | uShort | uRstline => cases hh

/-! ## The ROMs of a well-formed build -/

theorem buildWf_iff {b : Build} : buildWf b = true ↔ buildOf b.profile b.hasResetLine b.clkHz = .ok b := by
  unfold buildWf
  split <;> simp [*]

theorem rolesOk_of_buildWf {b : Build} (h : buildWf b = true) : rolesOk b.profile = true := by
  obtain ⟨_, _, hroles, _⟩ := admissible_of_buildOf (buildWf_iff.1 h)
  exact hroles

theorem romWords_of_buildWf {b : Build} (h : buildWf b = true) (r : RomSel) :
    romWords b r = (romInstrs b.profile r).map encode := by
  have hb := buildWf_iff.1 h
  rw [buildOf_of_admissible (admissible_of_buildOf hb)] at hb
  rw [← Except.ok.inj hb]
  cases r <;> rfl

/-- The teardown neither solves nor derives (R198). -/
theorem teardown_no_solve {p : Profile} {i : Instr} (h : i ∈ romInstrs p .teardown) : i ≠ .uSolve ∧ i ≠ .uDerive := by
  refine ⟨?_, ?_⟩ <;> rintro rfl <;> simp [romInstrs, teardownInstrs, setb, clrb] at h

/-- The bring-up's U.DERIVE stands after its U.SOLVE, which has index 4 (R196). -/
theorem bringup_derive_index {p : Profile} {k : Nat} (h : (romInstrs p .bringup)[k]? = some .uDerive) : 4 < k := by
  by_contra hk
  have hk : k ≤ 4 := by omega
  interval_cases k <;> simp [romInstrs, bringupInstrs, bringupPll] at h

/-- The ROM that runs is that of the operation (R181). -/
theorem ControlInv.rom_running {s : State} (hc : ControlInv s) (hrun : romRunning s) :
    (s.op = .enable ∧ s.rom = some .bringup) ∨ (s.op = .disable ∧ s.rom = some .teardown) :=
  hrun.imp (fun ho => ⟨ho, hc.enable_rom ho⟩) fun ho => ⟨ho, hc.disable_rom ho⟩

/-- The word that a running ROM fetches is that of a micro-op of its template (R186, R196, R198). -/
theorem RomInv.fetch {s : State} (hi : RomInv s) (hrun : romRunning s) {r : RomSel} (hr : s.rom = some r) :
    ∃ i, (romInstrs s.build.profile r)[s.romStep.toNat]? = some i ∧ fetchWord s = some (encode i) := by
  have hlt := hi.in_rom r hrun hr
  have hwords := romWords_of_buildWf hi.build_wf r
  rw [hwords, List.length_map] at hlt
  refine ⟨_, List.getElem?_eq_getElem hlt, ?_⟩
  rw [fetchWord, hr]
  simp [hwords, hlt]

/-! ## Turns and steps -/

theorem romTurn_exists_next {s : State} (hc : ControlInv s) (hi : RomInv s) (hrun : romRunning s) :
    ∃ t, romTurn s = .next t := by
  have hroles := rolesOk_of_buildWf hi.build_wf
  have turn : ∀ r i, s.rom = some r → (romInstrs s.build.profile r)[s.romStep.toNat]? = some i →
      fetchWord s = some (encode i) → (i = .uSolve → configOk s.acfg = true) →
      (i = .uDerive → s.valid = true ∧ configOk s.acfg = true) → ∃ t, romTurn s = .next t := by
    intro r i hr hmem hf hsolve hderive
    have hok := List.all_eq_true.1 (romInstrs_ok hroles r) i (List.mem_of_getElem? hmem)
    have hd := decodeUop_encode (microOpOk_iff.1 hok).1
    have hturn : romTurn s = exec i (mirrorStep s) := by simp only [romTurn, hf, hd]
    rw [hturn]
    exact exec_microOp_exists_next hok hroles hsolve hderive
  obtain ⟨ho, hr⟩ | ⟨_, hr⟩ := hc.rom_running hrun
  · obtain ⟨i, hmem, hf⟩ := hi.fetch hrun hr
    have hcfg := hc.config_ok (.inl ho)
    refine turn _ i hr hmem hf (fun _ => hcfg) ?_
    rintro rfl
    exact ⟨hi.solved ho (bringup_derive_index hmem), hcfg⟩
  · obtain ⟨i, hmem, hf⟩ := hi.fetch hrun hr
    obtain ⟨hs, hd⟩ := teardown_no_solve (List.mem_of_getElem? hmem)
    exact turn _ i hr hmem hf (fun h => (hs h).elim) fun h => (hd h).elim

theorem engineTurn_exists_next {s : State} (hc : ControlInv s) (hi : RomInv s) : ∃ t, engineTurn s = .next t := by
  obtain ⟨_, h⟩ | ⟨_, _, h⟩ | ⟨_, hrun, h⟩ | ⟨i, hb, hrun, hcur, h⟩ := engineTurn_cases s
  · exact ⟨_, h⟩
  · exact ⟨_, h⟩
  · rw [h]; exact romTurn_exists_next hc hi hrun
  · rw [h]; exact exec_direct_exists_next hc (rolesOk_of_buildWf hi.build_wf) hb hrun hcur

theorem onCmdWrite_exists_next (w : Word) (s : State) : ∃ t, onCmdWrite w s = .next t := by
  cases hb : s.busy with
  | true => exact ⟨_, onCmdWrite_busy w hb⟩
  | false =>
    cases hd : decodeHost w with
    | error e => exact ⟨_, onCmdWrite_illegal hd hb⟩
    | ok i =>
      have hw : onCmdWrite w s = exec i s := by simp [onCmdWrite, hb, hd]
      rw [hw]
      exact exec_host_idle_exists_next (decodeHost_isHost hd) hb

theorem windowWrite_exists_next (o : Byte) (w : Word) (s : State) : ∃ t, windowWrite o w s = .next t := by
  unfold windowWrite
  split
  case h_6 => exact onCmdWrite_exists_next w s
  all_goals exact ⟨_, rfl⟩

theorem hostAccess_exists_next (a : HostAccess) (s : State) : ∃ t, hostAccess a s = .next t := by
  cases a with
  | read o n =>
    simp only [hostAccess]
    split <;> exact ⟨_, rfl⟩
  | write o n w =>
    simp only [hostAccess]
    split
    · exact windowWrite_exists_next o w _
    · exact ⟨_, rfl⟩

/-- Settles O58: only the Engine's turn can stop, and the invariants give it a well-formed word, a latched configuration
and, at U.DERIVE, a solution. -/
theorem wellFormedBlockNeverStops : Obligations.WellFormedBlockNeverStops := by
  intro s hc hi
  obtain ⟨_, h⟩ | ⟨j, _, _, h⟩ := step_cases s
  · rw [h]; exact engineTurn_exists_next hc hi
  · rw [h]
    cases j with
    | engine => exact engineTurn_exists_next (hc.env rfl) ⟨hi.build_wf, hi.in_rom, hi.solved⟩
    | host a => exact hostAccess_exists_next a _
    | answer | elapse | blockReset => exact ⟨_, rfl⟩

end Sys2Proof.Machine
end

section
/-! PROOFS. The values of the sources (30_encoding.md R107, 44_sequencer.md R200) and the waits' minimum (R108, R191,
R193, 70_reset_and_hazards.md R263). -/

namespace Sys2Proof.Machine

/-! ## Sources -/

/-- A field moved to its place in a word is the low 32 bits of the exact product. -/
theorem setWidth_shiftLeft_eq_ofNat {n : Nat} (x : BitVec n) (h : n ≤ 32) (k : Nat) :
    x.setWidth 32 <<< k = BitVec.ofNat 32 (x.toNat <<< k) := by
  rw [← BitVec.toNat_setWidth_of_le h]
  rfl

theorem encPlldiv_eq (p : Profile) (prd : BitVec 4) (fbd : BitVec 9) :
    encPlldiv p prd fbd =
      BitVec.ofNat 32 ((prd.toNat <<< p.prdShift.val) ||| (fbd.toNat <<< p.fbdShift.val)) := by
  rw [encPlldiv, setWidth_shiftLeft_eq_ofNat prd (by decide), setWidth_shiftLeft_eq_ofNat fbd (by decide),
    BitVec.ofNat_or]

theorem encPllctl_noclk_eq (p : Profile) (frs : BitVec 2) :
    encPllctl p frs false = BitVec.ofNat 32 ((frs.toNat <<< p.frsShift.val) ||| p.pllctlBase.toNat) := by
  rw [BitVec.ofNat_or, ← setWidth_shiftLeft_eq_ofNat frs (by decide), BitVec.ofNat_toNat,
    BitVec.setWidth_eq]
  exact BitVec.or_zero

theorem encPllctl_clk_eq (p : Profile) (frs : BitVec 2) :
    encPllctl p frs true =
      BitVec.ofNat 32 ((frs.toNat <<< p.frsShift.val) ||| p.pllctlBase.toNat ||| p.pllctlCken.toNat) := by
  rw [BitVec.ofNat_or, BitVec.ofNat_or, ← setWidth_shiftLeft_eq_ofNat frs (by decide), BitVec.ofNat_toNat,
    BitVec.ofNat_toNat, BitVec.setWidth_eq, BitVec.setWidth_eq]
  rfl

/-- Settles O11: source by source, the PLL words put together from their exact fields. -/
theorem sourceValues : Obligations.SourceValues := fun s =>
  ⟨fun _ => rfl, rfl, congrArg some (encPlldiv_eq _ s.prd s.fbd), congrArg some (encPllctl_noclk_eq _ s.frs),
    congrArg some (encPllctl_clk_eq _ s.frs), rfl, rfl⟩

/-! ## Waits -/

theorem uWait_starts {s : State} (d : Delay) (hw : s.waiting = false) : exec (.uWait d) s = .next (startWait s) := by
  simp [exec, execUWait, wait, hw]

theorem uWait_holds {s : State} {d : Delay} (hw : s.waiting = true) (h : s.now - s.waitStart < delayMinUs d) :
    exec (.uWait d) s = .next s := by
  simp [exec, execUWait, wait, hw, Nat.not_le.2 h]

theorem uWait_ends {s : State} {d : Delay} (hw : s.waiting = true) (h : delayMinUs d ≤ s.now - s.waitStart) :
    exec (.uWait d) s = .next (advance (endWait s)) := by
  simp [exec, execUWait, wait, hw, h]

/-- The counter is loaded with the minimum in cycles, rounded up (R263). -/
theorem delayCycles_bounds (clkHz minUs : Nat) :
    minUs * clkHz ≤ delayCycles clkHz minUs * 1000000 ∧
      delayCycles clkHz minUs * 1000000 < minUs * clkHz + 1000000 := by
  unfold delayCycles
  generalize minUs * clkHz = cycles
  omega

/-- When the counter has run out, the minimum has passed (R193, R235). -/
theorem delayCounter_zero {s : State} {d : Delay} (hclk : 0 < s.build.clkHz) (h : delayCounter d s = 0) :
    delayMinUs d ≤ s.now - s.waitStart := by
  have hload := (delayCycles_bounds s.build.clkHz (delayMinUs d)).1
  have hpassed : delayCycles s.build.clkHz (delayMinUs d) ≤ (s.now - s.waitStart) * s.build.clkHz / 1000000 :=
    Nat.sub_eq_zero_iff_le.1 h
  refine Nat.le_of_mul_le_mul_right ?_ hclk
  calc delayMinUs d * s.build.clkHz
      ≤ delayCycles s.build.clkHz (delayMinUs d) * 1000000 := hload
    _ ≤ (s.now - s.waitStart) * s.build.clkHz / 1000000 * 1000000 := Nat.mul_le_mul_right _ hpassed
    _ ≤ (s.now - s.waitStart) * s.build.clkHz := Nat.div_mul_le_self _ _

/-- Settles O36: the three turns of a wait, at the two minima, and the counter's rounding. -/
theorem uWaitHoldsForItsMinimum : Obligations.UWaitHoldsForItsMinimum :=
  ⟨fun _ d hw => uWait_starts d hw,
    fun _ hw => ⟨uWait_holds (d := .pllSettle) hw, uWait_ends (d := .pllSettle) hw⟩,
    fun _ hw => ⟨uWait_holds (d := .frame) hw, uWait_ends (d := .frame) hw⟩,
    fun s d hclk => and_assoc.1 ⟨delayCycles_bounds s.build.clkHz (delayMinUs d), delayCounter_zero hclk⟩⟩

end Sys2Proof.Machine
end

section
/-! PROOFS. The halves codec (41_register_access.md R130) and the bits that an update changes (R133, R134). -/

namespace Sys2Proof.Machine

/-! ## The halves codec -/

theorem split32_join32 (lo hi : Half) : split32 (join32 lo hi) = (lo, hi) := by
  rw [join32_eq_append, split32, lowHalf, highHalf, BitVec.extractLsb'_append_eq_right,
    BitVec.extractLsb'_append_eq_left]

theorem join32_split32 (v : Word) : join32 (split32 v).1 (split32 v).2 = v := by
  rw [join32_eq_append]
  exact BitVec.extractLsb'_append_extractLsb'

theorem join32_toNat (lo hi : Half) : (join32 lo hi).toNat = lo.toNat + 65536 * hi.toNat := by
  rw [join32_eq_append, BitVec.toNat_append, ← Nat.shiftLeft_add_eq_or_of_lt lo.isLt, Nat.shiftLeft_eq]
  omega

/-- Settles O9: the two round trips and the join's numeric value; the halves of the split are its definition. -/
theorem halvesCodecRoundTrips : Obligations.HalvesCodecRoundTrips :=
  ⟨fun v => ⟨rfl, rfl, join32_split32 v⟩, fun lo hi => ⟨split32_join32 lo hi, join32_toNat lo hi⟩⟩

/-! ## The bits of an updated value -/

theorem updateOperand_w32 {a : Addr} (h1 : 0x100 ≤ a.toNat) (h2 : a.toNat < 0x600) (v : Word) :
    updateOperand a v = v := by
  simp [updateOperand, widthClass_w32 h1 h2]

/-- Of a W16 register's mask or value only bits 15 to 0 count (R134). -/
theorem updateOperand_w16_getLsbD {a : Addr} (h : a.toNat < 0x100 ∨ 0x600 ≤ a.toNat) (v : Word) (i : Nat) :
    (updateOperand a v).getLsbD i = (decide (i < 16) && v.getLsbD i) := by
  by_cases hi : i < 16
  · simp [updateOperand, widthClass_w16 h, lowHalf, hi, show i < 32 by omega]
  · simp [updateOperand, widthClass_w16 h, lowHalf, hi]

theorem updateOperand_zero (a : Addr) : updateOperand a 0 = 0 := by
  unfold updateOperand
  split <;> rfl

/-- A bit is the value's where the mask operand has a 1, and else the old one (R133). -/
theorem updatedValue_getLsbD (a : Addr) (m v old : Word) {i : Nat} (hi : i < 32) :
    (updatedValue a m v old).getLsbD i =
      if (updateOperand a m).getLsbD i then (updateOperand a v).getLsbD i else old.getLsbD i := by
  rw [updatedValue, BitVec.getLsbD_or, BitVec.getLsbD_and, BitVec.getLsbD_and, BitVec.getLsbD_not]
  cases (updateOperand a m).getLsbD i <;> simp [hi]

/-- Settles O12: `updatedValue_getLsbD` with the operands of each width class, and with mask 0. -/
theorem updateChangesMaskedBitsOnly : Obligations.UpdateChangesMaskedBitsOnly := by
  intro a m v old
  refine ⟨fun ⟨h1, h2⟩ i hi => ?_, fun hw i hi => ?_, ?_⟩
  · rw [updatedValue_getLsbD a m v old hi, updateOperand_w32 h1 h2, updateOperand_w32 h1 h2]
  · rw [updatedValue_getLsbD a m v old hi, updateOperand_w16_getLsbD hw, updateOperand_w16_getLsbD hw]
    by_cases hlow : i < 16 <;> simp [hlow]
  · rw [updatedValue, updateOperand_zero]
    exact (congrArg (_ ||| ·) BitVec.and_zero).trans (BitVec.or_zero.trans BitVec.and_allOnes)

end Sys2Proof.Machine
end

section
/-! PROOFS. The register updates of H.REGUPD and U.UPD (41_register_access.md R133, R134, R137, R140): the reads, then
the writes if the value changes. -/

namespace Sys2Proof.Machine

/-! ## Reads and writes among the answered transactions -/

theorem readsGiven_append (l l' : List (Tx × Half)) : readsGiven (l ++ l') = readsGiven l ++ readsGiven l' := by
  induction l with
  | nil => rfl
  | cons p l ih =>
    obtain ⟨x, d⟩ := p
    cases x <;> simp [readsGiven, ih]

theorem readsGiven_eq_nil_of_writes {l : List (Tx × Half)} (h : ∀ p ∈ l, ∃ b w, p.1 = .write b w) :
    readsGiven l = [] := by
  induction l with
  | nil => rfl
  | cons p l ih =>
    obtain ⟨x, d⟩ := p
    obtain ⟨⟨b, w, rfl⟩, hl⟩ := List.forall_mem_cons.1 h
    exact ih hl

theorem readsGiven_length_of_reads {l : List (Tx × Half)} (h : ∀ p ∈ l, ∃ b, p.1 = .read b) :
    (readsGiven l).length = l.length := by
  induction l with
  | nil => rfl
  | cons p l ih =>
    obtain ⟨x, d⟩ := p
    obtain ⟨⟨b, rfl⟩, hl⟩ := List.forall_mem_cons.1 h
    exact congrArg (· + 1) (ih hl)

theorem mem_regReadTxs {a : Addr} {x : Tx} (h : x ∈ regReadTxs a) : ∃ b, x = .read b := by
  unfold regReadTxs at h
  split at h
  · exact ⟨a, List.mem_singleton.1 h⟩
  · obtain h | h := List.mem_pair.1 h <;> exact ⟨_, h⟩

theorem mem_regWriteTxs {a : Addr} {v : Word} {x : Tx} (h : x ∈ regWriteTxs a v) : ∃ b w, x = .write b w := by
  unfold regWriteTxs at h
  split at h
  · exact ⟨a, lowHalf v, List.mem_singleton.1 h⟩
  · obtain h | h := List.mem_pair.1 h <;> exact ⟨_, _, h⟩

/-! ## The transactions of an update -/

/-- The writes of an update whose reads gave `data`: none if the value stays (R133). -/
def updateWriteTxs (a : Addr) (m v : Word) (data : List Half) : List Tx :=
  if updatedValue a m v (regReadValue a data) = regReadValue a data then []
  else regWriteTxs a (updatedValue a m v (regReadValue a data))

/-- An update's transactions: the reads, and the writes once the reads have given their data. -/
theorem regUpdateTxs_eq (a : Addr) (m v : Word) (data : List Half) :
    regUpdateTxs a m v data =
      regReadTxs a ++ if data.length < (regReadTxs a).length then [] else updateWriteTxs a m v data := by
  unfold regUpdateTxs updateWriteTxs
  split
  · simp
  · split <;> simp [*]

theorem mem_updateWriteTxs {a : Addr} {m v : Word} {data : List Half} {x : Tx} (h : x ∈ updateWriteTxs a m v data) :
    ∃ b w, x = .write b w := by
  unfold updateWriteTxs at h
  split at h
  · cases h
  · exact mem_regWriteTxs h

/-- The answered transactions of a whole update. -/
structure UpdateTrace (a : Addr) (m v : Word) (reads writes : List (Tx × Half)) : Prop where
  reads_eq : reads.map Prod.fst = regReadTxs a
  writes_eq : writes.map Prod.fst = updateWriteTxs a m v (readsGiven reads)

theorem UpdateTrace.readsGiven_reads_length {a : Addr} {m v : Word} {reads writes : List (Tx × Half)}
    (h : UpdateTrace a m v reads writes) : (readsGiven reads).length = (regReadTxs a).length := by
  rw [← h.reads_eq, List.length_map]
  exact readsGiven_length_of_reads fun p hp => mem_regReadTxs (h.reads_eq ▸ List.mem_map_of_mem hp)

theorem UpdateTrace.readsGiven_take_writes {a : Addr} {m v : Word} {reads writes : List (Tx × Half)}
    (h : UpdateTrace a m v reads writes) (n : Nat) : readsGiven (writes.take n) = [] :=
  readsGiven_eq_nil_of_writes fun _ hp =>
    mem_updateWriteTxs (h.writes_eq ▸ List.mem_map_of_mem (List.mem_of_mem_take hp))

/-- After the first `k` answers of the trace the update's next transaction is the trace's: a read whatever the data so
far, and from the last read on by the data of all reads. -/
theorem UpdateTrace.next_tx {a : Addr} {m v : Word} {reads writes : List (Tx × Half)}
    (h : UpdateTrace a m v reads writes) (k : Nat) :
    (regUpdateTxs a m v (readsGiven ((reads ++ writes).take k)))[k]? = ((reads ++ writes)[k]?).map Prod.fst := by
  have hlen : reads.length = (regReadTxs a).length := by rw [← h.reads_eq, List.length_map]
  rw [regUpdateTxs_eq, ← List.getElem?_map, List.map_append, h.reads_eq]
  by_cases hk : k < reads.length
  · rw [List.getElem?_append_left (hlen ▸ hk), List.getElem?_append_left (hlen ▸ hk)]
  · rw [List.take_append, List.take_of_length_le (Nat.le_of_not_lt hk), readsGiven_append, h.readsGiven_take_writes,
      List.append_nil, h.readsGiven_reads_length, if_neg (Nat.lt_irrefl _), h.writes_eq]

/-! ## The traces by width class -/

theorem updateTrace_w16_unchanged {a : Addr} {m v : Word} {d : Half} (hw : a.toNat < 0x100 ∨ 0x600 ≤ a.toNat)
    (hnew : updatedValue a m v (d.setWidth 32) = d.setWidth 32) : UpdateTrace a m v [(.read a, d)] [] where
  reads_eq := (regReadTxs_w16 hw).symm
  writes_eq := by simp [updateWriteTxs, readsGiven, regReadValue_w16 hw, hnew]

theorem updateTrace_w16_changed {a : Addr} {m v : Word} {d : Half} (x : Half)
    (hw : a.toNat < 0x100 ∨ 0x600 ≤ a.toNat) (hnew : updatedValue a m v (d.setWidth 32) ≠ d.setWidth 32) :
    UpdateTrace a m v [(.read a, d)] [(.write a ((updatedValue a m v (d.setWidth 32)).extractLsb' 0 16), x)] where
  reads_eq := (regReadTxs_w16 hw).symm
  writes_eq := by simp [updateWriteTxs, readsGiven, regReadValue_w16 hw, hnew, regWriteTxs_w16 hw]

theorem updateTrace_w32_unchanged {a : Addr} {m v : Word} {d e : Half} (h1 : 0x100 ≤ a.toNat) (h2 : a.toNat < 0x600)
    (hnew : updatedValue a m v (e ++ d) = e ++ d) :
    UpdateTrace a m v [(.read a, d), (.read (a + 2), e)] [] where
  reads_eq := (regReadTxs_w32 h1 h2).symm
  writes_eq := by simp [updateWriteTxs, readsGiven, regReadValue_w32 h1 h2, hnew]

theorem updateTrace_w32_changed {a : Addr} {m v : Word} {d e : Half} (x y : Half) (h1 : 0x100 ≤ a.toNat)
    (h2 : a.toNat < 0x600) (hnew : updatedValue a m v (e ++ d) ≠ e ++ d) :
    UpdateTrace a m v [(.read a, d), (.read (a + 2), e)]
      [(.write a ((updatedValue a m v (e ++ d)).extractLsb' 0 16), x),
       (.write (a + 2) ((updatedValue a m v (e ++ d)).extractLsb' 16 16), y)] where
  reads_eq := (regReadTxs_w32 h1 h2).symm
  writes_eq := by simp [updateWriteTxs, readsGiven, regReadValue_w32 h1 h2, hnew, regWriteTxs_w32 h1 h2]

/-! ## The turn that completes an update, and the whole of it -/

/-- The turn that takes the OK answer `d` to the last transaction `x` of an update. -/
theorem update_completes {s : State} {i : Instr} {a : Addr} {m v : Word} {reads writes front : List (Tx × Half)}
    {x : Tx} {d : Half} {data : List Half} (ha : accessOf s i = some (regUpdateTxs a m v))
    (hrun : i.isHost = true → s.busy = true ∧ s.op = startedOp i) (hbus : s.bus = .idle)
    (htrace : UpdateTrace a m v reads writes) (hlast : reads ++ writes = front ++ [(x, d)])
    (hr : s.response = some (.ok d)) (hsub : s.sub = front.length) (hdata : s.readData = readsGiven front)
    (hafter : s.readData ++ readsGiven [(x, d)] = data) :
    exec i s = .next (afterAccess i { s with response := none, sub := front.length + 1, readData := data }) := by
  have hx : txAt (regUpdateTxs a m v) s = some x := by
    have h := htrace.next_tx front.length
    rw [hlast, List.take_left, List.getElem?_concat_length] at h
    rw [txAt_eq hdata hsub, h, Option.map_some]
  have hstep := stepAccess_eq d hx
  have hend : txAt (regUpdateTxs a m v) (stepAccess (regUpdateTxs a m v) d s) = none := by
    have h := htrace.next_tx (front.length + 1)
    rw [hlast, List.take_of_length_le (by simp), readsGiven_append, ← hdata,
      List.getElem?_eq_none (l := front ++ _) (by simp), ← hsub] at h
    rw [hstep]
    exact h
  rw [exec_access ha hrun, runAccess_done hbus hr hend, hstep, hsub, hafter]

theorem afterAccess_uop {s : State} {i : Instr} {access : Access} (ha : accessOf s i = some access)
    (h : i.isHost = false) (m : State) : afterAccess i m = advance m := by
  obtain ⟨-, he⟩ | ⟨hhost, -⟩ := afterAccess_cases ha m
  · exact he
  · rw [h] at hhost
    cases hhost

/-- What follows a completed access does not depend on whether STATUS.STEP was mirrored at the fetch: a micro-op's
completion writes it anew (R186), and a direct command has no fetch. -/
theorem afterAccess_turnStart {s : State} {i : Instr} {access : Access} (hi : currentInstr s = some i)
    (ha : accessOf s i = some access) (ins : List Input) (n : Nat) (data : List Half) (l : List LogEntry) :
    afterAccess i { turnStart s with inputs := ins, sub := n, readData := data, log := l } =
      afterAccess i { s with inputs := ins, sub := n, readData := data, log := l } := by
  obtain ⟨hdirect, huop⟩ := currentInstr_kind hi
  cases hhost : i.isHost with
  | true =>
    obtain ⟨-, hrom, -⟩ := hdirect hhost
    rw [turnStart_direct hrom]
  | false =>
    rw [turnStart_running (huop hhost), afterAccess_uop ha hhost, afterAccess_uop ha hhost]
    rfl

/-- An update by steps, from its first transaction, each of which is answered OK. -/
theorem update_run {s : State} {i : Instr} {a : Addr} {m v : Word} {reads writes : List (Tx × Half)}
    {rest : List Input} (hb : s.busy = true) (hi : currentInstr s = some i)
    (ha : accessOf s i = some (regUpdateTxs a m v)) (hbus : s.bus = .idle) (hr : s.response = none)
    (htrace : UpdateTrace a m v reads writes)
    (hin : s.inputs = okTurns ((reads ++ writes).map Prod.snd) ++ .engine :: rest) :
    Host.Core.run core (2 * (reads ++ writes).length + 1) s = .next (afterAccess i { s with
      inputs := rest, sub := (reads ++ writes).length, readData := readsGiven reads,
      log := s.log ++ okEvents s.now (reads ++ writes) }) := by
  have hdata : readsGiven (reads ++ writes) = readsGiven reads := by
    have hwrites := htrace.readsGiven_take_writes writes.length
    rw [List.take_length] at hwrites
    rw [readsGiven_append, hwrites, List.append_nil]
  have hend := htrace.next_tx (reads ++ writes).length
  rw [List.take_length, List.getElem?_eq_none le_rfl] at hend
  rw [access_run_done hb hi ha hbus hr rest (reads ++ writes) hin (fun k _ => htrace.next_tx k) hend, hdata,
    afterAccess_turnStart hi ha]

/-! ## An update in each width class, whatever follows it -/

section
variable {s : State} {i : Instr} {a : Addr} {m v : Word} {running : Prop}

/-- The turn that completes an update of a W16 register and the whole update, unchanged and changed. -/
theorem update_w16 (ha : accessOf s i = some (regUpdateTxs a m v))
    (hrun : i.isHost = true → s.busy = true ∧ s.op = startedOp i) (hbus : s.bus = .idle)
    (hrunning : running → s.busy = true ∧ currentInstr s = some i ∧ s.response = none)
    (hw : a.toNat < 0x100 ∨ 0x600 ≤ a.toNat) :
    let new := updatedValue a m v
    (∀ d, s.response = some (.ok d) → s.sub = 0 → s.readData = [] → new (d.setWidth 32) = d.setWidth 32 →
      exec i s = .next (afterAccess i { s with response := none, sub := 1, readData := [d] })) ∧
    (∀ d x, s.response = some (.ok x) → s.sub = 1 → s.readData = [d] → new (d.setWidth 32) ≠ d.setWidth 32 →
      exec i s = .next (afterAccess i { s with response := none, sub := 2 })) ∧
    (∀ d rest, running → new (d.setWidth 32) = d.setWidth 32 → s.inputs = okTurns [d] ++ .engine :: rest →
      Host.Core.run core 3 s = .next (afterAccess i { s with
        inputs := rest, sub := 1, readData := [d], log := s.log ++ okEvents s.now [(.read a, d)] })) ∧
    (∀ d x rest, running → new (d.setWidth 32) ≠ d.setWidth 32 → s.inputs = okTurns [d, x] ++ .engine :: rest →
      Host.Core.run core 5 s = .next (afterAccess i { s with
        inputs := rest, sub := 2, readData := [d],
        log := s.log ++ okEvents s.now
          [(.read a, d), (.write a ((new (d.setWidth 32)).extractLsb' 0 16), x)] })) := by
  refine ⟨fun d hr hsub hdata hnew => ?_, fun d x hr hsub hdata hnew => ?_, fun d rest h hnew hin => ?_,
    fun d x rest h hnew hin => ?_⟩
  · exact update_completes (front := []) ha hrun hbus (updateTrace_w16_unchanged hw hnew) rfl hr hsub hdata
      (by rw [hdata]; rfl)
  · exact update_completes (front := [(.read a, d)]) ha hrun hbus (updateTrace_w16_changed x hw hnew) rfl hr hsub hdata
      (List.append_nil _)
  · obtain ⟨hb, hi, hr⟩ := hrunning h
    exact update_run hb hi ha hbus hr (updateTrace_w16_unchanged hw hnew) hin
  · obtain ⟨hb, hi, hr⟩ := hrunning h
    exact update_run hb hi ha hbus hr (updateTrace_w16_changed x hw hnew) hin

/-- The turn that completes an update of a W32 register and the whole update, unchanged and changed. -/
theorem update_w32 (ha : accessOf s i = some (regUpdateTxs a m v))
    (hrun : i.isHost = true → s.busy = true ∧ s.op = startedOp i) (hbus : s.bus = .idle)
    (hrunning : running → s.busy = true ∧ currentInstr s = some i ∧ s.response = none)
    (h1 : 0x100 ≤ a.toNat) (h2 : a.toNat < 0x600) :
    let new := updatedValue a m v
    (∀ d e, s.response = some (.ok e) → s.sub = 1 → s.readData = [d] → new (e ++ d) = e ++ d →
      exec i s = .next (afterAccess i { s with response := none, sub := 2, readData := [d, e] })) ∧
    (∀ d e y, s.response = some (.ok y) → s.sub = 3 → s.readData = [d, e] → new (e ++ d) ≠ e ++ d →
      exec i s = .next (afterAccess i { s with response := none, sub := 4 })) ∧
    (∀ d e rest, running → new (e ++ d) = e ++ d → s.inputs = okTurns [d, e] ++ .engine :: rest →
      Host.Core.run core 5 s = .next (afterAccess i { s with
        inputs := rest, sub := 2, readData := [d, e],
        log := s.log ++ okEvents s.now [(.read a, d), (.read (a + 2), e)] })) ∧
    (∀ d e x y rest, running → new (e ++ d) ≠ e ++ d → s.inputs = okTurns [d, e, x, y] ++ .engine :: rest →
      Host.Core.run core 9 s = .next (afterAccess i { s with
        inputs := rest, sub := 4, readData := [d, e],
        log := s.log ++ okEvents s.now [(.read a, d), (.read (a + 2), e),
          (.write a ((new (e ++ d)).extractLsb' 0 16), x),
          (.write (a + 2) ((new (e ++ d)).extractLsb' 16 16), y)] })) := by
  refine ⟨fun d e hr hsub hdata hnew => ?_, fun d e y hr hsub hdata hnew => ?_, fun d e rest h hnew hin => ?_,
    fun d e x y rest h hnew hin => ?_⟩
  · exact update_completes (front := [(.read a, d)]) ha hrun hbus (updateTrace_w32_unchanged h1 h2 hnew) rfl hr hsub
      hdata (by rw [hdata]; rfl)
  · exact update_completes (front := [(.read a, d), (.read (a + 2), e), (.write a _, 0)]) ha hrun hbus
      (updateTrace_w32_changed 0 y h1 h2 hnew) rfl hr hsub hdata (List.append_nil _)
  · obtain ⟨hb, hi, hr⟩ := hrunning h
    exact update_run hb hi ha hbus hr (updateTrace_w32_unchanged h1 h2 hnew) hin
  · obtain ⟨hb, hi, hr⟩ := hrunning h
    exact update_run hb hi ha hbus hr (updateTrace_w32_changed x y h1 h2 hnew) hin

end

/-! ## The obligations -/

/-- Settles O29: the update in each width class, whose completion ends the command. The operand in the instruction does
not matter while the command runs, since S.arg has been latched (R181). -/
theorem hRegupdUpdatesTheRegister : Obligations.HRegupdUpdatesTheRegister := by
  intro s i hb ho hbus a new
  have hexec : exec (.hRegupd i) s = exec (.hRegupd a) s :=
    (exec_access (i := .hRegupd i) rfl fun _ => ⟨hb, ho⟩).trans
      (exec_access (i := .hRegupd a) rfl fun _ => ⟨hb, ho⟩).symm
  have hrunning : s.response = none → s.busy = true ∧ currentInstr s = some (.hRegupd a) ∧ s.response = none :=
    fun hr => ⟨hb, by simp [currentInstr, ho, a], hr⟩
  rw [hexec]
  exact ⟨update_w16 rfl (fun _ => ⟨hb, ho⟩) hbus hrunning, update_w32 rfl (fun _ => ⟨hb, ho⟩) hbus hrunning⟩

/-- Settles O30: the update in each width class, whose completion goes on with the next micro-op. -/
theorem uUpdUpdatesTheRegister : Obligations.UUpdUpdatesTheRegister := by
  intro s reg msrc vsrc a m v hreg hm hv hbus new running
  have ha : accessOf s (.uUpd reg msrc vsrc) = some (regUpdateTxs a m v) := by
    simp [accessOf, regAddr, hreg, hm, hv]
  exact ⟨update_w16 ha nofun hbus id, update_w32 ha nofun hbus id⟩

end Sys2Proof.Machine
end

section
/-! PROOFS. The solver's arithmetic: the bracket of a target (42_pll_solver.md R154) and the round trip of the pixel
clock through the target (R151 to R153). -/

namespace Sys2Proof.Machine

/-! ## The bracket -/

theorem frsLimit_antitone : Antitone frsLimit :=
  antitone_nat_of_succ_le fun
    | 0 | 1 | 2 | 3 => by decide
    | _ + 4 => le_rfl

/-- No interval of R154 holds a target that has no bracket. -/
theorem bracket_eq_none_iff {target : Nat} :
    bracket target = none ↔ ∀ i < 4, ¬ (target < frsLimit i ∧ frsLimit (i + 1) ≤ target) := by
  simp [bracket, frsCount, List.find?_eq_none]

/-- Two intervals of R154 that hold one target are the same: a limit of the one would lie beyond the other's. -/
theorem bracket_interval_unique {target i j : Nat} (hi : target < frsLimit i ∧ frsLimit (i + 1) ≤ target)
    (hj : target < frsLimit j ∧ frsLimit (j + 1) ≤ target) : i = j := by
  obtain h | h | h := Nat.lt_trichotomy i j
  · have : frsLimit j ≤ frsLimit (i + 1) := frsLimit_antitone h
    omega
  · exact h
  · have : frsLimit i ≤ frsLimit (j + 1) := frsLimit_antitone h
    omega

theorem bracket_eq_some_iff {target i : Nat} :
    bracket target = some i ↔ i < 4 ∧ target < frsLimit i ∧ frsLimit (i + 1) ≤ target := by
  refine ⟨bracket_spec, fun ⟨h4, hi⟩ => ?_⟩
  cases hb : bracket target with
  | none => exact absurd hi (bracket_eq_none_iff.1 hb i h4)
  | some j => rw [bracket_interval_unique (bracket_spec hb).2 hi]

/-- The interval of one range selector, the lower bound first. -/
theorem bracket_eq_some_iff_of_lt {i : Nat} (h : i < 4) (target : Nat) :
    bracket target = some i ↔ frsLimit (i + 1) ≤ target ∧ target < frsLimit i := by
  rw [bracket_eq_some_iff, and_iff_right h, and_comm]

/-- The four intervals leave no gap between the lowest limit and the highest (R154). -/
theorem bracket_eq_none_iff_outside {target : Nat} :
    bracket target = none ↔ target < 62500000 ∨ 1000000000 ≤ target := by
  rw [bracket_eq_none_iff]
  constructor
  · intro h
    have h0 := h 0 (by decide)
    have h1 := h 1 (by decide)
    have h2 := h 2 (by decide)
    have h3 := h 3 (by decide)
    simp only [frsLimit] at h0 h1 h2 h3
    omega
  · rintro h i hi ⟨hhigh, hlow⟩
    have htop : frsLimit i ≤ 1000000000 := frsLimit_antitone (Nat.zero_le i)
    have hbottom : 62500000 ≤ frsLimit (i + 1) := frsLimit_antitone (show i + 1 ≤ 4 by omega)
    omega

/-! ## The round trip -/

/-- The inverse transform of the target divides the byte clock's product by the lanes (R152). -/
theorem pllToPclk_targetFreq (c : DevConfig) :
    pllToPclk c (targetFreq c) = byteClock c * (8 * c.dsiLanes.toNat) / c.dpiLanes.toNat := by
  rw [pllToPclk, targetFreq, Nat.mul_div_cancel _ (by decide : 0 < 8), Nat.mul_assoc]

/-- What is lost by rounding `p * d` down to a multiple of `m` and dividing by `d` again (R153). -/
theorem sub_div_mul_div_le {p d m : Nat} (hd : 0 < d) (hm : 0 < m) :
    p - p * d / m * m / d ≤ (m + (d - 1)) / d := by
  have hround : p * d < p * d / m * m + m := by
    have := Nat.lt_mul_div_succ (p * d) hm
    linarith
  have hback : p * d / m * m < (p * d / m * m / d + 1) * d := by
    have := Nat.lt_mul_div_succ (p * d / m * m) hd
    linarith
  rw [Nat.le_div_iff_mul_le hd, Nat.sub_mul]
  rw [Nat.add_mul, Nat.one_mul] at hback
  omega

/-- Settles O19: the two truncations only round down, and lose less than one byte clock's worth and one hertz. -/
theorem roundTripBound : Obligations.RoundTripBound := by
  refine ⟨fun c hc => ?_, by decide⟩
  obtain ⟨-, -, hdpi, hdsi⟩ := (configOk_iff c).1 hc
  rw [pllToPclk_targetFreq]
  refine ⟨?_, sub_div_mul_div_le hdpi (by omega)⟩
  calc byteClock c * (8 * c.dsiLanes.toNat) / c.dpiLanes.toNat
      ≤ c.pclk.toNat * c.dpiLanes.toNat / c.dpiLanes.toNat := Nat.div_le_div_right (Nat.div_mul_le_self _ _)
    _ = c.pclk.toNat := Nat.mul_div_cancel _ hdpi

end Sys2Proof.Machine
end

section
/-! PROOFS. The search keeps the first of the closest candidates in the bracket (42_pll_solver.md R155 to R158): an
invariant over the pairs that come before a pair in loop order, which the two loops carry from (0, 0) to (16, 0). -/

namespace Sys2Proof.Machine

/-! ## Pairs -/

/-- The candidate of a pair lies in the bracket (R156). -/
def InBracket (refclk frs prd fbd : Nat) : Prop :=
  frsLimit (frs + 1) ≤ candidate refclk frs prd fbd ∧ candidate refclk frs prd fbd < frsLimit frs

theorem not_inBracket_iff {refclk frs prd fbd : Nat} :
    ¬ InBracket refclk frs prd fbd ↔
      candidate refclk frs prd fbd < frsLimit (frs + 1) ∨ frsLimit frs ≤ candidate refclk frs prd fbd := by
  rw [InBracket, not_and_or, not_le, not_lt]

/-- How far the candidate of a pair is from the target (R156). -/
def distance (refclk frs target prd fbd : Nat) : Nat := absdiff (candidate refclk frs prd fbd) target

/-- Loop order (R156): the pair `(p, f)` comes before `(p', f')`. -/
def Before (p f p' f' : Nat) : Prop := p < p' ∨ (p = p' ∧ f < f')

theorem Before.irrefl (p f : Nat) : ¬ Before p f p f := by unfold Before; omega

theorem Before.trans {p f p' f' p'' f'' : Nat} (h : Before p f p' f') (h' : Before p' f' p'' f'') :
    Before p f p'' f'' := by unfold Before at *; omega

/-- What comes before a pair comes before every later one. -/
theorem Before.of_le {p f p' f' p'' f'' : Nat} (h : Before p f p' f') (hle : p' < p'' ∨ (p' = p'' ∧ f' ≤ f'')) :
    Before p f p'' f'' := by unfold Before at *; omega

theorem before_succ_iff {p f p' f' : Nat} : Before p f p' (f' + 1) ↔ Before p f p' f' ∨ (p = p' ∧ f = f') := by
  unfold Before; omega

/-- After the last `fbd` of a row comes the next row. -/
theorem before_next_row_iff {p f p' : Nat} (hf : f < 512) : Before p f (p' + 1) 0 ↔ Before p f p' 512 := by
  unfold Before; omega

/-! ## One evaluation -/

/-- The two outcomes of an evaluation (R156): the best so far stays, or the pair becomes the best. -/
theorem evalPair_cases (refclk frs target prd fbd : Nat) (r : Search) :
    ((InBracket refclk frs prd fbd → r.found = true ∧ r.bestDiff ≤ distance refclk frs target prd fbd) ∧
      evalPair refclk frs target prd fbd r = { r with prd := prd, fbd := fbd }) ∨
    (InBracket refclk frs prd fbd ∧ (r.found = true → distance refclk frs target prd fbd < r.bestDiff) ∧
      evalPair refclk frs target prd fbd r =
        { prd, fbd, found := true, bestPrd := prd, bestFbd := fbd, bestPll := candidate refclk frs prd fbd,
          bestDiff := distance refclk frs target prd fbd,
          exact := decide (distance refclk frs target prd fbd = 0) }) := by
  unfold evalPair
  dsimp only
  split
  case isTrue hout => exact .inl ⟨fun hin => absurd hin (not_inBracket_iff.2 hout), rfl⟩
  case isFalse hin =>
    split
    case isTrue hfar => exact .inl ⟨fun _ => hfar, rfl⟩
    case isFalse hclose =>
      exact .inr ⟨not_not.1 (mt not_inBracket_iff.1 hin), fun hfound => not_le.1 fun hle => hclose ⟨hfound, hle⟩, rfl⟩

/-! ## The invariant -/

/-- `r` is the search's result on the pairs before `(prd, fbd)`: its best is one of them, none of them in the bracket
is closer, and every earlier one is strictly further away. -/
structure FirstOfClosest (refclk frs target prd fbd : Nat) (r : Search) : Prop where
  best_before : r.found = true → Before r.bestPrd r.bestFbd prd fbd
  bestDiff_eq : r.found = true → r.bestDiff = absdiff r.bestPll target
  exact_match : r.exact = true → r.found = true ∧ r.bestDiff = 0
  closest : ∀ p f, f < 512 → Before p f prd fbd → InBracket refclk frs p f →
    r.found = true ∧ r.bestDiff ≤ distance refclk frs target p f ∧
      (Before p f r.bestPrd r.bestFbd → r.bestDiff < distance refclk frs target p f)

section
variable {refclk frs target : Nat} {r : Search}

theorem firstOfClosest_start : FirstOfClosest refclk frs target 0 0 Search.start where
  best_before := nofun
  bestDiff_eq := nofun
  exact_match := nofun
  closest p f _ h := absurd h (by unfold Before; omega)

/-- An evaluation carries the invariant over its pair. -/
theorem FirstOfClosest.after_evalPair {prd fbd : Nat} (hr : FirstOfClosest refclk frs target prd fbd r) :
    FirstOfClosest refclk frs target prd (fbd + 1) (evalPair refclk frs target prd fbd r) := by
  obtain ⟨hkeep, he⟩ | ⟨-, hbetter, he⟩ := evalPair_cases refclk frs target prd fbd r
  · rw [he]
    refine ⟨fun hf => before_succ_iff.2 (.inl (hr.best_before hf)), hr.bestDiff_eq, hr.exact_match,
      fun p f hf hb hin => ?_⟩
    obtain hb | ⟨rfl, rfl⟩ := before_succ_iff.1 hb
    · exact hr.closest p f hf hb hin
    · obtain ⟨hfound, hle⟩ := hkeep hin
      exact ⟨hfound, hle, fun hbest => absurd (hbest.trans (hr.best_before hfound)) (Before.irrefl p f)⟩
  · rw [he]
    refine ⟨fun _ => before_succ_iff.2 (.inr ⟨rfl, rfl⟩), fun _ => rfl, fun hx => ⟨rfl, of_decide_eq_true hx⟩,
      fun p f hf hb hin => ⟨rfl, ?_⟩⟩
    obtain hb | ⟨rfl, rfl⟩ := before_succ_iff.1 hb
    · obtain ⟨hfound, hle, -⟩ := hr.closest p f hf hb hin
      have hlt := (hbetter hfound).trans_le hle
      exact ⟨hlt.le, fun _ => hlt⟩
    · exact ⟨le_rfl, fun hbest => absurd hbest (Before.irrefl p f)⟩

/-- An exact match is the result on all pairs to come as well: none is closer, and none comes before it (R156). -/
theorem FirstOfClosest.of_exact {prd fbd prd' fbd' : Nat} (hr : FirstOfClosest refclk frs target prd fbd r)
    (hx : r.exact = true) (hle : prd < prd' ∨ (prd = prd' ∧ fbd ≤ fbd')) :
    FirstOfClosest refclk frs target prd' fbd' r := by
  obtain ⟨hfound, hzero⟩ := hr.exact_match hx
  refine ⟨fun hf => (hr.best_before hf).of_le hle, hr.bestDiff_eq, hr.exact_match, fun p f hf _ hin =>
    ⟨hfound, hzero ▸ Nat.zero_le _, fun hb => ?_⟩⟩
  obtain ⟨-, -, hlt⟩ := hr.closest p f hf (hb.trans (hr.best_before hfound)) hin
  exact hlt hb

/-- The inner loop carries the invariant to the end of its row. -/
theorem FirstOfClosest.after_scanFbd {prd : Nat} :
    ∀ {left : Nat} {r : Search}, left ≤ 512 → FirstOfClosest refclk frs target prd (512 - left) r →
      FirstOfClosest refclk frs target prd 512 (scanFbd refclk frs target prd left r)
  | 0, _, _, hr => hr
  | left + 1, r, hleft, hr => by
    have he := hr.after_evalPair
    rw [show 512 - (left + 1) + 1 = 512 - left by omega] at he
    unfold scanFbd
    dsimp only [fbdCount]
    split
    case isTrue hx => exact he.of_exact hx (.inr ⟨rfl, Nat.sub_le _ _⟩)
    case isFalse => exact FirstOfClosest.after_scanFbd (Nat.le_of_succ_le hleft) he

/-- The end of a row is the beginning of the next one. -/
theorem FirstOfClosest.next_row {prd : Nat} (hr : FirstOfClosest refclk frs target prd 512 r) :
    FirstOfClosest refclk frs target (prd + 1) 0 r where
  best_before hf := (hr.best_before hf).of_le (.inl (Nat.lt_succ_self prd))
  bestDiff_eq := hr.bestDiff_eq
  exact_match := hr.exact_match
  closest p f hf hb := hr.closest p f hf ((before_next_row_iff hf).1 hb)

/-- The outer loop carries the invariant over all rows. -/
theorem FirstOfClosest.after_scanPrd :
    ∀ {left : Nat} {r : Search}, left ≤ 16 → FirstOfClosest refclk frs target (16 - left) 0 r →
      FirstOfClosest refclk frs target 16 0 (scanPrd refclk frs target left r)
  | 0, _, _, hr => hr
  | left + 1, r, hleft, hr => by
    have hrow := (FirstOfClosest.after_scanFbd le_rfl hr).next_row
    rw [show 16 - (left + 1) + 1 = 16 - left by omega] at hrow
    unfold scanPrd
    dsimp only [prdCount, fbdCount]
    split
    case isTrue hx => exact hrow.of_exact hx (by omega)
    case isFalse => exact FirstOfClosest.after_scanPrd (Nat.le_of_succ_le hleft) hrow

end

theorem searchPll_firstOfClosest (refclk frs target : Nat) :
    FirstOfClosest refclk frs target 16 0 (searchPll refclk frs target) :=
  FirstOfClosest.after_scanPrd le_rfl firstOfClosest_start

/-- The search finds nothing exactly if no pair has a candidate in the bracket (R157). -/
theorem searchPll_found_eq_false_iff {refclk frs target : Nat} :
    (searchPll refclk frs target).found = false ↔
      ∀ prd fbd, prd < 16 → fbd < 512 →
        candidate refclk frs prd fbd < frsLimit (frs + 1) ∨ frsLimit frs ≤ candidate refclk frs prd fbd := by
  refine ⟨fun h prd fbd hp hf => not_inBracket_iff.1 fun hin => ?_, searchPll_found_of_outside⟩
  obtain ⟨hfound, -⟩ := (searchPll_firstOfClosest refclk frs target).closest prd fbd hf (.inl hp) hin
  exact Bool.false_ne_true (h.symm.trans hfound)

/-- Settles O14: the best pair's range by `searchPll_best`, its place among the others by the loops' invariant. -/
theorem searchKeepsFirstOfTheClosest : Obligations.SearchKeepsFirstOfTheClosest := by
  intro refclk frs target r hfound
  obtain ⟨hp, hf, hcand, hlow, hhigh⟩ := searchPll_best refclk frs target hfound
  have hbest := searchPll_firstOfClosest refclk frs target
  refine ⟨hp, hf, hcand, hlow, hhigh, hbest.bestDiff_eq hfound, fun prd fbd hprd hfbd hl hh => ?_⟩
  exact (hbest.closest prd fbd hfbd (.inl hprd) ⟨hl, hh⟩).2

end Sys2Proof.Machine
end

section
/-! PROOFS. The three outcomes of a solve (42_pll_solver.md R154 to R163), the same for U.SOLVE and for the solve of a
running H.SOLVE, and the turns of H.SOLVE (R162). -/

namespace Sys2Proof.Machine

/-! ## The outcomes -/

section
variable {s : State} {frs : Nat}

theorem solve_outOfRange (k : State → Result) (hc : configOk s.acfg = true)
    (hb : bracket (targetFreq s.acfg) = none) :
    solve s k = .next (abort .outOfRange (beginSolve (targetFreq s.acfg) s)) := by
  simp [solve, hc, hb, raise_next]

theorem solve_noSolution (k : State → Result) (hc : configOk s.acfg = true)
    (hb : bracket (targetFreq s.acfg) = some frs)
    (hf : (searchPll s.acfg.refclk.toNat frs (targetFreq s.acfg)).found = false) :
    solve s k = .next (abort .noSolution (recordSearch (searchPll s.acfg.refclk.toNat frs (targetFreq s.acfg))
      (beginSolve (targetFreq s.acfg) s))) := by
  simp [solve, hc, hb, hf, raise_next]

theorem solve_found (k : State → Result) (hc : configOk s.acfg = true)
    (hb : bracket (targetFreq s.acfg) = some frs)
    (hf : (searchPll s.acfg.refclk.toNat frs (targetFreq s.acfg)).found = true) :
    solve s k = k (commitSolution frs (recordSearch (searchPll s.acfg.refclk.toNat frs (targetFreq s.acfg))
      (beginSolve (targetFreq s.acfg) s))) := by
  simp [solve, hc, hb, hf]

end

/-- A derivation with a solution and a configuration (R174). -/
theorem derive_ok {s : State} (k : State → Result) (hv : s.valid = true) (hc : configOk s.acfg = true) :
    derive s k = k (writeTiming s) := by
  simp [derive, hv, hc]

/-! ## The instructions that solve -/

/-- The first turn of a running H.SOLVE is its solve (R162, log 7). -/
theorem exec_hSolve_solving {s : State} (hb : s.busy = true) (ho : s.op = .solve) (hd : s.solveDone = false) :
    exec .hSolve s = solve s fun t => .next (markSolved t) := by
  simp [exec, execHSolve, direct, hb, ho, hd]

/-- The second turn of a running H.SOLVE is its derivation (R162, log 7). -/
theorem exec_hSolve_deriving {s : State} (hb : s.busy = true) (ho : s.op = .solve) (hd : s.solveDone = true) :
    exec .hSolve s = derive s fun t => .next (finish t) := by
  simp [exec, execHSolve, direct, hb, ho, hd]

/-- `i` solves in its next turn: it is U.SOLVE, or a running H.SOLVE that has not solved yet (log 7). -/
def Solves (i : Instr) (s : State) : Prop :=
  i = .uSolve ∨ (i = .hSolve ∧ s.busy = true ∧ s.op = .solve ∧ s.solveDone = false)

/-- Both instructions solve alike; after a success they only count on, so BUSY stays. -/
theorem exec_of_solves {i : Instr} {s : State} (h : Solves i s) :
    ∃ done : State → State, (∀ m, (done m).busy = m.busy) ∧ exec i s = solve s fun m => .next (done m) := by
  obtain rfl | ⟨rfl, hb, ho, hd⟩ := h
  · exact ⟨advance, fun _ => rfl, rfl⟩
  · exact ⟨markSolved, fun _ => rfl, exec_hSolve_solving hb ho hd⟩

section
variable {s : State} {i : Instr} {frs : Nat}

theorem exec_solve_outOfRange (hi : Solves i s) (hc : configOk s.acfg = true)
    (hb : bracket (targetFreq s.acfg) = none) :
    exec i s = .next (abort .outOfRange (beginSolve (targetFreq s.acfg) s)) := by
  obtain ⟨done, -, he⟩ := exec_of_solves hi
  rw [he, solve_outOfRange _ hc hb]

theorem exec_solve_noSolution (hi : Solves i s) (hc : configOk s.acfg = true)
    (hb : bracket (targetFreq s.acfg) = some frs)
    (hf : (searchPll s.acfg.refclk.toNat frs (targetFreq s.acfg)).found = false) :
    exec i s = .next (abort .noSolution (recordSearch (searchPll s.acfg.refclk.toNat frs (targetFreq s.acfg))
      (beginSolve (targetFreq s.acfg) s))) := by
  obtain ⟨done, -, he⟩ := exec_of_solves hi
  rw [he, solve_noSolution _ hc hb hf]

/-- A solve that succeeds does not end the operation. -/
theorem exec_solve_found_busy (hi : Solves i s) (hc : configOk s.acfg = true)
    (hb : bracket (targetFreq s.acfg) = some frs)
    (hf : (searchPll s.acfg.refclk.toNat frs (targetFreq s.acfg)).found = true) :
    ∃ t, exec i s = .next t ∧ t.busy = s.busy := by
  obtain ⟨done, hbusy, he⟩ := exec_of_solves hi
  exact ⟨_, he.trans (solve_found _ hc hb hf), hbusy _⟩

end

/-! ## The obligations -/

/-- Settles O13: the four intervals of `bracket_eq_some_iff`, and the abort of a solve without a bracket. -/
theorem bracketSelection : Obligations.BracketSelection := by
  refine ⟨fun _ _ => bracket_eq_some_iff, fun _ => bracket_eq_none_iff_outside, bracket_eq_some_iff_of_lt (by decide),
    bracket_eq_some_iff_of_lt (by decide), bracket_eq_some_iff_of_lt (by decide),
    bracket_eq_some_iff_of_lt (by decide), fun s i hc hb hi => ?_⟩
  exact ⟨_, exec_solve_outOfRange hi hc hb, rfl, rfl, rfl⟩

/-- Settles O15: outcome by outcome; only a search that finds nothing answers NO_SOLUTION with BUSY 0. -/
theorem noSolutionExactly : Obligations.NoSolutionExactly := by
  intro s i hbusy hc hi
  have hi : Solves i s := hi.imp_right fun ⟨h, ho, hd⟩ => ⟨h, hbusy, ho, hd⟩
  constructor
  · rintro ⟨t, ht, htbusy, hterr⟩
    cases hb : bracket (targetFreq s.acfg) with
    | none =>
      rw [exec_solve_outOfRange hi hc hb] at ht
      cases ht
      cases hterr
    | some frs =>
      refine ⟨frs, rfl, (searchPll_found_eq_false_iff (target := targetFreq s.acfg)).1 ?_⟩
      by_contra hf
      obtain ⟨u, hu, hubusy⟩ := exec_solve_found_busy hi hc hb (by simpa using hf)
      cases hu.symm.trans ht
      simp [hubusy, hbusy] at htbusy
  · rintro ⟨frs, hb, hout⟩
    exact ⟨_, exec_solve_noSolution hi hc hb (searchPll_found_eq_false_iff.2 hout), rfl, rfl⟩

/-- Settles O16: the success of a solve, then the next micro-op. -/
theorem uSolveWritesTheSolution : Obligations.USolveWritesTheSolution :=
  fun _ _ hc hb hf => solve_found (fun t => .next (advance t)) hc hb hf

/-- Settles O17: the two failures of a solve, with the targets that have no bracket by O13's intervals. -/
theorem solveFailureAborts : Obligations.SolveFailureAborts := fun _ _ hc hi =>
  ⟨fun ht => exec_solve_outOfRange hi hc (bracket_eq_none_iff_outside.2 ht),
    fun _ hb hf => exec_solve_noSolution hi hc hb hf⟩

theorem targetFreq_congr {c d : DevConfig} (hp : c.pclk = d.pclk) (hdpi : c.dpiLanes = d.dpiLanes)
    (hdsi : c.dsiLanes = d.dsiLanes) : targetFreq c = targetFreq d := by
  rw [targetFreq, targetFreq, byteClock, byteClock, hp, hdpi, hdsi]

/-- Settles O18: target, bracket and search are those of both states, so both U.SOLVEs have the same outcome. -/
theorem solveDependsOnFourFieldsOnly : Obligations.SolveDependsOnFourFieldsOnly := by
  intro s t s' t' hp hdpi hdsi href hs ht
  have htarget := targetFreq_congr hp hdpi hdsi
  obtain ⟨-, hs⟩ := uSolve_next hs
  obtain ⟨-, ht⟩ := uSolve_next ht
  rw [← htarget, ← href] at ht
  obtain ⟨hb, rfl⟩ | ⟨frs, hb, r, hr, hs⟩ := hs
  · obtain ⟨-, rfl⟩ | ⟨_, hb', -⟩ := ht
    · exact ⟨rfl, rfl, nofun, fun _ => rfl⟩
    · cases hb.symm.trans hb'
  · obtain ⟨hb', -⟩ | ⟨_, hb', r', hr', ht⟩ := ht
    · cases hb.symm.trans hb'
    · cases hb.symm.trans hb'
      cases hr.trans hr'.symm
      obtain ⟨hf, rfl⟩ | ⟨hf, rfl⟩ := hs
      · obtain ⟨-, rfl⟩ | ⟨hf', -⟩ := ht
        · exact ⟨rfl, rfl, fun _ => ⟨rfl, rfl, rfl, rfl, rfl⟩, nofun⟩
        · cases hf.symm.trans hf'
      · obtain ⟨hf', -⟩ | ⟨-, rfl⟩ := ht
        · cases hf.symm.trans hf'
        · exact ⟨rfl, rfl, nofun, fun _ => rfl⟩

theorem acceptHSolve_ok {s : State} (hc : configOk s.cfg = true) :
    acceptHSolve s = { startOp .solve (latchConfig (beginCommand 0x3 s)) with solveDone := false } := if_pos hc

theorem acceptHSolve_badConfig {s : State} (hc : configOk s.cfg = false) :
    acceptHSolve s = refuseCommand .badConfig (beginCommand 0x3 s) := if_neg (by simp [hc])

theorem exec_hSolve_idle {s : State} (hb : s.busy = false) : exec .hSolve s = .next (acceptHSolve s) := by
  rw [exec, execHSolve, direct_idle hb]

/-- Settles O24: the two acceptances, and the solve and the derivation of the running command. -/
theorem hSolveRuns : Obligations.HSolveRuns := by
  refine ⟨fun s hb hc => ?_, fun s hb hc => ?_, fun s frs hb ho hd hc hbr hf => ?_, fun s hb ho hd hv hc => ?_⟩
  · rw [exec_hSolve_idle hb, acceptHSolve_ok hc]
    rfl
  · rw [exec_hSolve_idle hb, acceptHSolve_badConfig hc]
    rfl
  · exact (exec_hSolve_solving hb ho hd).trans (solve_found _ hc hbr hf)
  · exact (exec_hSolve_deriving hb ho hd).trans (derive_ok _ hv hc)

end Sys2Proof.Machine
end

section
/-! PROOFS. The timing-counter derivation (43_timing_derivation.md R171 to R175): what U.DERIVE writes, when it is
refused, and that `vsync` fits its register. -/

namespace Sys2Proof.Machine

/-- A derivation without a solution (R175), whatever the configuration. -/
theorem derive_refused {s : State} (k : State → Result) (hv : s.valid = false) :
    derive s k = .refused (.deriveWithoutSolution s.rom s.romStep) := by
  obtain ⟨-, hr⟩ | ⟨hv', -⟩ | ⟨hv', -⟩ := derive_cases s k
  · exact hr
  · cases hv.symm.trans hv'
  · cases hv.symm.trans hv'

/-- `vsync` is the sum of two 16-bit fields (R172). -/
theorem vsyncValue_le (c : DevConfig) : vsyncValue c ≤ 131070 := by
  have hvsw := c.vsw.isLt
  have hvbp := c.vbp.isLt
  unfold vsyncValue
  omega

theorem toNat_ofNat_vsyncValue (c : DevConfig) : (BitVec.ofNat 32 (vsyncValue c)).toNat = vsyncValue c :=
  (BitVec.toNat_ofNat _ 32).trans (Nat.mod_eq_of_lt ((vsyncValue_le c).trans_lt (by norm_num)))

/-- Settles O21: the two outcomes of a derivation, and the range of `vsync`. -/
theorem uDeriveWritesTiming : Obligations.UDeriveWritesTiming :=
  ⟨fun _ hv hc => derive_ok (fun t => .next (advance t)) hv hc,
    fun _ hv => derive_refused (fun t => .next (advance t)) hv,
    fun c => ⟨toNat_ofNat_vsyncValue c, vsyncValue_le c⟩⟩

end Sys2Proof.Machine
end

section
/-! PROOFS. Every step keeps the minimum of the waits (44_sequencer.md R191, R193). -/

namespace Sys2Proof.Machine

/-! ## The invariant where no wait runs -/

theorem answeredBy_mono {log : List LogEntry} {t u : Nat} (h : answeredBy log t) (htu : t ≤ u) : answeredBy log u :=
  fun a v ha => (h a v ha).trans htu

/-- No wait runs, and none has just ended: no ROM runs, or a transaction is under way, or the ROM is at its
beginning. -/
theorem WaitInv.of_no_wait {t : State} (hw : t.waiting = false)
    (h : romRunning t → t.bus = .idle → t.response = none → t.romStep = 0) : WaitInv t where
  started := by simp [hw]
  settled := fun _ _ _ hrun _ hbus hresp hstep => by simp [h hrun hbus hresp] at hstep

/-- A micro-op completed: only a U.WAIT leaves something to show. -/
theorem WaitInv.of_completed {s t : State} {i : Instr} (hrun : romRunning s) (hi : currentInstr s = some i)
    (hbuild : t.build = s.build) (hrom : t.rom = s.rom) (hstep : t.romStep = s.romStep + 1) (hw : t.waiting = false)
    (hend : ∀ d, i = .uWait d → delayMinUs d ≤ t.now ∧ answeredBy t.log (t.now - delayMinUs d)) : WaitInv t where
  started := by simp [hw]
  settled := by
    intro r d k _ hr _ _ hk hword
    rw [hbuild] at hword
    rw [hrom] at hr
    have hk : k = s.romStep.toNat := by
      rw [hstep, BitVec.toNat_add] at hk
      simp only [BitVec.ofNat_eq_ofNat, BitVec.toNat_ofNat] at hk
      omega
    subst hk
    exact hend d (Option.some.inj (hi.symm.trans (currentInstr_rom hrun hr hword (decodeUop_encode rfl))))

/-- The environment leaves the observation alone, and later the last answer is only longer ago. -/
theorem WaitInv.env {s t : State} (h : EnvFrame s t) (hnow : s.now ≤ t.now) (hs : WaitInv s) : WaitInv t := by
  rw [h]
  refine ⟨fun hw => ?_, fun r d k hrun hr hbus hresp hk hword => ?_⟩
  · obtain ⟨hbus, hstart, hans⟩ := hs.started hw
    exact ⟨hbus, hstart.trans hnow, hans⟩
  · obtain ⟨hmin, hans⟩ := hs.settled r d k hrun hr hbus hresp hk hword
    exact ⟨hmin.trans hnow, answeredBy_mono hans (Nat.sub_le_sub_right hnow _)⟩

/-! ## The Engine's turn -/

theorem AccessNext.keeps_wait {i : Instr} {access : Access} {s t : State} (hs : WaitInv s)
    (hrun : i.isHost = false → romRunning s) (hi : currentInstr s = some i) (hw : s.waiting = false)
    (ha : accessOf s i = some access) (h : AccessNext access (afterAccess i) s t) : WaitInv t := by
  cases h with
  | waits => exact hs
  | issues m x hm _ => exact .of_no_wait (by simpa using hm.frame.waiting.trans hw) nofun
  | completes m hm _ =>
    have hwm : m.waiting = false := hm.frame.waiting.trans hw
    obtain ⟨hh, he⟩ | ⟨_, v, he, _⟩ := afterAccess_cases ha m
    · rw [he]
      refine .of_completed (hrun hh) hi hm.frame.build hm.frame.rom ?_ hwm ?_
      · simp [hm.frame.romStep]
      · rintro d rfl
        cases ha
    · rw [he]
      exact .of_no_wait hwm (by simp [romRunning])
  | fails => exact .of_no_wait hw (by simp [romRunning])

/-- A solve that succeeds leaves the rest to `done`; one that fails ends the operation. -/
theorem SolveNext.keeps_wait {done : State → State} {s t : State} (h : SolveNext done s t) (hw : s.waiting = false)
    (hdone : ∀ frs r, WaitInv (done (commitSolution frs (recordSearch r (beginSolve (targetFreq s.acfg) s))))) :
    WaitInv t := by
  obtain ⟨_, ⟨_, rfl⟩ | ⟨frs, _, r, _, ⟨_, rfl⟩ | ⟨_, rfl⟩⟩⟩ := h
  · exact .of_no_wait hw (by simp [romRunning])
  · exact hdone frs r
  · exact .of_no_wait hw (by simp [romRunning])

/-- A wait that starts begins after every answer so far, and one that ends has lasted its minimum; every other
micro-op runs while none waits. -/
theorem Progress.keeps_wait {i : Instr} {s t : State} (hm : romRunning s → s.statStep = s.romStep)
    (hacc : AccessInv s) (hlog : LogInv s) (hs : WaitInv s) (hi : currentInstr s = some i) (h : Progress i s t) :
    WaitInv t := by
  have hstart : turnStart s = s := turnStart_eq_self hm
  have still : (∀ d, i ≠ .uWait d) → s.waiting = false := fun hne =>
    hacc.not_waiting fun d hd => hne d (Option.some.inj (hi.symm.trans hd))
  cases h with
  | access _ access _ _ _ ha hn =>
    rw [hstart] at hn
    have hw : s.waiting = false := still (by rintro d rfl; cases ha)
    exact hn.keeps_wait hs (currentInstr_kind hi).2 hi hw ha
  | ended =>
    rw [hstart]
    exact .of_no_wait (still nofun) (by simp [romRunning])
  | phase _ _ hrun | uDerive _ hrun =>
    rw [hstart]
    exact .of_completed hrun hi rfl rfl rfl (still nofun) nofun
  | rstline l _ hrun =>
    rw [hstart]
    exact .of_completed hrun hi (by simp) (by simp) (by simp) (by simpa using still nofun) nofun
  | waitStart d _ hrun _ =>
    rw [hstart]
    have hbus : s.bus = .idle := (hacc.idle_of_no_access hi rfl).1
    exact ⟨fun _ => ⟨hbus, le_rfl, fun a u ha => hlog.past _ ha⟩, hs.settled⟩
  | waitEnd d _ hrun hw hmin =>
    rw [hstart]
    obtain ⟨_, hle, hans⟩ := hs.started hw
    refine .of_completed hrun hi rfl rfl rfl rfl ?_
    rintro _ ⟨⟩
    exact ⟨hmin.trans (Nat.sub_le _ _), answeredBy_mono hans (by simp only [advance_now, endWait_now]; omega)⟩
  | waitHold => rw [hstart]; exact hs
  | uSolve _ _ hrun hn =>
    rw [hstart] at hn
    exact hn.keeps_wait (still nofun) fun _ _ => .of_completed hrun hi rfl rfl rfl (still nofun) nofun
  | hSolve _ _ ho _ hn =>
    exact hn.keeps_wait (still nofun) fun _ _ => .of_no_wait (still nofun) (by simp [romRunning, ho])
  | hDerive => exact .of_no_wait (still nofun) (by simp [romRunning])

/-! ## Moves -/

/-- A ROM that an acceptance starts is at its beginning. -/
theorem Accepted.romStep_eq_zero {i : Instr} {s t : State} (h : Accepted i s t) (ho : s.op = .none)
    (hrun : romRunning t) : t.romStep = 0 := by
  cases h with
  | enable | disable => rfl
  | badConfig | hSolve | hShort => simp [romRunning, ho] at hrun
  | hAccess _ _ _ _ hi => obtain rfl | rfl | rfl := hi <;> simp [romRunning, startedOp] at hrun

theorem Accepted.waiting {i : Instr} {s t : State} (h : Accepted i s t) : t.waiting = s.waiting := by
  cases h <;> rfl

theorem Move.keeps_wait {j : Input} {s t : State} (hc : ControlInv s) (hacc : AccessInv s) (hlog : LogInv s)
    (hs : WaitInv s) (h : Move j s t) : WaitInv t := by
  have idle : s.busy = false → s.op = .none := fun hb => by simpa [hb] using hc.busy_iff
  cases h with
  | still => exact hs
  | run _ _ i _ hi hp => exact hp.keeps_wait hc.step_mirror hacc hlog hs hi
  | replied | wroteCfg | wroteArgData | wroteArgMask | wroteStatus | rejected =>
    exact WaitInv.env (s := s) rfl le_rfl hs
  | elapsed _ us => exact hs.env (t := elapse us s) rfl (Nat.le_add_right _ us)
  | illegal _ _ _ hb =>
    obtain ⟨_, _, hw⟩ := hacc.quiet_of_idle (idle hb)
    exact .of_no_wait hw (by simp [romRunning, idle hb])
  | accepted _ _ _ _ hb _ ha =>
    obtain ⟨_, _, hw⟩ := hacc.quiet_of_idle (idle hb)
    exact .of_no_wait (ha.waiting.trans hw) fun hrun _ _ => ha.romStep_eq_zero (idle hb) hrun
  | answered _ a =>
    obtain ⟨x, hb, he⟩ | ⟨_, he⟩ := deliverAnswer_cases a s
    · rw [he]
      have hw : s.waiting = false := by
        cases hw : s.waiting with
        | false => rfl
        | true =>
          obtain ⟨hidle, _⟩ := hs.started hw
          cases hb.symm.trans hidle
      exact .of_no_wait hw nofun
    · rw [he]; exact hs
  | reset => exact .of_no_wait rfl (by simp [blockReset, State.resetOf, romRunning])

/-- Settles O55: a wait starts after every answer observed so far and lasts its minimum, and nothing is answered while
it runs. -/
theorem stepKeepsWaitInv : Obligations.StepKeepsWaitInv := by
  intro s t hc hacc hlog hs h
  obtain ⟨_, hm⟩ | ⟨j, rest, _, hm⟩ := step_move h
  · exact hm.keeps_wait hc hacc hlog hs
  · exact hm.keeps_wait (hc.env (t := dropInput s) rfl) (hacc.env (t := dropInput s) rfl) ⟨hlog.bus, hlog.past⟩
      (hs.env (t := dropInput s) rfl le_rfl)

end Sys2Proof.Machine
end

section
/-! PROOFS. Every step of a well-formed DBBE keeps S.step inside the running ROM (44_sequencer.md R186, R201). -/

namespace Sys2Proof.Machine

/-! ## The micro-op at S.step -/

/-- While a ROM of a well-formed DBBE runs, the current instruction is its template's at S.step (R196, R198). -/
theorem RomInv.template_at {s : State} (hs : RomInv s) (hrun : romRunning s) {r : RomSel} (hr : s.rom = some r)
    {i : Instr} (hi : currentInstr s = some i) :
    (romInstrs s.build.profile r)[s.romStep.toNat]? = some i := by
  obtain ⟨j, hmem, hf⟩ := hs.fetch hrun hr
  have hok := List.all_eq_true.1 (romInstrs_ok (rolesOk_of_buildWf hs.build_wf) r) j (List.mem_of_getElem? hmem)
  have hword : (romWords s.build r)[s.romStep.toNat]? = some (encode j) := by rwa [fetchWord, hr] at hf
  rw [hmem, ← hi, currentInstr_rom hrun hr hword (decodeUop_encode (microOpOk_iff.1 hok).1)]

theorem getElem?_lt_of_endsOnce {is : List Instr} (h : endsOnce is) {k : Nat} {i : Instr} (hk : is[k]? = some i)
    (hi : i ≠ .uEnd) : k + 1 < is.length := by
  induction is generalizing k with
  | nil => cases hk
  | cons j is ih =>
    cases is with
    | nil =>
      obtain ⟨rfl, rfl⟩ : k = 0 ∧ j = i := by simpa using List.getElem?_eq_some_iff.1 hk
      exact (hi h).elim
    | cons j' is =>
      cases k with
      | zero => simp
      | succ k => exact Nat.succ_lt_succ (ih h.2 hk)

/-- The bring-up never enters Off (R196). -/
theorem bringup_no_off {p : Profile} {i : Instr} (h : i ∈ romInstrs p .bringup) : i ≠ .uPhase .off := by
  rintro rfl
  simp [romInstrs, bringupInstrs, bringupPll, bringupPhy, bringupFixed, bringupTail, setb, clrb] at h

theorem romWords_length_pos {b : Build} (h : buildWf b = true) (r : RomSel) : 0 < (romWords b r).length := by
  rw [romWords_of_buildWf h]
  cases r <;> simp [romInstrs, bringupInstrs, bringupPll, teardownInstrs]

/-! ## What keeps the invariant -/

theorem RomInv.of_not_running {t : State} (hwf : buildWf t.build = true) (h : ¬ romRunning t) : RomInv t where
  build_wf := hwf
  in_rom := fun _ hrun => (h hrun).elim
  solved := fun ho => (h (.inl ho)).elim

/-- A ROM that starts stands at its first word (R181). -/
theorem RomInv.of_start {t : State} (hwf : buildWf t.build = true) (h : t.romStep = 0) : RomInv t where
  build_wf := hwf
  in_rom := fun r _ _ => by rw [h]; exact romWords_length_pos hwf r
  solved := by simp [h]

theorem RomInv.of_same {s t : State} (hs : RomInv s) (hbuild : t.build = s.build) (hop : t.op = s.op)
    (hrom : t.rom = s.rom) (hstep : t.romStep = s.romStep) (hvalid : t.valid = s.valid) : RomInv t where
  build_wf := by rw [hbuild]; exact hs.build_wf
  in_rom := by
    unfold romRunning
    rw [hbuild, hop, hrom, hstep]
    exact hs.in_rom
  solved := by rw [hop, hstep, hvalid]; exact hs.solved

/-- A micro-op that completes is not the last of its ROM; the U.SOLVE at index 4 leaves a solution, and no later
micro-op of the bring-up discards it. -/
theorem RomInv.of_completed {s t : State} {i : Instr} (hs : RomInv s) (hc : ControlInv s) (hrun : romRunning s)
    (hi : currentInstr s = some i) (hne : i ≠ .uEnd) (hbuild : t.build = s.build) (hop : t.op = s.op)
    (hrom : t.rom = s.rom) (hstep : t.romStep = s.romStep + 1) (hsolve : i = .uSolve → t.valid = true)
    (hvalid : i ≠ .uSolve → i ≠ .uPhase .off → t.valid = s.valid) : RomInv t := by
  have hle : t.romStep.toNat ≤ s.romStep.toNat + 1 := by
    rw [hstep, BitVec.toNat_add]
    exact Nat.mod_le _ _
  refine ⟨hbuild ▸ hs.build_wf, fun r _ hr => ?_, fun ho hlt => ?_⟩
  · rw [hrom] at hr
    have hin := getElem?_lt_of_endsOnce (romInstrs_endsOnce _ r) (hs.template_at hrun hr hi) hne
    rw [hbuild, romWords_of_buildWf hs.build_wf, List.length_map]
    omega
  · rw [hop] at ho
    have hmem := hs.template_at hrun (hc.enable_rom ho) hi
    by_cases hsol : i = .uSolve
    · exact hsolve hsol
    · have hne4 : s.romStep.toNat ≠ 4 := fun h4 => by
        rw [h4] at hmem
        exact hsol (Option.some.inj hmem).symm
      rw [hvalid hsol (bringup_no_off (List.mem_of_getElem? hmem))]
      exact hs.solved ho (by omega)

/-! ## The Engine's turn -/

theorem AccessNext.keeps_rom {i : Instr} {access : Access} {s t : State} (hs : RomInv s) (hc : ControlInv s)
    (hi : currentInstr s = some i) (ha : accessOf s i = some access) (h : AccessNext access (afterAccess i) s t) :
    RomInv t := by
  obtain ⟨m, hm, rfl | rfl | rfl⟩ := h.frame
  · exact hs.of_same hm.build hm.op hm.rom hm.romStep hm.valid
  · obtain ⟨hh, he⟩ | ⟨_, v, he, _⟩ := afterAccess_cases ha m
    · rw [he]
      refine hs.of_completed hc ((currentInstr_kind hi).2 hh) hi ?_ hm.build hm.op hm.rom ?_ ?_ fun _ _ => hm.valid
      · rintro rfl; cases ha
      · rw [advance_romStep, hm.romStep]
      · rintro rfl; cases ha
    · rw [he]
      exact .of_not_running (hm.build ▸ hs.build_wf) (by simp [romRunning])
  · exact .of_not_running (hm.build ▸ hs.build_wf) (by simp [romRunning])

theorem SolveNext.keeps_rom {done : State → State} {s t : State} (h : SolveNext done s t)
    (hwf : buildWf s.build = true)
    (hdone : ∀ frs r, RomInv (done (commitSolution frs (recordSearch r (beginSolve (targetFreq s.acfg) s))))) :
    RomInv t := by
  obtain ⟨_, ⟨_, rfl⟩ | ⟨frs, _, r, _, ⟨_, rfl⟩ | ⟨_, rfl⟩⟩⟩ := h
  · exact .of_not_running hwf (by simp [romRunning])
  · exact hdone frs r
  · exact .of_not_running hwf (by simp [romRunning])

theorem Progress.keeps_rom {i : Instr} {s t : State} (hc : ControlInv s) (hs : RomInv s)
    (hi : currentInstr s = some i) (h : Progress i s t) : RomInv t := by
  have hstart : turnStart s = s := turnStart_eq_self hc.step_mirror
  cases h with
  | access _ access _ _ _ ha hn => exact AccessNext.keeps_rom hs hc hi ha (hstart ▸ hn)
  | ended => rw [hstart]; exact .of_not_running hs.build_wf (by simp [romRunning])
  | phase p _ hrun =>
    rw [hstart]
    refine hs.of_completed hc hrun hi nofun rfl rfl rfl rfl nofun fun _ hoff => ?_
    rw [advance_valid, enterPhase_valid, if_neg fun hp => hoff (congrArg Instr.uPhase hp)]
  | waitStart | waitHold => rw [hstart]; exact hs.of_same rfl rfl rfl rfl rfl
  | waitEnd _ _ hrun | uDerive _ hrun =>
    rw [hstart]
    exact hs.of_completed hc hrun hi nofun rfl rfl rfl rfl nofun fun _ _ => rfl
  | rstline l _ hrun =>
    rw [hstart]
    exact hs.of_completed hc hrun hi nofun (by simp) (by simp) (by simp) (by simp) nofun (by simp)
  | uSolve _ _ hrun hn =>
    rw [hstart] at hn
    exact hn.keeps_rom hs.build_wf fun _ _ =>
      hs.of_completed hc hrun hi nofun rfl rfl rfl rfl (fun _ => rfl) fun h => (h rfl).elim
  | hSolve _ _ ho _ hn =>
    exact hn.keeps_rom hs.build_wf fun _ _ => .of_not_running hs.build_wf (by simp [romRunning, ho])
  | hDerive => exact .of_not_running hs.build_wf (by simp [romRunning])

/-! ## Steps -/

theorem RomInv.env {s t : State} (h : EnvFrame s t) (hs : RomInv s) : RomInv t := by
  rw [h]
  exact hs.of_same rfl rfl rfl rfl rfl

theorem Accepted.build {i : Instr} {s t : State} (h : Accepted i s t) : t.build = s.build := by
  cases h <;> rfl

/-- Settles O57: a ROM starts at index 0, and a turn in it stays at its micro-op, ends the operation, or goes on past a
micro-op that is not the U.END. -/
theorem stepKeepsRomInv : Obligations.StepKeepsRomInv := by
  intro s t hc hs h
  cases step_effect h with
  | environment _ hu => exact hs.env hu
  | runs u _ i hu _ hi hp => exact hp.keeps_rom (hc.env hu) (hs.env hu) hi
  | accepts u _ i hu hb ha =>
    have ho : u.op = .none := by simpa [hb] using (hc.env hu).busy_iff
    have hwf : buildWf t.build = true := ha.build ▸ (hs.env hu).build_wf
    by_cases hrun : romRunning t
    · exact .of_start hwf (ha.romStep_eq_zero ho hrun)
    · exact .of_not_running hwf hrun
  | illegal u c hu => exact (hs.env hu).of_same rfl rfl rfl rfl rfl
  | answers u x a hu => exact (hs.env hu).of_same rfl rfl rfl rfl rfl
  | resets u _ hu =>
    exact .of_not_running (hs.env hu).build_wf (by simp [blockReset, State.resetOf, romRunning])

end Sys2Proof.Machine
end

section
/-! PROOFS. The sequencer's commands and micro-ops one by one (44_sequencer.md R181 to R194), the ROMs of profile T
(R203, R204), and the host's accesses while an operation runs (R182, R206). -/

namespace Sys2Proof.Machine

/-! ## Acceptance -/

theorem enable_accepted {s : State} (hb : s.busy = false) (hc : configOk s.cfg = true) :
    exec .enable s = .next (selectRom .bringup (startOp .enable (latchConfig (beginCommand 0x1 s)))) := by
  simp [exec, execEnable, hb, hc]

theorem enable_badConfig {s : State} (hb : s.busy = false) (hc : configOk s.cfg = false) :
    exec .enable s = .next (refuseCommand .badConfig (beginCommand 0x1 s)) := by
  simp [exec, execEnable, hb, hc]

theorem disable_accepted {s : State} (hb : s.busy = false) :
    exec .disable s = .next (selectRom .teardown (startOp .disable (beginCommand 0x2 s))) := by
  simp [exec, execDisable, hb]

/-- A configuration fails the check of R183 exactly if one of its four divisors is 0. -/
theorem configOk_eq_false_iff (c : DevConfig) :
    configOk c = false ↔ c.pclk = 0 ∨ c.refclk = 0 ∨ c.dpiLanes = 0 ∨ c.dsiLanes = 0 := by
  simp only [configOk, Bool.and_eq_false_iff, bne_eq_false_iff_eq, or_assoc]

/-- Settles O22: the two answers of an idle Engine, by the check of R183. -/
theorem enableAcceptance : Obligations.EnableAcceptance := by
  refine ⟨fun s hb hp hr hdpi hdsi => ?_, fun s hb h0 => enable_badConfig hb ((configOk_eq_false_iff _).2 h0)⟩
  have hc : configOk s.cfg = true := by
    rw [← Bool.not_eq_false, configOk_eq_false_iff]
    simp only [hp, hr, hdpi, hdsi, or_self, not_false_iff]
  exact enable_accepted hb hc

/-- Settles O23: an idle Engine accepts DISABLE without looking at the phase or the configuration. -/
theorem disableAcceptance : Obligations.DisableAcceptance := fun _ hb => disable_accepted hb

/-! ## Micro-ops -/

/-- Settles O34: U.END is `finish`. -/
theorem uEndIdlesTheEngine : Obligations.UEndIdlesTheEngine := fun _ => rfl

/-- Every phase but Off keeps the solution (R189, R190). -/
theorem enterPhase_of_ne_off {p : Phase} (s : State) (hp : p ≠ .off) : enterPhase p s = { s with phase := p } := by
  rw [enterPhase, if_neg hp]

/-- Settles O35: the phase entered, then the next micro-op. -/
theorem uPhaseSetsThePhase : Obligations.UPhaseSetsThePhase := by
  refine ⟨fun s p hp => ?_, fun _ => rfl⟩
  rw [exec, execUPhase, enterPhase_of_ne_off s hp]
  rfl

theorem driveResetLine_changed {s : State} {l : Bool} (hline : s.build.hasResetLine = true) (hl : s.rstline ≠ l) :
    driveResetLine l s = { s with rstline := l, log := s.log ++ [.resetLine l s.now] } := by
  simp [driveResetLine, hline, hl]

theorem driveResetLine_same {s : State} {l : Bool} (hl : s.rstline = l) : driveResetLine l s = s := by
  simp [driveResetLine, hl]

theorem driveResetLine_absent {s : State} (l : Bool) (hline : s.build.hasResetLine = false) :
    driveResetLine l s = s := by
  simp [driveResetLine, hline]

/-- Settles O37: the line driven, left at its level, or absent; then the next micro-op. -/
theorem uRstlineDrivesTheLine : Obligations.URstlineDrivesTheLine := by
  intro s l
  refine ⟨fun hline hl => ?_, fun _ hl => ?_, fun hline => ?_⟩
  · rw [exec, execURstline, driveResetLine_changed hline hl]
    rfl
  · rw [exec, execURstline, driveResetLine_same hl]
    rfl
  · rw [exec, execURstline, driveResetLine_absent l hline]
    rfl

/-- Settles O8: fixed words, encoded by evaluation. -/
theorem romsOfProfileT : Obligations.RomsOfProfileT := ⟨rfl, rfl⟩

/-! ## The host while an operation runs -/

/-- A host access while BUSY is 1 writes at most CFG, ARG_DATA, ARG_MASK, REJECT and the response: no command is
accepted or refused with an error code (R182). -/
theorem Move.host_busy {a : HostAccess} {s t : State} (hb : s.busy = true) (h : Move (.host a) s t) :
    t = { s with reply := t.reply, cfg := t.cfg, argData := t.argData, argMask := t.argMask, reject := t.reject } := by
  cases h with
  | replied | wroteCfg | wroteArgData | wroteArgMask | wroteStatus | rejected => rfl
  | illegal _ _ _ hidle => simp [hb] at hidle
  | accepted _ _ _ _ hidle => simp [hb] at hidle

/-- Settles O49: the step is the host's move from the state that has taken the input. -/
theorem hostCannotDisturbTheOperation : Obligations.HostCannotDisturbTheOperation := by
  intro s t a rest hb hin h
  have hdrop : dropInput s = { s with inputs := rest } := by rw [dropInput, hin, List.tail_cons]
  obtain ⟨hnil, _⟩ | ⟨j, rest', hj, hm⟩ := step_move h
  · cases hin.symm.trans hnil
  · cases hin.symm.trans hj
    rw [hdrop] at hm
    exact Move.host_busy (s := { s with inputs := rest }) hb hm

end Sys2Proof.Machine
end

section
/-! PROOFS. Environments that hold nothing up (log 2): what they make of an access, a wait and a micro-op, in how many
moves, and of a whole schedule ROM (44_sequencer.md R186, R196, R198). -/

namespace Sys2Proof.Machine

/-! ## Helped moves -/

/-- Whatever the data of the answers, a state with `P` is reached within `n` moves of the helpful environment. -/
inductive Within (P : State → Prop) : Nat → State → Prop where
  | here {n : Nat} {s : State} : P s → Within P n s
  | move {n : Nat} {s : State} (t : Half → State) :
      (∀ d, step { s with inputs := [helpfulMove d s] } = .next (t d)) → (∀ d, Within P n (t d)) → Within P (n + 1) s

theorem Within.of_le {P : State → Prop} {n m : Nat} {s : State} (h : Within P n s) (hnm : n ≤ m) : Within P m s := by
  induction h generalizing m with
  | here hp => exact .here hp
  | move t hstep _ ih =>
    obtain _ | m := m
    · cases hnm
    · exact .move t hstep fun d => ih d (Nat.le_of_succ_le_succ hnm)

/-- Moves until `P`, then moves until `Q`. -/
theorem Within.trans {P Q : State → Prop} {n m : Nat} {s : State} (h : Within P n s)
    (hpq : ∀ t, P t → Within Q m t) : Within Q (n + m) s := by
  induction h with
  | here hp => exact (hpq _ hp).of_le (Nat.le_add_left _ _)
  | @move n _ t hstep _ ih =>
    rw [Nat.add_right_comm]
    exact .move t hstep ih

/-- The environment with enough data reaches the state with `P`, with some of them left. -/
theorem Within.helped {P : State → Prop} {n : Nat} {s : State} (h : Within P n s) {ds : List Half}
    (hds : n ≤ ds.length) : ∃ t rest, P t ∧ helped ds s = helped rest t := by
  induction h generalizing ds with
  | @here _ s hp => exact ⟨s, ds, hp, rfl⟩
  | move t hstep _ ih =>
    obtain _ | ⟨d, ds⟩ := ds
    · cases hds
    · obtain ⟨u, rest, hu, he⟩ := ih d (Nat.le_of_succ_le_succ hds)
      refine ⟨u, rest, hu, ?_⟩
      rw [Machine.helped, hstep d]
      exact he

/-- An idle Engine stays as it is, whatever the moves. -/
theorem helped_idle (ds : List Half) {s : State} (hb : s.busy = false) (hbus : s.bus = .idle)
    (hw : s.waiting = false) : ∃ ins, helped ds s = .next { s with inputs := ins } := by
  induction ds generalizing s with
  | nil => exact ⟨s.inputs, rfl⟩
  | cons d ds ih =>
    obtain ⟨ins, he⟩ := ih (s := { s with inputs := [] }) hb hbus hw
    have hstep : step { s with inputs := [helpfulMove d s] } = .next { s with inputs := [] } := by
      simp [step, helpfulMove, hbus, hw, applyInput, engineTurn, dropInput, hb]
    exact ⟨ins, by rw [helped, hstep]; exact he⟩

/-! ## One move -/

/-- The state that the Engine's turn in a ROM starts from: the input is taken, and STATUS.STEP mirrors S.step (R186). -/
def fetched (s : State) : State := { s with inputs := [], statStep := s.romStep }

theorem helpfulMove_engine {s : State} (hbus : s.bus = .idle) (hw : s.waiting = false) (d : Half) :
    helpfulMove d s = .engine := by
  simp [helpfulMove, hbus, hw]

theorem Within.engine {P : State → Prop} {n : Nat} {s t : State} {i : Instr} (hb : s.busy = true)
    (hrun : romRunning s) (hi : currentInstr s = some i) (hmove : ∀ d, helpfulMove d s = .engine)
    (hexec : exec i (fetched s) = .next t) (h : Within P n t) : Within P (n + 1) s := by
  refine .move (fun _ => t) (fun d => ?_) fun _ => h
  rw [hmove d, ← hexec]
  exact step_rom (s := { s with inputs := [.engine] }) hb hrun hi rfl

theorem Within.answer {P : State → Prop} {n : Nat} {s : State} {x : Tx} (hbus : s.bus = .pending x)
    (h : ∀ d, Within P n (receive (.ok d) { s with inputs := [] })) : Within P (n + 1) s := by
  refine .move _ (fun d => ?_) h
  have hmove : helpfulMove d s = .answer (.ok d) := by simp [helpfulMove, hbus]
  rw [hmove]
  exact step_answer_pending (s := { s with inputs := [.answer (.ok d)] }) rfl hbus

theorem Within.elapse {P : State → Prop} {n : Nat} {s : State} (hbus : s.bus = .idle) (hw : s.waiting = true)
    (hlt : s.now < s.waitStart + frameWaitMinUs)
    (h : Within P n (elapse frameWaitMinUs { s with inputs := [] })) : Within P (n + 1) s := by
  refine .move (fun _ => _) (fun d => ?_) fun _ => h
  have hmove : helpfulMove d s = .elapse frameWaitMinUs := by simp [helpfulMove, hbus, hw, hlt]
  rw [hmove]
  rfl

/-! ## A register access -/

theorem runAccess_of_ready {access : Access} {s m : State} (h : Ready access s m) (k : State → Result) :
    runAccess access s k = issueNext access m k := by
  cases h with
  | begins hb hr => simp [runAccess, hb, hr]
  | takes d hb hr => simp [runAccess, hb, hr]

theorem microOp_of_romRunning {s : State} {i : Instr} (hrun : romRunning s) (hi : currentInstr s = some i) :
    i.isHost = false := by
  by_contra hh
  obtain ⟨_, hn, _⟩ := (currentInstr_kind hi).1 (by simpa using hh)
  exact hn hrun

/-- A micro-op's turn that has taken its answer issues the next transaction, or goes on to the next micro-op. -/
theorem exec_microOp_ready {s m : State} {i : Instr} {access : Access} (hh : i.isHost = false)
    (ha : accessOf s i = some access) (hm : Ready access s m) :
    exec i s = issueNext access m fun m => .next (advance m) := by
  rw [exec_access ha (by simp [hh]), runAccess_of_ready hm, funext (afterAccess_uop ha hh)]

/-- The state right after the last turn of an access that began in `s`: the next micro-op is due. -/
def AccessDone (s t : State) : Prop :=
  ∃ m, AccessFrame (fetched s) m ∧ m.bus = .idle ∧ m.response = none ∧ t = advance m

section
variable {s u m : State} {i : Instr} {access : Access}

/-- The turn after the last answer. -/
theorem access_done_within (hb : s.busy = true) (hrun : romRunning s) (hi : currentInstr s = some i)
    (ha : accessOf s i = some access) (hw : s.waiting = false) (hu : AccessFrame (fetched s) (fetched u))
    (hm : Ready access (fetched u) m) (hx : txAt access m = none) (n : Nat) : Within (AccessDone s) (n + 1) u := by
  have hexec := exec_microOp_ready (microOp_of_romRunning hrun hi) ((accessOf_frame hu i).trans ha) hm
  rw [issueNext, hx] at hexec
  refine .engine (hu.busy.trans hb) ?_ ((currentInstr_frame hu).trans hi)
    (helpfulMove_engine (hm.bus_eq.symm.trans hm.bus) (hu.waiting.trans hw)) hexec
    (.here ⟨m, hu.trans hm.frame, hm.bus, hm.response, rfl⟩)
  exact hrun.imp hu.op.trans hu.op.trans

/-- The turn that issues a transaction, and its answer. -/
theorem access_issue_within (hb : s.busy = true) (hrun : romRunning s) (hi : currentInstr s = some i)
    (ha : accessOf s i = some access) (hw : s.waiting = false) (hu : AccessFrame (fetched s) (fetched u))
    (hm : Ready access (fetched u) m) {x : Tx} (hx : txAt access m = some x) {n : Nat}
    (hnext : ∀ v m', AccessFrame (fetched s) (fetched v) → Ready access (fetched v) m' → m'.sub = m.sub + 1 →
      Within (AccessDone s) n v) : Within (AccessDone s) (n + 1 + 1) u := by
  have hexec := exec_microOp_ready (microOp_of_romRunning hrun hi) ((accessOf_frame hu i).trans ha) hm
  rw [issueNext, hx] at hexec
  have hsm := hu.trans hm.frame
  refine .engine (hu.busy.trans hb) (hrun.imp hu.op.trans hu.op.trans) ((currentInstr_frame hu).trans hi)
    (helpfulMove_engine (hm.bus_eq.symm.trans hm.bus) (hu.waiting.trans hw)) hexec (.answer rfl fun d => ?_)
  refine hnext _ _ ?_ (.takes d rfl rfl) rfl
  unfold AccessFrame at hsm ⊢
  rw [hsm]
  rfl

/-- A micro-op's access with at most `left` transactions to go completes: each takes the turn that issues it and its
answer, and one turn more goes on to the next micro-op. -/
theorem access_within (hb : s.busy = true) (hrun : romRunning s) (hi : currentInstr s = some i)
    (ha : accessOf s i = some access) (hw : s.waiting = false) (left : Nat)
    (hu : AccessFrame (fetched s) (fetched u)) (hm : Ready access (fetched u) m)
    (hlen : ∀ data, (access data).length ≤ m.sub + left) : Within (AccessDone s) (2 * left + 1) u := by
  induction left generalizing u m with
  | zero => exact access_done_within hb hrun hi ha hw hu hm (List.getElem?_eq_none (hlen m.readData)) 0
  | succ left ih =>
    cases hx : txAt access m with
    | none => exact access_done_within hb hrun hi ha hw hu hm hx _
    | some x =>
      refine access_issue_within hb hrun hi ha hw hu hm hx fun v m' hv hm' hsub => ih hv hm' fun data => ?_
      rw [hsub, Nat.add_right_comm, Nat.add_assoc]
      exact hlen data

end

end Sys2Proof.Machine
end

section
/-! PROOFS. What the helpful environment makes of each micro-op of a schedule ROM, and of a whole ROM (44_sequencer.md
R186, R196, R198). -/

namespace Sys2Proof.Machine

/-! ## What a micro-op does to the state that outlasts it -/

/-- Two states that differ at most in the time, the observation, the moves to come and where the running ROM stands in
its micro-op. -/
def RunFrame (s t : State) : Prop :=
  t = { s with statStep := t.statStep, romStep := t.romStep, bus := t.bus, response := t.response, sub := t.sub,
               readData := t.readData, waiting := t.waiting, waitStart := t.waitStart, now := t.now,
               inputs := t.inputs, log := t.log }

theorem RunFrame.refl (s : State) : RunFrame s s := rfl

theorem RunFrame.trans {s t u : State} (h : RunFrame s t) (h' : RunFrame t u) : RunFrame s u := by
  unfold RunFrame at *
  rw [h']; conv => lhs; rw [h]

/-- What a completed micro-op leaves of `s`, but for the step to its successor: the operation of the model that it
carries out. A register access leaves its writes to the bridge. -/
def outcome : Instr → State → State
  | .uPhase p, s => enterPhase p s
  | .uRstline l, s => driveResetLine l s
  | .uSolve, s =>
    match bracket (targetFreq s.acfg) with
    | some frs => commitSolution frs (recordSearch (searchPll s.acfg.refclk.toNat frs (targetFreq s.acfg))
        (beginSolve (targetFreq s.acfg) s))
    | none => s
  | .uDerive, s => writeTiming s
  | .uWr _ _, s | .uUpd _ _ _, s | .uShort _ _ _, s | .uWait _, s | .uEnd, s => s
  | .enable, s | .disable, s | .hSolve, s | .hRegwr _, s | .hRegrd _, s | .hRegupd _, s | .hShort _ _ _, s => s

theorem outcome_uSolve {s : State} {frs : Nat} (hb : bracket (targetFreq s.acfg) = some frs) :
    outcome .uSolve s = commitSolution frs (recordSearch (searchPll s.acfg.refclk.toNat frs (targetFreq s.acfg))
      (beginSolve (targetFreq s.acfg) s)) := by
  simp only [outcome, hb]

/-- A micro-op writes results, not control state. -/
theorem outcome_eq (i : Instr) (s : State) :
    outcome i s = { s with
      phase := (outcome i s).phase, valid := (outcome i s).valid, rstline := (outcome i s).rstline,
      log := (outcome i s).log, fbd := (outcome i s).fbd, prd := (outcome i s).prd, frs := (outcome i s).frs,
      pllFreq := (outcome i s).pllFreq, pllBitclk := (outcome i s).pllBitclk, pllRefclk := (outcome i s).pllRefclk,
      target := (outcome i s).target, search := (outcome i s).search, timHsync := (outcome i s).timHsync,
      timVsync := (outcome i s).timVsync } := by
  cases i with
  | uSolve =>
    cases hb : bracket (targetFreq s.acfg) with
    | none => simp only [outcome, hb]
    | some frs => rw [outcome_uSolve hb]; rfl
  | uRstline l => obtain ⟨_, _, he⟩ | ⟨_, he⟩ := driveResetLine_cases l s <;> rw [outcome, he]
  | uPhase | uDerive | uWr | uUpd | uShort | uWait | uEnd | enable | disable | hSolve | hRegwr | hRegrd | hRegupd
  | hShort => rfl

/-- What a micro-op does depends on nothing that a run may change on its way. -/
theorem RunFrame.outcome {s t : State} (h : RunFrame s t) (i : Instr) : RunFrame (outcome i s) (outcome i t) := by
  cases i with
  | uSolve =>
    have hacfg : t.acfg = s.acfg := by rw [h]
    cases hb : bracket (targetFreq s.acfg) with
    | none => simpa only [Machine.outcome, hacfg, hb] using h
    | some frs =>
      rw [outcome_uSolve hb, outcome_uSolve (hacfg ▸ hb), h]
      rfl
  | uRstline l =>
    rw [h]
    simp only [Machine.outcome, driveResetLine]
    split <;> rfl
  | uPhase | uDerive | uWr | uUpd | uShort | uWait | uEnd | enable | disable | hSolve | hRegwr | hRegrd | hRegupd
  | hShort => rw [h]; rfl

/-- A micro-op that goes on to its successor: not the U.END, a U.SOLVE only where the latched configuration has a
solution (R154, R156), a U.DERIVE only with one (R175). -/
def CanComplete : Instr → State → Prop
  | .uEnd, _ => False
  | .uSolve, s => configOk s.acfg = true ∧ ∃ frs, bracket (targetFreq s.acfg) = some frs ∧
      (searchPll s.acfg.refclk.toNat frs (targetFreq s.acfg)).found = true
  | .uDerive, s => s.valid = true ∧ configOk s.acfg = true
  | .uPhase _, _ | .uRstline _, _ | .uWr _ _, _ | .uUpd _ _ _, _ | .uShort _ _ _, _ | .uWait _, _ => True
  | .enable, _ | .disable, _ | .hSolve, _ | .hRegwr _, _ | .hRegrd _, _ | .hRegupd _, _ | .hShort _ _ _, _ => True

theorem RunFrame.canComplete {s t : State} (h : RunFrame s t) {i : Instr} (hi : CanComplete i s) : CanComplete i t := by
  rw [h]
  cases i <;> exact hi

/-! ## How many moves a micro-op takes -/

/-- A bound on the transactions of a micro-op (R131 to R133, R212), reached with W32 registers. -/
def maxTxs : Instr → Nat
  | .uWr _ _ => 2
  | .uUpd _ _ _ => 4
  | .uShort _ _ _ => 8
  | .uPhase _ | .uRstline _ | .uSolve | .uDerive | .uWait _ | .uEnd => 0
  | .enable | .disable | .hSolve | .hRegwr _ | .hRegrd _ | .hRegupd _ | .hShort _ _ _ => 0

/-- A bound on the helpful moves of a micro-op: two for each transaction and one that completes it; a U.WAIT's are its
start, the time and its end. -/
def maxMoves : Instr → Nat
  | .uWait _ => 3
  | i => 2 * maxTxs i + 1

theorem regWriteTxs_length_le (a : Addr) (v : Word) : (regWriteTxs a v).length ≤ 2 := by
  unfold regWriteTxs
  split <;> simp

theorem regReadTxs_length_le (a : Addr) : (regReadTxs a).length ≤ 2 := by
  unfold regReadTxs
  split <;> simp

theorem regUpdateTxs_length_le (a : Addr) (m v : Word) (data : List Half) : (regUpdateTxs a m v data).length ≤ 4 := by
  have hread := regReadTxs_length_le a
  have hwrite := regWriteTxs_length_le a (updatedValue a m v (regReadValue a data))
  rw [regUpdateTxs_eq, List.length_append, updateWriteTxs]
  split_ifs
  · rw [List.length_nil]; omega
  · rw [List.length_nil]; omega
  · omega

theorem sendShortTxs_length_le (p : Profile) (addrs : Addr × Addr × Addr × Addr) (c p0 p1 : Byte) :
    (sendShortTxs p addrs c p0 p1).length ≤ 8 := by
  have h1 := regWriteTxs_length_le addrs.1 (shortHeader p c)
  have h2 := regWriteTxs_length_le addrs.2.1 0
  have h3 := regWriteTxs_length_le addrs.2.2.1 (shortPayload p0 p1)
  have h4 := regWriteTxs_length_le addrs.2.2.2 p.scTriggerValue
  simp only [sendShortTxs, List.length_append]
  omega

theorem accessOf_length_le {s : State} {i : Instr} {access : Access} (hh : i.isHost = false)
    (ha : accessOf s i = some access) (data : List Half) : (access data).length ≤ maxTxs i := by
  cases i with
  | uWr r v =>
    simp only [accessOf] at ha
    split at ha
    · cases ha; exact regWriteTxs_length_le _ _
    · cases ha
  | uUpd r m v =>
    simp only [accessOf] at ha
    split at ha
    · cases ha; exact regUpdateTxs_length_le _ _ _ data
    · cases ha
  | uShort c p0 p1 =>
    obtain ⟨addrs, _, rfl⟩ := Option.map_eq_some_iff.1 ha
    exact sendShortTxs_length_le _ addrs c p0 p1
  | uPhase | uRstline | uSolve | uDerive | uWait | uEnd => cases ha
  | enable | disable | hSolve | hRegwr | hRegrd | hRegupd | hShort => cases hh

/-- A well-formed micro-op with transactions has an access. -/
theorem accessOf_ne_none {s : State} {i : Instr} (hwf : i.wf s.build.profile = true)
    (hroles : rolesOk s.build.profile = true) (htx : maxTxs i ≠ 0) : accessOf s i ≠ none := by
  cases i with
  | uWr => exact fun hn => by simp [accessOf_uWr_eq_none_iff.1 hn] at hwf
  | uUpd => exact fun hn => by simp [accessOf_uUpd_eq_none_iff.1 hn] at hwf
  | uShort => simpa [accessOf] using shortAddrs_ne_none hroles
  | uPhase | uRstline | uSolve | uDerive | uWait | uEnd => exact (htx rfl).elim
  | enable | disable | hSolve | hRegwr | hRegrd | hRegupd | hShort => exact (htx rfl).elim

/-! ## One micro-op -/

/-- A ROM of a well-formed DBBE runs and stands right before its micro-op `k`. -/
structure AtMicroOp (r : RomSel) (k : Nat) (s : State) : Prop where
  build_wf : buildWf s.build = true
  busy : s.busy = true
  running : romRunning s
  rom : s.rom = some r
  step : s.romStep.toNat = k
  bus : s.bus = .idle
  response : s.response = none
  waiting : s.waiting = false

theorem AtMicroOp.of_frame {r : RomSel} {k : Nat} {s t : State} (h : AtMicroOp r k s) (hf : RunFrame s t)
    (hstep : t.romStep = s.romStep) (hbus : t.bus = .idle) (hr : t.response = none) (hw : t.waiting = false) :
    AtMicroOp r k t := by
  have hk : t.romStep.toNat = k := by rw [hstep]; exact h.step
  rw [hf]
  exact ⟨h.build_wf, h.busy, h.running, h.rom, hk, hbus, hr, hw⟩

theorem AtMicroOp.fetched {r : RomSel} {k : Nat} {s : State} (h : AtMicroOp r k s) : AtMicroOp r k (fetched s) :=
  h.of_frame rfl rfl h.bus h.response h.waiting

theorem AtMicroOp.outcome {r : RomSel} {k : Nat} {s : State} (h : AtMicroOp r k s) (i : Instr) :
    AtMicroOp r k (outcome i s) := by
  rw [outcome_eq]
  exact ⟨h.build_wf, h.busy, h.running, h.rom, h.step, h.bus, h.response, h.waiting⟩

theorem AtMicroOp.of_access {r : RomSel} {k : Nat} {s m : State} (h : AtMicroOp r k s) (hm : AccessFrame s m)
    (hbus : m.bus = .idle) (hr : m.response = none) : AtMicroOp r k m :=
  h.of_frame (by rw [hm]; rfl) hm.romStep hbus hr (hm.waiting.trans h.waiting)

theorem AtMicroOp.advance {r : RomSel} {k : Nat} {s : State} (h : AtMicroOp r k s) (hk : k + 1 < 256) :
    AtMicroOp r (k + 1) (advance s) where
  build_wf := h.build_wf
  busy := h.busy
  running := h.running
  rom := h.rom
  step := by
    have hstep := h.step
    rw [advance_romStep, BitVec.toNat_add_of_lt (y := 1) (by simp; omega), hstep]
    rfl
  bus := h.bus
  response := h.response
  waiting := h.waiting

/-- The micro-ops of one turn complete at once. -/
theorem exec_of_maxMoves_eq_one {i : Instr} {s : State} (hh : i.isHost = false) (h1 : maxMoves i = 1)
    (hc : CanComplete i s) : exec i s = .next (advance (outcome i s)) := by
  cases i with
  | uPhase | uRstline => rfl
  | uSolve =>
    obtain ⟨hcfg, frs, hb, hf⟩ := hc
    rw [outcome_uSolve hb]
    exact solve_found (fun t => .next (advance t)) hcfg hb hf
  | uDerive =>
    obtain ⟨hv, hcfg⟩ := hc
    exact derive_ok (fun t => .next (advance t)) hv hcfg
  | uEnd => exact hc.elim
  | uWr | uUpd | uShort | uWait => simp [maxMoves, maxTxs] at h1
  | enable | disable | hSolve | hRegwr | hRegrd | hRegupd | hShort => cases hh

/-- What the helpful environment makes of micro-op `k`, begun in `s`. -/
def MicroOpDone (r : RomSel) (k : Nat) (i : Instr) (s t : State) : Prop :=
  AtMicroOp r (k + 1) t ∧ RunFrame (outcome i s) t

section
variable {r : RomSel} {k : Nat} {s : State} {i : Instr}

theorem oneTurn_within (h : AtMicroOp r k s) (hi : currentInstr s = some i) (hk : k + 1 < 256) (h1 : maxMoves i = 1)
    (hc : CanComplete i s) : Within (MicroOpDone r k i s) 1 s := by
  have hframe : RunFrame s (Machine.fetched s) := rfl
  have hexec := exec_of_maxMoves_eq_one (microOp_of_romRunning h.running hi) h1 (hframe.canComplete hc)
  exact .engine h.busy h.running hi (helpfulMove_engine h.bus h.waiting) hexec
    (.here ⟨(h.fetched.outcome i).advance hk, (hframe.outcome i).trans rfl⟩)

theorem accessOp_within (h : AtMicroOp r k s) (hi : currentInstr s = some i) (hk : k + 1 < 256)
    {access : Access} (ha : accessOf s i = some access) (hout : outcome i s = s) :
    Within (MicroOpDone r k i s) (2 * maxTxs i + 1) s := by
  have hh := microOp_of_romRunning h.running hi
  have hwithin := access_within h.busy h.running hi ha h.waiting (maxTxs i) (.refl _)
    (.begins (s := Machine.fetched s) h.bus h.response) fun data => by
      rw [beginAccess_sub, Nat.zero_add]; exact accessOf_length_le hh ha data
  refine hwithin.trans (m := 0) ?_
  rintro t ⟨m, hm, hbus, hr, rfl⟩
  refine .here ⟨(h.fetched.of_access hm hbus hr).advance hk, ?_⟩
  rw [hout, hm]
  rfl

/-- The state in which a U.WAIT begun in `s` has been given its time. -/
def waited (s : State) : State := elapse frameWaitMinUs (startWait (Machine.fetched s))

theorem runFrame_waited (s : State) : RunFrame s (waited s) := rfl

theorem AtMicroOp.waited_ended (h : AtMicroOp r k s) : AtMicroOp r k (endWait (Machine.fetched (waited s))) :=
  h.of_frame ((runFrame_waited s).trans rfl) (by simp [waited, Machine.fetched])
    (by simp [waited, Machine.fetched, h.bus]) (by simp [waited, Machine.fetched, h.response]) rfl

/-- A U.WAIT starts, the environment's time is at least its minimum, and it ends (R193). -/
theorem wait_within {d : Delay} (h : AtMicroOp r k s) (hi : currentInstr s = some (.uWait d)) (hk : k + 1 < 256) :
    Within (MicroOpDone r k (.uWait d) s) 3 s := by
  have hmin : delayMinUs d ≤ (waited s).now - (waited s).waitStart := by
    have hle : delayMinUs d ≤ frameWaitMinUs := by cases d <;> decide
    simpa [waited] using hle
  have hmove : ∀ x, helpfulMove x (waited s) = .engine := by simp [helpfulMove, waited, fetched, h.bus]
  have hdone : MicroOpDone r k (.uWait d) s (advance (endWait (Machine.fetched (waited s)))) :=
    ⟨h.waited_ended.advance hk, (runFrame_waited s).trans rfl⟩
  have hend : Within (MicroOpDone r k (.uWait d) s) 1 (waited s) :=
    .engine h.busy h.running hi hmove (uWait_ends rfl hmin) (.here hdone)
  have htime : Within (MicroOpDone r k (.uWait d) s) 2 (startWait (Machine.fetched s)) :=
    .elapse h.bus rfl (Nat.lt_add_of_pos_right (by decide)) hend
  exact .engine h.busy h.running hi (helpfulMove_engine h.bus h.waiting) (uWait_starts d h.waiting) htime

/-- Every micro-op that can complete does so, within its bound of moves. -/
theorem microOp_within (h : AtMicroOp r k s) (hi : currentInstr s = some i) (hwf : i.wf s.build.profile = true)
    (hk : k + 1 < 256) (hc : CanComplete i s) : Within (MicroOpDone r k i s) (maxMoves i) s := by
  have hh := microOp_of_romRunning h.running hi
  have access (htx : maxTxs i ≠ 0) (hout : outcome i s = s) : Within (MicroOpDone r k i s) (2 * maxTxs i + 1) s := by
    obtain ⟨access, ha⟩ :=
      Option.ne_none_iff_exists'.1 (accessOf_ne_none hwf (rolesOk_of_buildWf h.build_wf) htx)
    exact accessOp_within h hi hk ha hout
  cases i with
  | uPhase | uRstline | uSolve | uDerive => exact oneTurn_within h hi hk rfl hc
  | uWr | uUpd | uShort => exact access nofun rfl
  | uWait d => exact wait_within h hi hk
  | uEnd => exact hc.elim
  | enable | disable | hSolve | hRegwr | hRegrd | hRegupd | hShort => cases hh

end

end Sys2Proof.Machine
end

section
/-! PROOFS. A whole schedule ROM under the helpful environment, and with it the whole ENABLE and the whole DISABLE
(44_sequencer.md R185 to R190, R196, R198). -/

namespace Sys2Proof.Machine

/-! ## Micro-ops one after the other -/

/-- What a part of a ROM leaves, micro-op by micro-op. -/
def outcomes : List Instr → State → State
  | [], s => s
  | i :: is, s => outcomes is (outcome i s)

/-- Every micro-op of a part of a ROM can complete when its turn comes. -/
def AllComplete : List Instr → State → Prop
  | [], _ => True
  | i :: is, s => CanComplete i s ∧ AllComplete is (outcome i s)

theorem outcomes_append (is js : List Instr) (s : State) : outcomes (is ++ js) s = outcomes js (outcomes is s) := by
  induction is generalizing s with
  | nil => rfl
  | cons i is ih => exact ih (outcome i s)

theorem allComplete_append {is js : List Instr} {s : State} :
    AllComplete (is ++ js) s ↔ AllComplete is s ∧ AllComplete js (outcomes is s) := by
  induction is generalizing s with
  | nil => simp [AllComplete, outcomes]
  | cons i is ih => simp only [List.cons_append, AllComplete, outcomes, ih, and_assoc]

/-- The build, the error kind and LASTOP are none of a micro-op's results. -/
theorem outcomes_keep (is : List Instr) (s : State) :
    (outcomes is s).build = s.build ∧ (outcomes is s).err = s.err ∧ (outcomes is s).lastop = s.lastop := by
  induction is generalizing s with
  | nil => exact ⟨rfl, rfl, rfl⟩
  | cons i is ih =>
    have h := ih (outcome i s)
    rw [outcome_eq] at h
    rwa [outcomes, outcome_eq]

theorem RunFrame.outcomes {s t : State} (h : RunFrame s t) (is : List Instr) :
    RunFrame (outcomes is s) (outcomes is t) := by
  induction is generalizing s t with
  | nil => exact h
  | cons i is ih => exact ih (h.outcome i)

theorem RunFrame.allComplete {s t : State} (h : RunFrame s t) {is : List Instr} (hc : AllComplete is s) :
    AllComplete is t := by
  induction is generalizing s t with
  | nil => trivial
  | cons i is ih => exact ⟨h.canComplete hc.1, ih (h.outcome i) hc.2⟩

/-- Register writes leave nothing behind in the DBBE, and always complete. -/
theorem outcomes_of_writes {is : List Instr} (h : ∀ i ∈ is, ∃ r v, i = .uWr r v) (s : State) :
    outcomes is s = s ∧ AllComplete is s := by
  induction is with
  | nil => exact ⟨rfl, trivial⟩
  | cons i is ih =>
    obtain ⟨⟨r, v, rfl⟩, his⟩ := List.forall_mem_cons.1 h
    obtain ⟨hout, hall⟩ := ih his
    exact ⟨hout, trivial, hall⟩

/-! ## A ROM -/

theorem romInstrs_length_le {b : Build} (h : buildWf b = true) (r : RomSel) : (romInstrs b.profile r).length ≤ 256 := by
  obtain ⟨_, _, _, _, _, hlen, _⟩ := admissible_of_buildOf (buildWf_iff.1 h)
  cases r with
  | bringup =>
    simp only [romInstrs, bringupInstrs, bringupPll, bringupPhy, bringupFixed, bringupTail, List.length_append,
      List.length_cons, List.length_nil, List.length_map]
    omega
  | teardown => simp [romInstrs, teardownInstrs]

section
variable {r : RomSel} {k : Nat} {s : State} {i : Instr}

/-- The micro-op that a running ROM stands at is its template's, which is well formed. -/
theorem AtMicroOp.current (h : AtMicroOp r k s) (hk : (romInstrs s.build.profile r)[k]? = some i) :
    currentInstr s = some i ∧ i.wf s.build.profile = true := by
  have hok := List.all_eq_true.1 (romInstrs_ok (rolesOk_of_buildWf h.build_wf) r) i (List.mem_of_getElem? hk)
  obtain ⟨hh, hwf⟩ := microOpOk_iff.1 hok
  refine ⟨currentInstr_rom h.running h.rom (w := encode i) ?_ (decodeUop_encode hh), hwf⟩
  rw [h.step, romWords_of_buildWf h.build_wf, List.getElem?_map, hk, Option.map_some]

/-- U.END ends the operation in one move. -/
theorem uEnd_within (h : AtMicroOp r k s) (hk : (romInstrs s.build.profile r)[k]? = some .uEnd) :
    Within (· = finish (Machine.fetched s)) 1 s :=
  .engine h.busy h.running (h.current hk).1 (helpfulMove_engine h.bus h.waiting) rfl (.here rfl)

/-- Before the U.END: all micro-ops from `k` on complete, each within its bound. -/
theorem schedule_within {is : List Instr} (h : AtMicroOp r k s)
    (hrom : (romInstrs s.build.profile r).drop k = is ++ [.uEnd]) (hc : AllComplete is s) :
    Within (fun t => AtMicroOp r (k + is.length) t ∧ RunFrame (outcomes is s) t) (is.map maxMoves).sum s := by
  induction is generalizing k s with
  | nil => exact .here ⟨h, .refl s⟩
  | cons i is ih =>
    have hget : (romInstrs s.build.profile r)[k]? = some i := by
      have := congrArg List.head? hrom
      rwa [List.head?_drop] at this
    have hdrop : (romInstrs s.build.profile r).drop (k + 1) = is ++ [.uEnd] := by
      rw [← List.tail_drop, hrom]
      rfl
    have hk : k + 1 < 256 := by
      have hle := romInstrs_length_le h.build_wf r
      have hlen := congrArg List.length hdrop
      rw [List.length_drop, List.length_append, List.length_singleton] at hlen
      omega
    obtain ⟨hi, hwf⟩ := h.current hget
    obtain ⟨hci, hcis⟩ := hc
    rw [List.map_cons, List.sum_cons]
    refine (microOp_within h hi hwf hk hci).trans fun t ht => ?_
    obtain ⟨hat, hframe⟩ := ht
    have hbuild : t.build = s.build := by rw [hframe, outcome_eq]
    refine ((ih hat (by rw [hbuild, hdrop]) (hframe.allComplete hcis)).trans (m := 0) ?_)
    rintro u ⟨hu, hframe'⟩
    refine .here ⟨?_, (hframe.outcomes is).trans hframe'⟩
    rwa [List.length_cons, ← Nat.add_assoc, Nat.add_right_comm]

/-- A ROM's micro-ops `is`, begun in `s`, and its U.END are done: the Engine is idle at the U.END's index, without an
error, and the results are those that the micro-ops leave. -/
structure RomDone (is : List Instr) (s t : State) : Prop where
  busy : t.busy = false
  op : t.op = .none
  err : t.err = s.err
  lastop : t.lastop = s.lastop
  step : t.statStep.toNat = is.length
  results : resultsOf t = resultsOf (outcomes is s)

theorem RomDone.of_frame {is : List Instr} {s t : State} (h : RunFrame (finish (outcomes is s)) t)
    (hstep : t.statStep.toNat = is.length) : RomDone is s t := by
  obtain ⟨_, herr, hlastop⟩ := outcomes_keep is s
  refine ⟨?_, ?_, ?_, ?_, hstep, ?_⟩
  · rw [h]; rfl
  · rw [h]; rfl
  · rw [h]; exact herr
  · rw [h]; exact hlastop
  · rw [h]; rfl

/-- A ROM from its beginning to its end, with enough data. -/
theorem helped_rom {is : List Instr} {ds : List Half} (h : AtMicroOp r 0 s)
    (hrom : romInstrs s.build.profile r = is ++ [.uEnd]) (hc : AllComplete is s)
    (hds : (is.map maxMoves).sum + 1 ≤ ds.length) : ∃ t, helped ds s = .next t ∧ RomDone is s t := by
  have hwithin : Within (fun t => (t.bus = .idle ∧ t.waiting = false ∧ t.busy = false) ∧
      RunFrame (finish (outcomes is s)) t ∧ t.statStep.toNat = is.length) ((is.map maxMoves).sum + 1) s := by
    refine (schedule_within h (by rw [List.drop_zero, hrom]) hc).trans fun t ht => ?_
    obtain ⟨hat, hframe⟩ := ht
    rw [Nat.zero_add] at hat
    have hbuild : t.build = s.build := by
      rw [hframe]
      exact (outcomes_keep is s).1
    have hend : (romInstrs t.build.profile r)[is.length]? = some .uEnd := by
      rw [hbuild, hrom, List.getElem?_concat_length]
    refine (uEnd_within hat hend).trans (m := 0) ?_
    rintro _ rfl
    refine .here ⟨⟨hat.bus, hat.waiting, rfl⟩, ?_, hat.step⟩
    rw [hframe]
    rfl
  obtain ⟨t, rest, ⟨⟨hbus, hw, hb⟩, hframe, hstep⟩, he⟩ := hwithin.helped hds
  obtain ⟨ins, hidle⟩ := helped_idle rest hb hbus hw
  exact ⟨_, he.trans hidle, .of_frame (hframe.trans rfl) hstep⟩

end

end Sys2Proof.Machine
end

section
/-! PROOFS. The whole DISABLE and the whole ENABLE of a well-formed DBBE (44_sequencer.md R185 to R190, R196, R198). -/

namespace Sys2Proof.Machine

/-- An acceptance that starts a ROM on a quiet bus port leaves the ROM before its first micro-op. -/
theorem AtMicroOp.of_start {r : RomSel} {t : State} (hwf : buildWf t.build = true) (hb : t.busy = true)
    (hrun : romRunning t) (hrom : t.rom = some r) (hstep : t.romStep = 0) (hbus : t.bus = .idle)
    (hr : t.response = none) (hw : t.waiting = false) : AtMicroOp r 0 t :=
  ⟨hwf, hb, hrun, hrom, by rw [hstep]; rfl, hbus, hr, hw⟩

/-! ## DISABLE -/

/-- The teardown without its U.END (R198). -/
def teardownBody (p : Profile) : List Instr := (teardownInstrs p).dropLast

theorem teardown_eq (p : Profile) : romInstrs p .teardown = teardownBody p ++ [.uEnd] := rfl

theorem teardownBody_length (p : Profile) : (teardownBody p).length = 9 := rfl

theorem teardownBody_moves (p : Profile) : ((teardownBody p).map maxMoves).sum + 1 = 36 := rfl

theorem teardown_allComplete (p : Profile) (s : State) : AllComplete (teardownBody p) s := by
  simp [teardownBody, teardownInstrs, AllComplete, CanComplete, setb, clrb]

/-- With a line the output takes the level; without one it stays deasserted (R61, R194). -/
theorem driveResetLine_rstline {s : State} (l : Bool) (h : s.rstline = true → s.build.hasResetLine = true) :
    (driveResetLine l s).rstline = (s.build.hasResetLine && l) := by
  cases hline : s.build.hasResetLine with
  | false =>
    rw [driveResetLine_absent l hline]
    simpa [hline] using h
  | true =>
    by_cases hl : s.rstline = l
    · rw [driveResetLine_same hl, hl, Bool.true_and]
    · rw [driveResetLine_changed hline hl, Bool.true_and]

/-- What a whole teardown leaves: phase Off, no solution, and the line asserted if it exists. -/
theorem teardown_results {s : State} (p : Profile) (h : s.rstline = true → s.build.hasResetLine = true) :
    (outcomes (teardownBody p) s).phase = .off ∧ (outcomes (teardownBody p) s).valid = false ∧
      (outcomes (teardownBody p) s).rstline = s.build.hasResetLine := by
  let v := enterPhase .pointerReset (enterPhase .pixelPipeDisabled (enterPhase .frameStopRequested s))
  have hout : outcomes (teardownBody p) s = enterPhase .off (driveResetLine true v) := rfl
  rw [hout]
  exact ⟨rfl, rfl, (driveResetLine_rstline (s := v) true h).trans (Bool.and_true _)⟩

/-- Settles O59: the teardown's micro-ops one after the other, each within its bound of moves, and its U.END. -/
theorem disableReachesOff : Obligations.DisableReachesOff := by
  intro s rest ds hc hwf hb hbus hr hw hin hds
  obtain ⟨t₀, ht₀, hstep⟩ : ∃ t₀, t₀ = selectRom .teardown (startOp .disable (beginCommand 0x2
      { s with inputs := rest, reply := some .done })) ∧ step s = .next t₀ :=
    ⟨_, rfl, (step_cmd_write_idle (i := .disable) hin hb rfl).trans (disable_accepted hb)⟩
  have hstart : AtMicroOp .teardown 0 t₀ := by
    rw [ht₀]
    exact .of_start hwf rfl (.inr rfl) rfl rfl hbus hr hw
  obtain ⟨herr, hlastop, hline, hbuild⟩ :
      t₀.err = .none ∧ t₀.lastop = 2 ∧ t₀.rstline = s.rstline ∧ t₀.build = s.build := by simp [ht₀]
  obtain ⟨t, ht, hdone⟩ := helped_rom hstart (teardown_eq _) (teardown_allComplete _ _)
    ((teardownBody_moves _).trans_le hds)
  obtain ⟨hphase, hvalid, hrst⟩ := teardown_results t₀.build.profile (s := t₀)
    (by rw [hline, hbuild]; exact hc.line_exists)
  exact ⟨t₀, t, hstep, ht, (congrArg Results.phase hdone.results).trans hphase,
    (congrArg Results.valid hdone.results).trans hvalid, hdone.busy, hdone.op, hdone.err.trans herr,
    BitVec.eq_of_toNat_eq (hdone.step.trans (teardownBody_length _)), hdone.lastop.trans hlastop,
    (congrArg Results.rstline hdone.results).trans (hrst.trans (congrArg Build.hasResetLine hbuild))⟩

/-! ## ENABLE -/

/-- The bring-up without its U.END (R196). -/
def bringupBody (p : Profile) : List Instr :=
  bringupPll p ++ bringupPhy p ++ [.uPhase .phyEnabled, .uDerive] ++ bringupFixed p ++ (bringupTail p).dropLast

theorem bringup_eq (p : Profile) : romInstrs p .bringup = bringupBody p ++ [.uEnd] := by
  simp [romInstrs, bringupInstrs, bringupBody, bringupTail]

theorem bringupPhy_writes (p : Profile) : ∀ i ∈ bringupPhy p, ∃ r v, i = .uWr r v := by
  rintro i hi
  obtain ⟨r, _, rfl⟩ := List.mem_map.1 hi
  exact ⟨_, _, rfl⟩

theorem bringupFixed_writes (p : Profile) : ∀ i ∈ bringupFixed p, ∃ r v, i = .uWr r v := by
  rintro i hi
  obtain ⟨e, _, rfl⟩ := List.mem_map.1 hi
  exact ⟨_, _, rfl⟩

theorem bringupBody_length (p : Profile) :
    (bringupBody p).length = 27 + (p.phyLanes.length + p.timingFixed.length) := by
  simp only [bringupBody, bringupPll, bringupPhy, bringupFixed, bringupTail, List.length_append, List.length_cons,
    List.length_nil, List.length_map, List.length_dropLast]
  omega

theorem bringupBody_moves (p : Profile) :
    ((bringupBody p).map maxMoves).sum + 1 = 114 + 5 * (p.phyLanes.length + p.timingFixed.length) := by
  simp only [bringupBody, bringupPll, bringupPhy, bringupFixed, bringupTail, setb, clrb, maxMoves, maxTxs,
    Function.comp_def, List.dropLast_cons_cons, List.dropLast_singleton, List.map_append, List.map_cons, List.map_nil,
    List.map_map, List.map_const', List.sum_append, List.sum_cons, List.sum_nil, List.sum_replicate, smul_eq_mul]
  omega

/-- What the bring-up leaves before its U.SOLVE. -/
def beforeSolve (s : State) : State := enterPhase .reset (driveResetLine false s)

/-- What the bring-up leaves before its U.DERIVE, from what its U.SOLVE leaves. -/
def beforeDerive (s : State) : State := enterPhase .phyEnabled (enterPhase .pllConfigured s)

/-- What a whole bring-up leaves, from what its U.DERIVE leaves. -/
def afterDerive (s : State) : State :=
  enterPhase .streaming (enterPhase .dsiStarted (enterPhase .peripheralAwake (enterPhase .timingProgrammed s)))

theorem outcomes_bringup (p : Profile) (s : State) :
    outcomes (bringupBody p) s = afterDerive (writeTiming (beforeDerive (outcome .uSolve (beforeSolve s)))) := by
  obtain ⟨hphy, _⟩ := outcomes_of_writes (bringupPhy_writes p) (outcomes (bringupPll p) s)
  simp only [bringupBody, outcomes_append, hphy]
  rw [(outcomes_of_writes (bringupFixed_writes p) _).1]
  rfl

section
variable {s : State} {frs : Nat}

/-- What the bring-up's U.SOLVE leaves: the solution of the latched configuration (R158). -/
theorem bringup_solved (hb : bracket (targetFreq s.acfg) = some frs)
    (hf : (searchPll s.acfg.refclk.toNat frs (targetFreq s.acfg)).found = true) :
    let r := searchPll s.acfg.refclk.toNat frs (targetFreq s.acfg)
    let v := outcome .uSolve (beforeSolve s)
    v.acfg = s.acfg ∧ v.valid = true ∧ v.rstline = (driveResetLine false s).rstline ∧ v.fbd.toNat = r.bestFbd ∧
      v.prd.toNat = r.bestPrd ∧ v.frs.toNat = frs ∧ v.pllFreq.toNat = r.bestPll ∧
      v.pllBitclk.toNat = r.bestPll / 2 := by
  intro r v
  have hacfg : (beforeSolve s).acfg = s.acfg := by simp [beforeSolve]
  have hv : v = commitSolution frs (recordSearch r (beginSolve (targetFreq s.acfg) (beforeSolve s))) := by
    rw [← hacfg] at hb
    simp only [v, r, outcome_uSolve hb, hacfg]
  rw [hv]
  exact ⟨hacfg, rfl, rfl, commitSolution_toNat (bracket_spec hb).1
    (by simpa [hacfg] using searchPll_best _ _ _) hf⟩

/-- The bring-up completes: its U.SOLVE leaves the solution that its U.DERIVE needs. -/
theorem bringup_allComplete (p : Profile) (hc : configOk s.acfg = true) (hb : bracket (targetFreq s.acfg) = some frs)
    (hf : (searchPll s.acfg.refclk.toNat frs (targetFreq s.acfg)).found = true) : AllComplete (bringupBody p) s := by
  have hacfg : (beforeSolve s).acfg = s.acfg := by simp [beforeSolve]
  have hsolve : CanComplete .uSolve (beforeSolve s) := ⟨by rwa [hacfg], frs, by rwa [hacfg], by rwa [hacfg]⟩
  obtain ⟨hvacfg, hvalid, _⟩ := bringup_solved hb hf
  have hderive : CanComplete .uDerive (beforeDerive (outcome .uSolve (beforeSolve s))) :=
    ⟨by simpa [beforeDerive] using hvalid, by simpa [beforeDerive, hvacfg] using hc⟩
  obtain ⟨hphy, hphys⟩ := outcomes_of_writes (bringupPhy_writes p) (outcomes (bringupPll p) s)
  simp only [bringupBody, allComplete_append, outcomes_append, hphy]
  refine ⟨⟨⟨⟨?_, hphys⟩, trivial, hderive, trivial⟩, (outcomes_of_writes (bringupFixed_writes p) _).2⟩, ?_⟩
  · exact ⟨trivial, trivial, trivial, trivial, hsolve, trivial, trivial, trivial, trivial, trivial, trivial⟩
  · simp [bringupTail, AllComplete, CanComplete, setb, clrb]

/-- `hsync` of a bit clock that a search in the target's bracket found fits its register (R16, R171). -/
theorem toNat_ofNat_hsyncValue {c : DevConfig} {refclk : Nat} (hc : configOk c = true)
    (hb : bracket (targetFreq c) = some frs) (hf : (searchPll refclk frs (targetFreq c)).found = true) :
    (BitVec.ofNat 32 (hsyncValue c ((searchPll refclk frs (targetFreq c)).bestPll / 2))).toNat =
      hsyncValue c ((searchPll refclk frs (targetFreq c)).bestPll / 2) := by
  obtain ⟨_, _, _, _, hlt⟩ := searchPll_best refclk frs (targetFreq c) hf
  have hfits := hsyncValue_lt hc (half_lt_target_of_bracket hb hlt)
  exact (BitVec.toNat_ofNat _ 32).trans (Nat.mod_eq_of_lt (hfits.trans (by norm_num)))

/-- What the micro-ops after the U.SOLVE make of the results. -/
theorem afterSolve_results (v : State) :
    let u := afterDerive (writeTiming (beforeDerive v))
    u.phase = .streaming ∧ u.valid = v.valid ∧ u.rstline = v.rstline ∧ SameSolution v u ∧
      u.timHsync = BitVec.ofNat 32 (hsyncValue v.acfg v.pllBitclk.toNat) ∧
      u.timVsync = BitVec.ofNat 32 (vsyncValue v.acfg) := by
  simp [afterDerive, beforeDerive, SameSolution]

/-- Phase Streaming with the line released, the solution of a configuration in a bracket, and the timing derived from
it. -/
def Streams (c : DevConfig) (frs : Nat) (t : State) : Prop :=
  let r := searchPll c.refclk.toNat frs (targetFreq c)
  t.phase = .streaming ∧ t.valid = true ∧ t.rstline = false ∧ t.fbd.toNat = r.bestFbd ∧ t.prd.toNat = r.bestPrd ∧
    t.frs.toNat = frs ∧ t.pllFreq.toNat = r.bestPll ∧ t.pllBitclk.toNat = r.bestPll / 2 ∧
    t.timHsync.toNat = hsyncValue c (r.bestPll / 2) ∧ t.timVsync.toNat = vsyncValue c

theorem Streams.of_results {c : DevConfig} {t u : State} (h : resultsOf t = resultsOf u) (hu : Streams c frs u) :
    Streams c frs t := by
  simp only [resultsOf, Results.mk.injEq] at h
  obtain ⟨_, hphase, hrst, hfbd, hprd, hfrs, hvalid, hfreq, hbit, _, _, hhsync, hvsync, _⟩ := h
  unfold Streams at *
  rwa [hphase, hrst, hfbd, hprd, hfrs, hvalid, hfreq, hbit, hhsync, hvsync]

/-- A whole bring-up streams. -/
theorem bringup_streams (p : Profile) (hc : configOk s.acfg = true) (hb : bracket (targetFreq s.acfg) = some frs)
    (hf : (searchPll s.acfg.refclk.toNat frs (targetFreq s.acfg)).found = true)
    (hline : s.rstline = true → s.build.hasResetLine = true) : Streams s.acfg frs (outcomes (bringupBody p) s) := by
  obtain ⟨hacfg, hvalid, hrst, hfbd, hprd, hfrs, hfreq, hbit⟩ := bringup_solved hb hf
  rw [driveResetLine_rstline false hline, Bool.and_false] at hrst
  obtain ⟨hphase, hv, hr, ⟨hfbd', hprd', hfrs', hfreq', hbit'⟩, hhsync, hvsync⟩ :=
    afterSolve_results (outcome .uSolve (beforeSolve s))
  rw [hacfg, hbit] at hhsync
  rw [hacfg] at hvsync
  unfold Streams
  rw [outcomes_bringup, hphase, hv, hr, hfbd', hprd', hfrs', hfreq', hbit', hhsync, hvsync]
  exact ⟨rfl, hvalid, hrst, hfbd, hprd, hfrs, hfreq, hbit, toNat_ofNat_hsyncValue hc hb hf,
    toNat_ofNat_vsyncValue _⟩

end

/-- Settles O60: the bring-up's micro-ops one after the other, each within its bound of moves, and its U.END. -/
theorem enableReachesStreaming : Obligations.EnableReachesStreaming := by
  intro s rest ds frs hc hwf hb hbus hr hw hin hcfg hbr r hf k hds
  obtain ⟨t₀, ht₀, hstep⟩ : ∃ t₀, t₀ = selectRom .bringup (startOp .enable (latchConfig (beginCommand 0x1
      { s with inputs := rest, reply := some .done }))) ∧ step s = .next t₀ :=
    ⟨_, rfl, (step_cmd_write_idle (i := .enable) hin hb rfl).trans (enable_accepted hb hcfg)⟩
  have hstart : AtMicroOp .bringup 0 t₀ := by
    rw [ht₀]
    exact .of_start hwf rfl (.inl rfl) rfl rfl hbus hr hw
  obtain ⟨herr, hlastop, hline, hbuild, hacfg⟩ : t₀.err = .none ∧ t₀.lastop = 1 ∧ t₀.rstline = s.rstline ∧
      t₀.build = s.build ∧ t₀.acfg = s.cfg := by simp [ht₀]
  rw [← hacfg] at hcfg hbr
  have hf : (searchPll t₀.acfg.refclk.toNat frs (targetFreq t₀.acfg)).found = true := by rw [hacfg]; exact hf
  obtain ⟨t, ht, hdone⟩ := helped_rom hstart (bringup_eq _) (bringup_allComplete _ hcfg hbr hf)
    ((bringupBody_moves _).trans_le (by rw [hbuild]; exact hds))
  have hstreams := (bringup_streams t₀.build.profile hcfg hbr hf
    (by rw [hline, hbuild]; exact hc.line_exists)).of_results hdone.results
  rw [hacfg] at hstreams
  obtain ⟨hphase, hvalid, hrst, hsol⟩ := hstreams
  have hlast : t.statStep.toNat = 27 + k := by rw [hdone.step, bringupBody_length, hbuild]
  exact ⟨t₀, t, hstep, ht, hphase, hvalid, hdone.busy, hdone.op, hdone.err.trans herr, hlast,
    hdone.lastop.trans hlastop, hrst, hsol⟩

end Sys2Proof.Machine
end

section
/-! PROOFS. The short-packet operations U.SHORT and H.SHORT (45_short_command.md R211, R212, R214, R215): the contents of
their transactions, and the completion of an access that only writes. -/

namespace Sys2Proof.Machine

/-! ## The contents of a short packet -/

/-- The low half of a word put together from two bytes, as the header and the payload of R211 are. -/
theorem extractLsb'_bytes (hi lo : Byte) :
    ((hi.setWidth 32 <<< 8) ||| lo.setWidth 32 : Word).extractLsb' 0 16 = hi ++ lo := by
  refine BitVec.eq_of_getLsbD_eq fun k hk => ?_
  rw [BitVec.getLsbD_append]
  by_cases hlow : k < 8
  · simp [hlow, hk, show k < 32 by omega]
  · simp [hlow, hk, BitVec.getLsbD_of_ge lo k (by omega), show k < 32 by omega]

theorem sendShortTxs_w16 (p : Profile) {h w d t : Addr} (c p0 p1 : Byte)
    (hh : h.toNat < 0x100 ∨ 0x600 ≤ h.toNat) (hw : w.toNat < 0x100 ∨ 0x600 ≤ w.toNat)
    (hd : d.toNat < 0x100 ∨ 0x600 ≤ d.toNat) (ht : t.toNat < 0x100 ∨ 0x600 ≤ t.toNat) :
    sendShortTxs p (h, w, d, t) c p0 p1 =
      [.write h (p.scTag ++ c), .write w 0, .write d (p1 ++ p0), .write t (p.scTriggerValue.extractLsb' 0 16)] := by
  have hheader : (shortHeader p c).extractLsb' 0 16 = p.scTag ++ c := extractLsb'_bytes p.scTag c
  have hpayload : (shortPayload p0 p1).extractLsb' 0 16 = p1 ++ p0 := extractLsb'_bytes p1 p0
  rw [sendShortTxs, regWriteTxs_w16 hh, regWriteTxs_w16 hw, regWriteTxs_w16 hd, regWriteTxs_w16 ht, hheader, hpayload]
  rfl

/-- A short packet only writes, whatever the width classes of its role registers. -/
theorem mem_sendShortTxs {p : Profile} {addrs : Addr × Addr × Addr × Addr} {c p0 p1 : Byte} {x : Tx}
    (h : x ∈ sendShortTxs p addrs c p0 p1) : ∃ b w, x = .write b w := by
  simp only [sendShortTxs, List.mem_append] at h
  obtain ((h | h) | h) | h := h <;> exact mem_regWriteTxs h

/-! ## An access that only writes -/

section
variable {s : State} {i : Instr} {txs : List Tx}

/-- The turn that takes the OK answer to the last transaction: a write's answer gives no data to keep. -/
theorem writes_complete {d : Half} (ha : accessOf s i = some fun _ => txs) (hwrites : ∀ x ∈ txs, ∃ b w, x = .write b w)
    (hrun : i.isHost = true → s.busy = true ∧ s.op = startedOp i) (hbus : s.bus = .idle)
    (hr : s.response = some (.ok d)) (hlast : s.sub + 1 = txs.length) :
    exec i s = .next (afterAccess i { s with response := none, sub := s.sub + 1 }) := by
  have hlt : s.sub < txs.length := by omega
  obtain ⟨b, w, hx⟩ := hwrites _ (List.getElem_mem hlt)
  have htx : txAt (fun _ => txs) s = some (.write b w) := hx ▸ List.getElem?_eq_getElem hlt
  have hend : txAt (fun _ => txs) (stepAccess (fun _ => txs) d s) = none := List.getElem?_eq_none hlast.ge
  rw [exec_access ha hrun, runAccess_done hbus hr hend, stepAccess_eq d htx, readsGiven, readsGiven, List.append_nil]

/-- The access by steps, from its first transaction, each of which is answered OK. -/
theorem writes_run {ds : List Half} {rest : List Input} (ha : accessOf s i = some fun _ => txs)
    (hwrites : ∀ x ∈ txs, ∃ b w, x = .write b w) (hb : s.busy = true) (hi : currentInstr s = some i)
    (hbus : s.bus = .idle) (hr : s.response = none) (hlen : ds.length = txs.length)
    (hin : s.inputs = okTurns ds ++ .engine :: rest) :
    Host.Core.run core (2 * txs.length + 1) s = .next (afterAccess i { s with
      inputs := rest, sub := txs.length, readData := [], log := s.log ++ okEvents s.now (txs.zip ds) }) := by
  have hfst : (txs.zip ds).map Prod.fst = txs := List.map_fst_zip hlen.ge
  have hsnd : (txs.zip ds).map Prod.snd = ds := List.map_snd_zip hlen.le
  have hcount : (txs.zip ds).length = txs.length := by rw [← List.length_map Prod.fst, hfst]
  have hdata : readsGiven (txs.zip ds) = [] :=
    readsGiven_eq_nil_of_writes fun p hp => hwrites p.1 (List.of_mem_zip hp).1
  have hrun := access_run_done hb hi ha hbus hr rest (txs.zip ds) (by rw [hsnd, hin])
    (fun k _ => by rw [← List.getElem?_map, hfst]) (List.getElem?_eq_none hcount.ge)
  rwa [afterAccess_turnStart hi ha, hcount, hdata] at hrun

end

/-! ## The obligation -/

theorem accessOf_uShort {s : State} {addrs : Addr × Addr × Addr × Addr} (h : shortAddrs s.build.profile = some addrs)
    (c p0 p1 : Byte) :
    accessOf s (.uShort c p0 p1) = some fun _ => sendShortTxs s.build.profile addrs c p0 p1 := by
  rw [accessOf, h, Option.map_some]

/-- A running H.SHORT sends what its acceptance latched (R181), whatever operands stand in the instruction. -/
theorem accessOf_hShort {s : State} {addrs : Addr × Addr × Addr × Addr} (h : shortAddrs s.build.profile = some addrs)
    (c p0 p1 : Byte) :
    accessOf s (.hShort c p0 p1) =
      some fun _ => sendShortTxs s.build.profile addrs s.arg.commandId s.arg.param0 s.arg.param1 := by
  rw [accessOf, h, Option.map_some]

/-- Settles O31: a short packet is an access that only writes, whose completion goes on with the next micro-op or ends
the command. -/
theorem shortPacketsAreSent : Obligations.ShortPacketsAreSent := by
  refine ⟨fun p h w d t c p0 p1 => sendShortTxs_w16 p c p0 p1, fun s addrs c p0 p1 haddrs hbus => ⟨?_, fun hb ho => ?_⟩⟩
  · have ha := accessOf_uShort haddrs c p0 p1
    exact ⟨fun _ => writes_complete ha (fun _ => mem_sendShortTxs) nofun hbus,
      fun _ _ hb hi => writes_run ha (fun _ => mem_sendShortTxs) hb hi hbus⟩
  · have ha := accessOf_hShort haddrs
    have hi : currentInstr s = some (.hShort s.arg.commandId s.arg.param0 s.arg.param1) := by simp [currentInstr, ho]
    exact ⟨fun _ => writes_complete (ha c p0 p1) (fun _ => mem_sendShortTxs) (fun _ => ⟨hb, ho⟩) hbus,
      fun _ _ => writes_run (ha _ _ _) (fun _ => mem_sendShortTxs) hb hi hbus⟩

end Sys2Proof.Machine
end
